-- ==== Sys2Proof/Word.lean ====
section
/-! DEFINITION. The bit vectors of the engine: bytes of the memories and 32-bit command words (00 R11, 20 R70, 30 R90). -/

namespace Sys2Proof

/-- One byte of TP, CP, RAMF or ROM (20 R70). -/
abbrev Byte := BitVec 8

/-- A command word, a ROM address, FRAME, RESULT or FONT_BASE (00 R10). -/
abbrev Word := BitVec 32

/-- One 3-bit RGB sample: bit 2 red, bit 1 green, bit 0 blue (10 R48, 20 R68). -/
abbrev Rgb := BitVec 3

end Sys2Proof
end

