-- ==== Sys2Proof/Config.lean ====
section
/-! DEFINITION. What is fixed for the machine: the geometry (00 R7), the timing record `cfg` (00 R8, R9), and the free
values the spec leaves open. A free value is an opaque constant with no body: no proof can see what it is. -/

namespace Sys2Proof

/-- GRID_W (00 R7). -/
abbrev Config.gridW : Nat := 28
/-- GRID_H (00 R7). -/
abbrev Config.gridH : Nat := 30
/-- PIX_W = GRID_W * 8 (00 R7). -/
abbrev Config.pixW : Nat := 224
/-- PIX_H = GRID_H * 8 (00 R7). -/
abbrev Config.pixH : Nat := 240
/-- CELLS = GRID_W * GRID_H, the size of TP and of CP (00 R7, 10 R38, R39). -/
abbrev Config.cells : Nat := 840
/-- SLOTS * SLOT_BYTES, the size of RAMF (00 R7, 10 R40). -/
abbrev Config.ramfSize : Nat := 2048
/-- The number of ROM addresses (20 R64). -/
abbrev Config.romSize : Nat := 2 ^ 32

/-- The configuration record `cfg` (00 R8, R9). The polarities are one bit and the four latencies are below 65536 by their
types; the other constraints of R8 are `Cfg.ok` (WellFormed.lean). -/
structure Cfg where
  /-- H_TOTAL, ticks per line. -/
  hTotal : Nat
  /-- H_SYNC_START. -/
  hSyncStart : Nat
  /-- H_SYNC_END. -/
  hSyncEnd : Nat
  /-- H_IRQ_AT. -/
  hIrqAt : Nat
  /-- PIX_TICKS, ticks per pixel. -/
  pixTicks : Nat
  /-- V_TOTAL, lines per frame. -/
  vTotal : Nat
  /-- V_SYNC_START. -/
  vSyncStart : Nat
  /-- V_SYNC_END. -/
  vSyncEnd : Nat
  /-- V_ACT_START. -/
  vActStart : Nat
  /-- V_ACT_END. -/
  vActEnd : Nat
  /-- V_EOF. -/
  vEof : Nat
  /-- HSYNC_ACTIVE, the level of an asserted HSYNC. -/
  hsyncActive : Bool
  /-- VSYNC_ACTIVE, the level of an asserted VSYNC. -/
  vsyncActive : Bool
  /-- LATCOMP_ROM. -/
  latcompRom : BitVec 16
  /-- LATCOMP_RAM. -/
  latcompRam : BitVec 16
  /-- FETCH_LAT_ROM. -/
  fetchLatRom : BitVec 16
  /-- FETCH_LAT_RAM. -/
  fetchLatRam : BitVec 16
deriving DecidableEq, Repr, Inhabited

/-- The three agents (60 R270). -/
inductive Agent
  /-- REN, the renderer: its step is the line service. -/
  | ren
  /-- TMR, the timers: its step is the tick. -/
  | tmr
  /-- CMD, the foreground command sequencer. -/
  | cmd
deriving DecidableEq, Repr, Inhabited

/-- Which agent moves next where both the timers and the command sequencer could (60 R274). -/
inductive Turn
  /-- TMR takes a tick. -/
  | tmr
  /-- CMD takes a step. -/
  | cmd
deriving DecidableEq, Repr, Inhabited

/-- The choices at the head of the n-th block after the listed schedule has run out: a free value. The block ends in one turn
for each agent, so that none waits for ever (60 R274; log 5). -/
opaque Config.freeTurns : Nat → List Turn

/-- The timing record of the chip: a free value (00 R8; log 2). `Config.cfg` (WellFormed.lean) is this record if it meets
the constraints of R8. -/
opaque Config.rawCfg : Cfg

/-- The contents of the read-only memory, as address and byte pairs: a free value (00 R10, 20 R64; log 3). -/
opaque Config.rawRom : List (Nat × Byte)

/-- The contents of TP after `rst`, as address and byte pairs: a free value (10 R49, 70 R311; log 4). -/
opaque Config.rawTP : List (Nat × Byte)

/-- The contents of CP after `rst`: a free value (10 R49, 70 R311; log 4). -/
opaque Config.rawCP : List (Nat × Byte)

/-- The contents of RAMF after `rst`: a free value (10 R49, 70 R311; log 4). -/
opaque Config.rawRAMF : List (Nat × Byte)

end Sys2Proof
end

