-- ==== Sys2Proof/Syntax.lean ====
section
/-! DEFINITION. The nineteen commands of BVGA-CMD version 1, one constructor per row of the opcode table (30 R96), with the
operands of their formats (30 R93), each unsigned and at its own width (30 R94). -/

namespace Sys2Proof

/-- A decoded command (30 R96). Every value of every field is a legal operand (30 R94, R95), so every term of this type is
well formed. -/
inductive Instr
  /-- START alt, base (40 R130), format S. -/
  | start (alt : Bool) (base : Word)
  /-- STOP (40 R134), format Z. -/
  | stop
  /-- SETSRC alt, base (40 R138), format S. -/
  | setsrc (alt : Bool) (base : Word)
  /-- WAITF n (40 R142), format H. -/
  | waitf (n : BitVec 16)
  /-- GETFRAME (40 R146), format Z. -/
  | getframe
  /-- ACQUIRE cx, cy (42 R192), format Q. -/
  | acquire (cx cy : Byte)
  /-- RESETPOOL (42 R194), format Z. -/
  | resetpool
  /-- SETFIRSTFREE n (42 R196), format K. -/
  | setfirstfree (n : Byte)
  /-- SETTILE cx, cy, val (43 R210), format T. -/
  | settile (cx cy val : Byte)
  /-- GETTILE cx, cy (43 R212), format Q. -/
  | gettile (cx cy : Byte)
  /-- SETCOLOR cx, cy, val (43 R214), format T. -/
  | setcolor (cx cy val : Byte)
  /-- GETCOLOR cx, cy (43 R216), format Q. -/
  | getcolor (cx cy : Byte)
  /-- FILLCOLOR cx, cy, w, h, color (43 R218), format R. -/
  | fillcolor (cx cy w h color : Byte)
  /-- FILLSCR tile, color (43 R220), format F. -/
  | fillscr (tile color : Byte)
  /-- SETPIXEL x, y, set (44 R230), format P. -/
  | setpixel (x y : BitVec 16) (on : Bool)
  /-- DRAWBMP x, y, w, h, base, frame, set, paint, color (44 R236), format B. -/
  | drawbmp (x y w h : BitVec 16) (base : Word) (frame : Byte) (on paint : Bool) (color : Byte)
  /-- DRAWBMP8, the same operands (44 R240, R242), format B. -/
  | drawbmp8 (x y w h : BitVec 16) (base : Word) (frame : Byte) (on paint : Bool) (color : Byte)
  /-- CLEARGRAPH color (44 R250), format K. -/
  | cleargraph (color : Byte)
  /-- COPYFONT fi, src, ri (44 R256), format Y. -/
  | copyfont (fi : Byte) (src : Word) (ri : Byte)
deriving DecidableEq, Repr, Inhabited

/-- The opcode byte of a command (30 R96). -/
def Instr.opcode : Instr → Byte
  | .start _ _ => 0x01
  | .stop => 0x02
  | .setsrc _ _ => 0x03
  | .waitf _ => 0x04
  | .getframe => 0x05
  | .acquire _ _ => 0x10
  | .resetpool => 0x11
  | .setfirstfree _ => 0x12
  | .settile _ _ _ => 0x20
  | .gettile _ _ => 0x21
  | .setcolor _ _ _ => 0x22
  | .getcolor _ _ => 0x23
  | .fillcolor _ _ _ _ _ => 0x24
  | .fillscr _ _ => 0x25
  | .setpixel _ _ _ => 0x30
  | .drawbmp _ _ _ _ _ _ _ _ _ => 0x31
  | .drawbmp8 _ _ _ _ _ _ _ _ _ => 0x32
  | .cleargraph _ => 0x33
  | .copyfont _ _ _ => 0x34

/-- The length of a command in words, a function of the opcode alone (30 R99). -/
def Instr.len : Instr → Nat
  | .start _ _ => 2
  | .stop => 1
  | .setsrc _ _ => 2
  | .waitf _ => 1
  | .getframe => 1
  | .acquire _ _ => 1
  | .resetpool => 1
  | .setfirstfree _ => 1
  | .settile _ _ _ => 1
  | .gettile _ _ => 1
  | .setcolor _ _ _ => 1
  | .getcolor _ _ => 1
  | .fillcolor _ _ _ _ _ => 2
  | .fillscr _ _ => 1
  | .setpixel _ _ _ => 2
  | .drawbmp _ _ _ _ _ _ _ _ _ => 4
  | .drawbmp8 _ _ _ _ _ _ _ _ _ => 4
  | .cleargraph _ => 1
  | .copyfont _ _ _ => 2

end Sys2Proof
end

