-- ==== Sys2Proof/WellFormed.lean ====
section
/-! DEFINITION. The checks on what is given from outside. A command needs none: every field of `Instr` has exactly the width
of its operand and every value of it is legal (30 R94, R95), so every `Instr` is well formed. A configuration record must meet
the constraints of 00 R8; one that does not is refused (93 U9). -/

namespace Sys2Proof

/-- The constraints of 00 R8, one conjunct each, in the order in which the rule gives them. -/
def Cfg.ok (c : Cfg) : Bool :=
  decide (1 ≤ c.hTotal) &&
  decide (c.hSyncStart ≤ c.hSyncEnd) && decide (c.hSyncEnd ≤ c.hTotal) &&
  decide (c.hIrqAt < c.hTotal) &&
  decide (1 ≤ c.pixTicks) &&
  decide (1 ≤ c.vTotal) &&
  decide (c.vSyncStart ≤ c.vSyncEnd) && decide (c.vSyncEnd ≤ c.vTotal) &&
  decide (c.vActStart ≤ c.vActEnd) && decide (c.vActEnd ≤ c.vTotal) &&
  decide (c.vEof < c.vTotal) &&
  (decide (c.vEof < c.vActStart) || decide (c.vActEnd ≤ c.vEof))

/-- The least configuration that meets R8. It stands in only where the opaque record would break R8 (log 2). -/
def Config.leastCfg : Cfg :=
  { hTotal := 1, hSyncStart := 0, hSyncEnd := 0, hIrqAt := 0, pixTicks := 1, vTotal := 1, vSyncStart := 0, vSyncEnd := 0,
    vActStart := 0, vActEnd := 0, vEof := 0, hsyncActive := false, vsyncActive := false, latcompRom := 0, latcompRam := 0,
    fetchLatRom := 0, fetchLatRam := 0 }

/-- The chip's configuration: unknown but for the constraints of R8 (00 R8, 93 U8, U9; log 2). -/
def Config.cfg : Cfg := if Config.rawCfg.ok then Config.rawCfg else Config.leastCfg

end Sys2Proof
end

