-- ==== Sys2Proof/Decode.lean ====
section
/-! DEFINITION. The command encoding of 30_encoding.md: the decoder (R92, R93, R96), total on every list of words and
rejecting by name, then the encoder written from the same tables. -/

namespace Sys2Proof

/-- Why a command is not decoded (30 R92, R97; 60 R282). -/
inductive DecodeError
  /-- Cause 1: the opcode byte is not one of the nineteen. -/
  | reservedOpcode
  /-- Cause 2: a must-be-zero bit of the format is 1. -/
  | reservedField
  /-- Cause 3: the program ends before the command does. -/
  | truncated
deriving DecidableEq, Repr

/-- The cause code of CmdFault (60 R282). -/
def DecodeError.cause : DecodeError → BitVec 2
  | .reservedOpcode => 1
  | .reservedField => 2
  | .truncated => 3

/-- `op = w0[31:24]` (30 R91). -/
def opField (w : Word) : Byte := w.extractLsb' 24 8
/-- `A = w0[23:16]` (30 R91). -/
def aField (w : Word) : Byte := w.extractLsb' 16 8
/-- `B = w0[15:8]` (30 R91). -/
def bField (w : Word) : Byte := w.extractLsb' 8 8
/-- `C = w0[7:0]` (30 R91). -/
def cField (w : Word) : Byte := w.extractLsb' 0 8
/-- The upper halfword: `y` of formats P and B, `h` of format B (30 R93). -/
def hiHalf (w : Word) : BitVec 16 := w.extractLsb' 16 16
/-- The lower halfword: `x` of formats P and B, `w` of format B, `imm16` of format H (30 R93). -/
def loHalf (w : Word) : BitVec 16 := w.extractLsb' 0 16
/-- Bit 16 of word 0: `alt` of format S, `set` of formats P and B (30 R93). -/
def bit16 (w : Word) : Bool := w.getLsbD 16
/-- Bit 17 of word 0: `paint` of format B (30 R93). -/
def bit17 (w : Word) : Bool := w.getLsbD 17

/-- One row of the opcode map (30 R96): the must-be-zero bits of word 0 (the mask of R96 less the opcode byte) and of word 1,
the length, and the operands of the row's format (30 R93). -/
structure OpRow where
  /-- The opcode byte. -/
  op : Byte
  /-- The length in words (30 R99). -/
  len : Nat
  /-- The must-be-zero bits of word 0. -/
  zero0 : Word
  /-- The must-be-zero bits of word 1 (format R only). -/
  zero1 : Word
  /-- The command that the words w0, w1, w2, w3 stand for. -/
  build : Word → Word → Word → Word → Instr

/-- The opcode map, in the order of 30 R96. -/
def opcodeMap : List OpRow :=
  [ { op := 0x01, len := 2, zero0 := 0x00FEFFFF, zero1 := 0, build := fun w0 w1 _ _ => .start (bit16 w0) w1 },
    { op := 0x02, len := 1, zero0 := 0x00FFFFFF, zero1 := 0, build := fun _ _ _ _ => .stop },
    { op := 0x03, len := 2, zero0 := 0x00FEFFFF, zero1 := 0, build := fun w0 w1 _ _ => .setsrc (bit16 w0) w1 },
    { op := 0x04, len := 1, zero0 := 0x00FF0000, zero1 := 0, build := fun w0 _ _ _ => .waitf (loHalf w0) },
    { op := 0x05, len := 1, zero0 := 0x00FFFFFF, zero1 := 0, build := fun _ _ _ _ => .getframe },
    { op := 0x10, len := 1, zero0 := 0x000000FF, zero1 := 0, build := fun w0 _ _ _ => .acquire (aField w0) (bField w0) },
    { op := 0x11, len := 1, zero0 := 0x00FFFFFF, zero1 := 0, build := fun _ _ _ _ => .resetpool },
    { op := 0x12, len := 1, zero0 := 0x00FFFF00, zero1 := 0, build := fun w0 _ _ _ => .setfirstfree (cField w0) },
    { op := 0x20, len := 1, zero0 := 0, zero1 := 0, build := fun w0 _ _ _ => .settile (aField w0) (bField w0) (cField w0) },
    { op := 0x21, len := 1, zero0 := 0x000000FF, zero1 := 0, build := fun w0 _ _ _ => .gettile (aField w0) (bField w0) } ] ++
  [ { op := 0x22, len := 1, zero0 := 0, zero1 := 0, build := fun w0 _ _ _ => .setcolor (aField w0) (bField w0) (cField w0) },
    { op := 0x23, len := 1, zero0 := 0x000000FF, zero1 := 0, build := fun w0 _ _ _ => .getcolor (aField w0) (bField w0) },
    { op := 0x24, len := 2, zero0 := 0, zero1 := 0xFFFF0000,
      build := fun w0 w1 _ _ => .fillcolor (aField w0) (bField w0) (cField w1) (bField w1) (cField w0) },
    { op := 0x25, len := 1, zero0 := 0x00FF0000, zero1 := 0, build := fun w0 _ _ _ => .fillscr (bField w0) (cField w0) },
    { op := 0x30, len := 2, zero0 := 0x00FEFFFF, zero1 := 0,
      build := fun w0 w1 _ _ => .setpixel (loHalf w1) (hiHalf w1) (bit16 w0) },
    { op := 0x31, len := 4, zero0 := 0x00FC0000, zero1 := 0,
      build := fun w0 w1 w2 w3 =>
        .drawbmp (loHalf w1) (hiHalf w1) (loHalf w2) (hiHalf w2) w3 (bField w0) (bit16 w0) (bit17 w0) (cField w0) },
    { op := 0x32, len := 4, zero0 := 0x00FC0000, zero1 := 0,
      build := fun w0 w1 w2 w3 =>
        .drawbmp8 (loHalf w1) (hiHalf w1) (loHalf w2) (hiHalf w2) w3 (bField w0) (bit16 w0) (bit17 w0) (cField w0) },
    { op := 0x33, len := 1, zero0 := 0x00FFFF00, zero1 := 0, build := fun w0 _ _ _ => .cleargraph (cField w0) },
    { op := 0x34, len := 2, zero0 := 0x0000FF00, zero1 := 0, build := fun w0 w1 _ _ => .copyfont (aField w0) w1 (cField w0) } ]

/-- The row of an opcode byte, none if it is reserved (30 R97). -/
def opRow (op : Byte) : Option OpRow := opcodeMap.find? fun r => r.op == op

/-- Decode the command at the head of `ws`, the words of the program from cp on, with the checks in the order of 30 R92:
reserved opcode, then truncated command, then must-be-zero bits. The empty list, which a fetch never sees, is a truncated
command (log 12). -/
def decode (ws : List Word) : Except DecodeError Instr :=
  match ws with
  | [] => .error .truncated
  | w0 :: rest =>
    match opRow (opField w0) with
    | none => .error .reservedOpcode
    | some r =>
      if rest.length + 1 < r.len then .error .truncated
      else if w0 &&& r.zero0 ≠ 0 ∨ rest.getD 0 0 &&& r.zero1 ≠ 0 then .error .reservedField
      else .ok (r.build w0 (rest.getD 0 0) (rest.getD 1 0) (rest.getD 2 0))

/-- A word 0 that is four byte fields: `{op, A, B, C}` (30 R91). -/
def byteWord (op a b c : Byte) : Word := op ++ a ++ b ++ c
/-- `{hi, lo}` of two halfwords (30 R93). -/
def halfWord (hi lo : BitVec 16) : Word := hi ++ lo
/-- The byte field A of formats S and P (bit 16) and B (bits 17 and 16): `{0[5:0], b17, b16}` (30 R93). -/
def flagByte (b17 b16 : Bool) : Byte := 0#6 ++ BitVec.ofBool b17 ++ BitVec.ofBool b16

/-- The words of a command, from the formats of 30 R93 and the opcodes of R96. -/
def encode : Instr → List Word
  | .start alt base => [byteWord 0x01 (flagByte false alt) 0 0, base]
  | .stop => [byteWord 0x02 0 0 0]
  | .setsrc alt base => [byteWord 0x03 (flagByte false alt) 0 0, base]
  | .waitf n => [halfWord 0x0400 n]
  | .getframe => [byteWord 0x05 0 0 0]
  | .acquire cx cy => [byteWord 0x10 cx cy 0]
  | .resetpool => [byteWord 0x11 0 0 0]
  | .setfirstfree n => [byteWord 0x12 0 0 n]
  | .settile cx cy val => [byteWord 0x20 cx cy val]
  | .gettile cx cy => [byteWord 0x21 cx cy 0]
  | .setcolor cx cy val => [byteWord 0x22 cx cy val]
  | .getcolor cx cy => [byteWord 0x23 cx cy 0]
  | .fillcolor cx cy w h color => [byteWord 0x24 cx cy color, byteWord 0 0 h w]
  | .fillscr tile color => [byteWord 0x25 0 tile color]
  | .setpixel x y on => [byteWord 0x30 (flagByte false on) 0 0, halfWord y x]
  | .drawbmp x y w h base frame on paint color =>
    [byteWord 0x31 (flagByte paint on) frame color, halfWord y x, halfWord h w, base]
  | .drawbmp8 x y w h base frame on paint color =>
    [byteWord 0x32 (flagByte paint on) frame color, halfWord y x, halfWord h w, base]
  | .cleargraph color => [byteWord 0x33 0 0 color]
  | .copyfont fi src ri => [byteWord 0x34 fi 0 ri, src]

/-- The longest command, in words (30 R99). -/
abbrev maxWords : Nat := 4

/-- Word k of the bits `w` of a command, numbered as the opcode table numbers them: word 0 holds bits 31..0, word 1 bits
63..32, and so on; the bits at `nbits` and above are 0 (log 11). -/
def tableWord (nbits w k : Nat) : Word := BitVec.ofNat 32 ((w % 2 ^ nbits) / 2 ^ (32 * k))

/-- The four words that the bits `w` fill, those above the command zero (log 11). -/
def tableWords (nbits w : Nat) : List Word :=
  [tableWord nbits w 0, tableWord nbits w 1, tableWord nbits w 2, tableWord nbits w 3]

/-- The command the decoder reads from the bits `w` of an opcode-table row of `nbits` bits; none where it refuses. -/
def decodeTableWord (nbits w : Nat) : Option Instr :=
  match decode (tableWords nbits w) with
  | .ok i => some i
  | .error _ => none

end Sys2Proof
end

