-- ==== Sys2Proof/Machine/Memory.lean ====
section
/-! DEFINITION. The byte memories (20 R60, R70) as lists of (address, byte) pairs in one canonical form: addresses strictly
rising, below the memory's size, and no entry that equals what an unlisted address reads as. -/

namespace Sys2Proof.Machine

/-- A byte memory. -/
abbrev Memory := List Host.Cell

/-- What an unlisted address reads as: 0. It is only a way of writing a memory's contents as a list (log 3, log 4): every contents
of the memory's size has exactly one list in canonical form. -/
def unlistedByte : Byte := 0

/-- The canonical form of a memory of `size` bytes. -/
abbrev Memory.WF (size : Nat) (m : Memory) : Prop :=
  m.Pairwise (fun c d => c.1 < d.1) ∧ ∀ c ∈ m, c.1 < size ∧ c.2 ≠ unlistedByte

/-- The byte at index `a` (00 R12, `MemRead`). -/
def Memory.read : Memory → Nat → Byte
  | [], _ => unlistedByte
  | (b, v) :: m, a => if b = a then v else Memory.read m a

/-- The memory with the byte `v` at index `a` (00 R12, `MemWrite`). It keeps the canonical form: writing what an unlisted
address reads as removes the entry. -/
def Memory.write : Memory → Nat → Byte → Memory
  | [], a, v => if v = unlistedByte then [] else [(a, v)]
  | (b, w) :: m, a, v =>
    if a < b then (if v = unlistedByte then (b, w) :: m else (a, v) :: (b, w) :: m)
    else if a = b then (if v = unlistedByte then m else (a, v) :: m)
    else (b, w) :: Memory.write m a v

/-- The memory that a free list stands for: the list where it is in canonical form, the empty list otherwise. -/
def Memory.ofFree (size : Nat) (m : Memory) : Memory := if Memory.WF size m then m else []

/-- The chip's read-only memory (00 R10, 20 R64; log 3). -/
def romImage : Memory := Memory.ofFree Config.romSize Config.rawRom

/-- What TP holds after `rst`: any bytes (70 R311; log 4). -/
def tpImage : Memory := Memory.ofFree Config.cells Config.rawTP

/-- What CP holds after `rst`: any bytes (70 R311; log 4). -/
def cpImage : Memory := Memory.ofFree Config.cells Config.rawCP

/-- What RAMF holds after `rst`: any bytes (70 R311; log 4). -/
def ramfImage : Memory := Memory.ofFree Config.ramfSize Config.rawRAMF

end Sys2Proof.Machine
end

