-- ==== Sys2Proof/Machine/State.lean ====
section
/-! DEFINITION. The state of the engine as plain data (10_state.md), the reasons for which a step can stop, and the state
after reset (10 R49, 70 R310). -/

namespace Sys2Proof.Machine

/-- Where one call of SetPixel stands (44 R230): before an access, with the local values its pseudocode has computed. -/
inductive PixPos
  /-- Before access 1 of Acquire, the read of the cell (42 R190). -/
  | acquire
  /-- The cell was read and held 0: before access 2 of Acquire, the write of the cell (42 R190). -/
  | tpWrite
  /-- Acquire returned `t`: before the read of the bitmap byte. `fresh`: the cell was given NEXTFREE, which moves on in the step of
  that read (60 R275). -/
  | rmwRead (t : Byte) (fresh : Bool)
  /-- The bitmap byte was read as `b`: before the write of the bitmap byte. -/
  | rmwWrite (t b : Byte)
deriving DecidableEq, Repr

/-- The tiles DRAWBMP8 has acquired, the pseudocode's T: pairs of a cell column k and a cell row r with a tile (44 R242). -/
abbrev Tiles := List ((Nat × Nat) × Byte)

/-- The position a command has reached in its access sequence, with its local values (10 R44). -/
inductive Pos
  /-- WAITF after its step 1, with WAIT_START (40 R142). -/
  | waiting (waitStart : Word)
  /-- ACQUIRE after access 1 read 0 (42 R190). -/
  | acqWrite
  /-- A command of a fixed number of accesses (RESETPOOL, FILLCOLOR, FILLSCR, CLEARGRAPH, COPYFONT) after `k` of them. -/
  | index (k : Nat)
  /-- Inside the SetPixel call of SETPIXEL (`q` = 0) or of pixel number `q` = j * w + i of DRAWBMP (44 R230, R236). -/
  | pixel (q : Nat) (p : PixPos)
  /-- DRAWBMP after the pixels below number `q` (44 R236). -/
  | scan (q : Nat)
  /-- DRAWBMP8, phase A, after the numbers j * nc + k below `q`. `fresh`: the last tile is NEXTFREE, which moves on in the step of
  the next access (44 R242, 60 R275). -/
  | cells (q : Nat) (fresh : Bool) (tiles : Tiles)
  /-- DRAWBMP8, phase A, at number `q`: before access 2 of Acquire, the write of the cell (44 R242). -/
  | cellWrite (q : Nat) (tiles : Tiles)
  /-- DRAWBMP8, phase B, after the numbers (r * nc + k) * 8 + j below `q` (44 R242). -/
  | rows (q : Nat) (tiles : Tiles)
  /-- DRAWBMP8, phase B, at number `q`, the bitmap byte read as `b`: before its write (44 R242). -/
  | rowWrite (q : Nat) (b : Byte) (tiles : Tiles)
  /-- Inside Paint, after `k` cells (44 R237). -/
  | paint (k : Nat)
deriving DecidableEq, Repr

/-- CUR, the command in flight (10 R44). -/
structure InFlight where
  /-- The decoded command. -/
  instr : Instr
  /-- The position reached, with the local values. -/
  pos : Pos
deriving DecidableEq, Repr

/-- One event of OUT (10 R45): `Line(frame, v, active, row, sub, latcomp, samples)`. -/
structure LineEvent where
  /-- FRAME at entry. -/
  frame : Word
  /-- VCNT. -/
  v : Nat
  /-- Inside the active-video window. -/
  active : Bool
  /-- The tile row shown, 0 for a blank line. -/
  row : Nat
  /-- The sub-row shown, 0 for a blank line. -/
  sub : Nat
  /-- LATCOMP. -/
  latcomp : BitVec 16
  /-- The 224 samples driven. -/
  samples : List Rgb
deriving DecidableEq, Repr

/-- The state of the engine (10 R20 to R51), the parameters `cfg`, `rom`, `prog` (00 R8, R10) and the schedule (60 R274). -/
structure State where
  /-- cp, the command pointer (10 R21). -/
  cp : Nat
  /-- RESULT (10 R22). -/
  result : Word
  /-- RUN (10 R23). -/
  run : Bool
  /-- IRQ_PEND (10 R24). -/
  irqPend : Bool
  /-- VIDEO_ACTIVE (10 R25). -/
  videoActive : Bool
  /-- PHASE (10 R26). -/
  phase : Bool
  /-- TICK_OWNED (10 R27). -/
  tickOwned : Bool
  /-- CMD_FAULT (10 R28). -/
  cmdFault : Bool
  /-- CAUSE (10 R28). -/
  cause : BitVec 2
  /-- SRC_SEL: true selects RAMF, false the ROM table (10 R29). -/
  srcSel : Bool
  /-- FONT_BASE (10 R29). -/
  fontBase : Word
  /-- LATCOMP (10 R30). -/
  latcomp : BitVec 16
  /-- HCNT (10 R31). -/
  hcnt : Nat
  /-- VCNT (10 R32). -/
  vcnt : Nat
  /-- FRAME (10 R33). -/
  frameCount : Word
  /-- SCAN (10 R34). -/
  scan : Byte
  /-- FIRSTFREE (10 R35). -/
  firstFree : Byte
  /-- NEXTFREE (10 R36). -/
  nextFree : Byte
  /-- TP, the tile plane (10 R38). -/
  memTP : Memory
  /-- CP, the colour plane (10 R39). -/
  memCP : Memory
  /-- RAMF, the RAM font (10 R40). -/
  memRAMF : Memory
  /-- LINEBUF (10 R43). -/
  linebuf : List Rgb
  /-- LINE_ACTIVE (10 R43). -/
  lineActive : Bool
  /-- SRC_SEL as it was at the line's service (70 R327; log 9). -/
  lineSrc : Bool
  /-- LATCOMP as it was at the line's service (70 R323(b), R327; log 9). -/
  lineLatcomp : BitVec 16
  /-- CUR (10 R44). -/
  cur : Option InFlight
  /-- OUT (10 R45). -/
  out : List LineEvent
  /-- `cfg`, a parameter no step writes (00 R8; log 2). -/
  cfg : Cfg
  /-- `rom`, a parameter no step writes (00 R10, 10 R41; log 3). -/
  memROM : Memory
  /-- `prog`, a parameter no step writes (00 R10, 10 R42; log 1). -/
  prog : List Word
  /-- The model's own: the coming choices between TMR and CMD (60 R274; log 5). -/
  sched : List Turn
  /-- The model's own: the number of blocks of free choices begun after `sched` ran out (60 R274; log 5). -/
  turnCount : Nat
deriving DecidableEq, Repr

/-- The states in which no agent has an enabled step (60 R271 to R273). The model's step stops there; none invents a step. -/
inductive Fault
  /-- Raised by `step` when the foreground has finished and RUN = 0 (60 R276). Safe: nothing more happens on the chip. -/
  | finished
  /-- Raised by `step` when CMD_FAULT = 1 and RUN = 0 (60 R282). Safe: the sequencer has halted and the timers are held. -/
  | haltedByCmdFault
  /-- Raised by `step` when WAITF waits with RUN = 0, and by the meaning of WAITF where its step 2 is not enabled
  (60 R286). Safe: the chip hangs in the same way. -/
  | waitStuck
deriving DecidableEq, Repr

/-- The commands the model gives no meaning to. -/
inductive Refusal
  /-- Raised by an arm of `exec` whose command has no meaning yet. Safe. -/
  | notModelled (mnemonic : String)
  /-- Raised by the meaning of START with RUN = 1 (60 R288, 93 U1). Safe: the spec gives no meaning there. -/
  | startWhileRunning
deriving DecidableEq, Repr

/-- 224 zero samples: LINEBUF after reset and on a blank line (10 R43, 41 R168). -/
def zeroLine : List Rgb := List.replicate Config.pixW 0

/-- The state after `rst` (10 R37, R49; 70 R310, R311) for a configuration, a read-only memory, a program, a schedule and any
contents of the three memories, which `rst` leaves unspecified. -/
def State.resetWith (cfg : Cfg) (rom : Memory) (prog : List Word) (sched : List Turn) (tp cpl ramf : Memory) : State :=
  { cp := 0, result := 0, run := false, irqPend := false, videoActive := false, phase := false, tickOwned := false,
    cmdFault := false, cause := 0, srcSel := false, fontBase := 0, latcomp := 0, hcnt := 0, vcnt := 0, frameCount := 0,
    scan := 0, firstFree := 1, nextFree := 1, memTP := tp, memCP := cpl, memRAMF := ramf, linebuf := zeroLine,
    lineActive := false, lineSrc := false, lineLatcomp := 0, cur := none, out := [], cfg := cfg, memROM := rom, prog := prog,
    sched := sched, turnCount := 0 }

/-- The machine right after reset: the chip's configuration, its read-only memory and what the three memories happen to hold are
free values, and no program is presented (log 1 to 4, 10). -/
def State.reset : State := State.resetWith Config.cfg romImage [] [] tpImage cpImage ramfImage

end Sys2Proof.Machine
end

