-- ==== Sys2Proof/Machine/Operands.lean ====
section
/-! DEFINITION. How operands become indices, masks and colours: cells, pixels, slots, ROM addresses, sprite rows (20 R61 to
R68, 44 R234, R237, R242). Sums and products are natural numbers, reduced only by the final mod (30 R94, 70 R324). -/

namespace Sys2Proof.Machine

/-- `cell(cx, cy)`, the index in TP and CP (20 R61). -/
def cell (cx cy : Nat) : Nat := cy % Config.gridH * Config.gridW + cx % Config.gridW

/-- Row `r` of slot `t` in RAMF (20 R63). -/
def slotRow (t : Byte) (r : Nat) : Nat := t.toNat * 8 + r

/-- `xw = x mod 224` (20 R62). -/
def wrapX (x : Nat) : Nat := x % Config.pixW
/-- `yw = y mod 240` (20 R62). -/
def wrapY (y : Nat) : Nat := y % Config.pixH

/-- The cell of pixel (x, y): (xw >> 3, yw >> 3) (20 R62). -/
def pixelCell (x y : Nat) : Nat := cell (wrapX x / 8) (wrapY y / 8)

/-- The RAMF index of the row of pixel (x, y) in slot `t`: t * 8 + (yw & 7) (44 R230). -/
def pixelRow (t : Byte) (y : Nat) : Nat := slotRow t (wrapY y % 8)

/-- The mask of pixel x in its row byte: 0x80 >> (xw & 7) (20 R62). -/
def pixelMask (x : Nat) : Byte := 0x80#8 >>> (wrapX x % 8)

/-- Pixel `p` of a row byte, 0 leftmost: bit 7 - p (20 R66). -/
def rowBit (b : Byte) (p : Nat) : Bool := b.getLsbD (7 - p)

/-- The foreground nibble of a colour byte (20 R68). -/
def foreground (a : Byte) : BitVec 4 := a.extractLsb' 4 4
/-- The background nibble of a colour byte (20 R68). -/
def background (a : Byte) : BitVec 4 := a.extractLsb' 0 4
/-- The RGB sample of a colour nibble: its low three bits (20 R68). -/
def rgbOf (n : BitVec 4) : Rgb := n.extractLsb' 0 3

/-- The sample of pixel `p` of a cell with bitmap row `b` and colour byte `a` (41 R165). -/
def sampleOf (a b : Byte) (p : Nat) : Rgb := rgbOf (if rowBit b p then foreground a else background a)

/-- `ROM[a]` = rom(a mod 2^32) (20 R64). -/
def romRead (rom : Memory) (a : Nat) : Byte := rom.read (a % Config.romSize)

/-- The row stride of a sprite of width `w` in bytes (20 R67). -/
def stride (w : Nat) : Nat := (w + 7) / 8

/-- `fb`, the address of frame `frame` (20 R67, 44 R234). -/
def frameBase (base : Word) (frame : Byte) (w h : Nat) : Nat :=
  (base.toNat + frame.toNat * h * stride w) % Config.romSize

/-- `SpriteBit(i, j)` of a sprite of width `w` whose frame starts at `fb` (44 R234). -/
def spriteBit (rom : Memory) (fb w i j : Nat) : Bool := rowBit (romRead rom (fb + j * stride w + i / 8)) (i % 8)

/-- The number of cells along an axis that a sprite of size `n` at offset `off` inside its first cell overlaps: ((off + n - 1) >> 3) + 1
(44 R237, R242). -/
def cellsOver (off n : Nat) : Nat := (off + n - 1) / 8 + 1

/-- The `w` leftmost of 16 bits, DRAWBMP8's wm (44 R242). -/
def widthMask (w : Nat) : BitVec 16 := 0xFFFF#16 <<< (16 - w)

/-- DRAWBMP8's S[j], the pre-shifted sprite row of 24 bits (44 R242). -/
def shiftedRow (rom : Memory) (fb w sx j : Nat) : BitVec 24 :=
  let hi := romRead rom (fb + j * stride w)
  let lo := if stride w = 2 then romRead rom (fb + j * stride w + 1) else 0
  (((hi ++ lo : BitVec 16) &&& widthMask w).setWidth 24 <<< 8) >>> sx

/-- DRAWBMP8's Mk(k, j), the mask byte of cell column k (0 to 2) for a shifted row (44 R242). -/
def columnMask (row : BitVec 24) (k : Nat) : Byte := row.extractLsb' (16 - 8 * k) 8

/-- The operands of DRAWBMP and DRAWBMP8 as natural numbers, with the frame's address `fb` (44 R234). -/
structure Sprite where
  /-- The left pixel column. -/
  x : Nat
  /-- The top pixel line. -/
  y : Nat
  /-- Width in pixels. -/
  w : Nat
  /-- Height in pixels. -/
  h : Nat
  /-- The address of the frame. -/
  fb : Nat
  /-- 1 draws, 0 erases. -/
  on : Bool
  /-- Paint the bounding box afterwards. -/
  paint : Bool
  /-- The colour byte of the paint. -/
  color : Byte
deriving DecidableEq, Repr

/-- The sprite that the operands of a format B command name (44 R234). -/
def spriteOf (x y w h : BitVec 16) (base : Word) (frame : Byte) (on paint : Bool) (color : Byte) : Sprite :=
  { x := x.toNat, y := y.toNat, w := w.toNat, h := h.toNat, fb := frameBase base frame w.toNat h.toNat, on := on,
    paint := paint, color := color }

/-- sx, the offset of the sprite's left edge inside its first cell (44 R237, R242). -/
def Sprite.sx (d : Sprite) : Nat := wrapX d.x % 8
/-- sy, the offset of the sprite's top edge inside its first cell (44 R237, R242). -/
def Sprite.sy (d : Sprite) : Nat := wrapY d.y % 8
/-- cx0, the sprite's first cell column (44 R237, R242). -/
def Sprite.cx0 (d : Sprite) : Nat := wrapX d.x / 8
/-- cy0, the sprite's first cell row (44 R237, R242). -/
def Sprite.cy0 (d : Sprite) : Nat := wrapY d.y / 8
/-- nc, the cell columns the bounding box overlaps (44 R237, R242). -/
def Sprite.nc (d : Sprite) : Nat := cellsOver d.sx d.w
/-- nr, the cell rows the bounding box overlaps (44 R237). -/
def Sprite.nr (d : Sprite) : Nat := cellsOver d.sy d.h
/-- rw(j), the cell row that sprite row j lands in (44 R242). -/
def Sprite.cellRow (d : Sprite) (j : Nat) : Nat := (d.sy + j) / 8
/-- The sprite's pixel number q = j * w + i is a 1 bit (44 R236). -/
def Sprite.bitAt (d : Sprite) (rom : Memory) (q : Nat) : Bool := spriteBit rom d.fb d.w (q % d.w) (q / d.w)
/-- Mk(k, j), the mask byte of cell column k and sprite row j (44 R242). -/
def Sprite.mask (d : Sprite) (rom : Memory) (k j : Nat) : Byte := columnMask (shiftedRow rom d.fb d.w d.sx j) k

/-- The tile acquired for a cell column k and a cell row r, the pseudocode's T[k, r] (44 R242). -/
def tileAt (tiles : Tiles) (key : Nat × Nat) : Option Byte := tiles.lookup key

/-- The least number from `k` on, among the next `n`, at which `f` holds. The loops of the blit commands use it to find
the access of a step; the ROM reads it makes belong to that step (60 R275). -/
def findFrom (f : Nat → Bool) : Nat → Nat → Option Nat
  | 0, _ => none
  | n + 1, k => if f k then some k else findFrom f n (k + 1)

end Sys2Proof.Machine
end

