-- ==== Sys2Proof/Machine/Ops.lean ====
section
/-! DEFINITION. The operations the commands share: byte accesses, retiring, staying in flight, the allocator, the
read-modify-write of a bitmap byte, SetPixel, the loops of accesses, and taking the command fault (20 R72, 30 R92, 42 R190,
44 R230, 60 R275, R282). -/

namespace Sys2Proof.Machine

/-- `TP[a] <- v` (00 R12). -/
def writeTP (a : Nat) (v : Byte) (s : State) : State := { s with memTP := s.memTP.write a v }
/-- `CP[a] <- v` (00 R12). -/
def writeCP (a : Nat) (v : Byte) (s : State) : State := { s with memCP := s.memCP.write a v }
/-- `RAMF[a] <- v` (00 R12). -/
def writeRAMF (a : Nat) (v : Byte) (s : State) : State := { s with memRAMF := s.memRAMF.write a v }

/-- `RESULT <- v` (10 R22). -/
def setResult (v : Word) (s : State) : State := { s with result := v }

/-- Retire the command `i`: cp advances by its length and no command is in flight (00 R12, 30 R92). -/
def retire (i : Instr) (s : State) : State := { s with cp := s.cp + i.len, cur := none }

/-- Keep the command `i` in flight at the position `p` (10 R44). -/
def hold (i : Instr) (p : Pos) (s : State) : State := { s with cur := some { instr := i, pos := p } }

/-- Go on at the next position, or retire where no access remains (60 R275). -/
def goOn (i : Instr) (next : Option Pos) (s : State) : State :=
  match next with
  | some p => hold i p s
  | none => retire i s

/-- Take the command fault (60 R282): CMD_FAULT is set, CAUSE takes the cause code of the first fault, nothing else changes
and cp stays at the faulted command. There is no handler and no return but `rst`. -/
def raiseCmdFault (cause : BitVec 2) (s : State) : State :=
  { s with cmdFault := true, cause := if s.cmdFault then s.cause else cause }

/-- Access 2 of Acquire on the cell with index `c`: the slot NEXTFREE goes into the cell (42 R190). -/
def acquireWrite (c : Nat) (s : State) : State := writeTP c s.nextFree s

/-- NEXTFREE moves on, from 255 to FIRSTFREE: the register write after access 2 of Acquire, which belongs to the step of the
access that follows (42 R190, 60 R275). -/
def takeSlot (s : State) : State := { s with nextFree := if s.nextFree = 255 then s.firstFree else s.nextFree + 1 }

/-- NEXTFREE moves on where the access before was access 2 of Acquire (60 R275). -/
def settle (fresh : Bool) (s : State) : State := if fresh then takeSlot s else s

/-- A bitmap byte with the bits of the mask set or cleared (44 R230, 70 R324(h)). -/
def maskByte (on : Bool) (b m : Byte) : Byte := if on then b ||| m else b &&& ~~~m

/-- One access of SetPixel(x, y, set) from the position `p`: the state after it, and the next position, none when the call is
over (44 R230). -/
def setPixelStep (x y : Nat) (on : Bool) (p : PixPos) (s : State) : State × Option PixPos :=
  match p with
  | .acquire =>
    if s.memTP.read (pixelCell x y) = 0 then (s, some .tpWrite)
    else (s, some (.rmwRead (s.memTP.read (pixelCell x y)) false))
  | .tpWrite => (acquireWrite (pixelCell x y) s, some (.rmwRead s.nextFree true))
  | .rmwRead t fresh => (settle fresh s, some (.rmwWrite t (s.memRAMF.read (pixelRow t y))))
  | .rmwWrite t b => (writeRAMF (pixelRow t y) (maskByte on b (pixelMask x)) s, none)

/-- The number of accesses the command in flight has made, for the commands of a fixed number of accesses; 0 at the start
(60 R275; log 12). -/
def indexPos (s : State) : Nat :=
  match s.cur with
  | some { pos := .index k, .. } => k
  | _ => 0

/-- One step of a command of `total` accesses: access number k, and after the last one `finish` and the retirement (60 R275). -/
def accessLoop (i : Instr) (total : Nat) (access : Nat → State → State) (finish : State → State) (s : State) : State :=
  let k := indexPos s
  if k < total then
    if k + 1 < total then hold i (.index (k + 1)) (access k s) else retire i (finish (access k s))
  else retire i (finish s)

/-- The number of bytes of the dynamic range of RAMF: those of slots FIRSTFREE to 255 (42 R194). -/
def poolBytes (s : State) : Nat := Config.ramfSize - s.firstFree.toNat * 8

/-- Access k of the pool reset: `RAMF[FIRSTFREE * 8 + k] <- 0` (42 R194). -/
def clearPool (k : Nat) (s : State) : State := writeRAMF (s.firstFree.toNat * 8 + k) 0 s

/-- `NEXTFREE <- FIRSTFREE` (42 R194). -/
def rewindPool (s : State) : State := { s with nextFree := s.firstFree }

/-- Access k of a fill of CP cells, `w` columns wide from the cell (cx, cy), row by row (43 R218, 44 R237). -/
def fillRect (cx cy w : Nat) (color : Byte) (k : Nat) (s : State) : State :=
  writeCP (cell (cx + k % w) (cy + k / w)) color s

/-- The coming choices between TMR and CMD: the schedule, and past its end the next block of free choices, which ends in one turn
for each of them (60 R274; log 5). -/
def comingTurns (s : State) : List Turn :=
  match s.sched with
  | [] => Config.freeTurns s.turnCount ++ [.tmr, .cmd]
  | _ :: _ => s.sched

/-- The choice between TMR and CMD where both have an enabled step (60 R274; log 5). -/
def nextTurn (s : State) : Turn := (comingTurns s).headD .tmr

/-- The state once that choice has been taken. -/
def popTurn (s : State) : State :=
  { s with sched := (comingTurns s).tail, turnCount := if s.sched.isEmpty then s.turnCount + 1 else s.turnCount }

end Sys2Proof.Machine
end

