-- ==== Sys2Proof/Machine/Allocator.lean ====
section
/-! DEFINITION. The allocator commands (42_tile_allocator.md): ACQUIRE, RESETPOOL, SETFIRSTFREE. -/

namespace Sys2Proof.Machine

/-- ACQUIRE (42 R190, R192): the read of the cell, and where it holds 0 the write of the new slot. -/
def execAcquire (cx cy : Byte) (s : State) : Host.Outcome State Fault Refusal :=
  let c := cell cx.toNat cy.toNat
  match s.cur with
  | some { pos := .acqWrite, .. } =>
    .next (retire (.acquire cx cy) (setResult (s.nextFree.setWidth 32) (takeSlot (acquireWrite c s))))
  | _ =>
    .next
      (if s.memTP.read c = 0 then hold (.acquire cx cy) .acqWrite s
       else retire (.acquire cx cy) (setResult ((s.memTP.read c).setWidth 32) s))

/-- RESETPOOL (42 R194). -/
def execResetpool (s : State) : Host.Outcome State Fault Refusal :=
  .next (accessLoop .resetpool (poolBytes s) clearPool rewindPool s)

/-- SETFIRSTFREE (42 R196): n = 0 is a silent no-op. -/
def execSetfirstfree (n : Byte) (s : State) : Host.Outcome State Fault Refusal :=
  .next (retire (.setfirstfree n) (if n = 0 then s else { s with firstFree := n, nextFree := n }))

end Sys2Proof.Machine
end

