-- ==== Sys2Proof/Machine/Framebuffer.lean ====
section
/-! DEFINITION. The framebuffer access commands (43_framebuffer_access.md): SETTILE, GETTILE, SETCOLOR, GETCOLOR, FILLCOLOR,
FILLSCR. -/

namespace Sys2Proof.Machine

/-- SETTILE (43 R210). -/
def execSettile (cx cy val : Byte) (s : State) : Host.Outcome State Fault Refusal :=
  .next (retire (.settile cx cy val) (writeTP (cell cx.toNat cy.toNat) val s))

/-- GETTILE (43 R212). -/
def execGettile (cx cy : Byte) (s : State) : Host.Outcome State Fault Refusal :=
  .next (retire (.gettile cx cy) (setResult ((s.memTP.read (cell cx.toNat cy.toNat)).setWidth 32) s))

/-- SETCOLOR (43 R214). -/
def execSetcolor (cx cy val : Byte) (s : State) : Host.Outcome State Fault Refusal :=
  .next (retire (.setcolor cx cy val) (writeCP (cell cx.toNat cy.toNat) val s))

/-- GETCOLOR (43 R216). -/
def execGetcolor (cx cy : Byte) (s : State) : Host.Outcome State Fault Refusal :=
  .next (retire (.getcolor cx cy) (setResult ((s.memCP.read (cell cx.toNat cy.toNat)).setWidth 32) s))

/-- FILLCOLOR (43 R218): w * h accesses, rows top to bottom, left to right. -/
def execFillcolor (cx cy w h color : Byte) (s : State) : Host.Outcome State Fault Refusal :=
  .next (accessLoop (.fillcolor cx cy w h color) (w.toNat * h.toNat) (fillRect cx.toNat cy.toNat w.toNat color) id s)

/-- Access k of FILLSCR: the 840 bytes of TP, then the 840 bytes of CP (43 R220). -/
def fillScreen (tile color : Byte) (k : Nat) (s : State) : State :=
  if k < Config.cells then writeTP k tile s else writeCP (k - Config.cells) color s

/-- FILLSCR (43 R220). -/
def execFillscr (tile color : Byte) (s : State) : Host.Outcome State Fault Refusal :=
  .next (accessLoop (.fillscr tile color) (2 * Config.cells) (fillScreen tile color) id s)

end Sys2Proof.Machine
end

