-- ==== Sys2Proof/Machine/Blit.lean ====
section
/-! DEFINITION. The pixel and bitmap commands (44_blit.md): SETPIXEL, DRAWBMP, DRAWBMP8, CLEARGRAPH, COPYFONT. -/

namespace Sys2Proof.Machine

/-- Where the SetPixel call of SETPIXEL stands: the position in CUR, or its first access (44 R230). -/
def pixelPos (s : State) : PixPos :=
  match s.cur with
  | some { pos := .pixel _ p, .. } => p
  | _ => .acquire

/-- SETPIXEL (44 R230, R231): one call of SetPixel. -/
def execSetpixel (x y : BitVec 16) (on : Bool) (s : State) : Host.Outcome State Fault Refusal :=
  let r := setPixelStep x.toNat y.toNat on (pixelPos s) s
  .next (goOn (.setpixel x y on) (r.2.map (.pixel 0)) r.1)

/-- Paint from cell number k on, where the command paints at all: the access of the next cell, or the retirement (44 R236, R237,
R242). -/
def paintFrom (i : Instr) (d : Sprite) (k : Nat) (s : State) : State :=
  if d.paint ∧ k < d.nc * d.nr then hold i (.paint (k + 1)) (fillRect d.cx0 d.cy0 d.nc d.color k s) else retire i s

/-- One access of the SetPixel call of DRAWBMP for pixel number q (44 R236). -/
def drawPixelStep (i : Instr) (d : Sprite) (q : Nat) (p : PixPos) (s : State) : State :=
  let r := setPixelStep (d.x + q % d.w) (d.y + q / d.w) d.on p s
  hold i (r.2.elim (.scan (q + 1)) (.pixel q)) r.1

/-- DRAWBMP from pixel number q on: the first access of the SetPixel call of the next 1 bit, or what follows the pixels
(44 R236). -/
def drawFrom (i : Instr) (d : Sprite) (q : Nat) (s : State) : State :=
  match findFrom (d.bitAt s.memROM) (d.w * d.h - q) q with
  | some q' => drawPixelStep i d q' .acquire s
  | none => paintFrom i d 0 s

/-- One step of DRAWBMP on a sprite of valid geometry, from the position in CUR or from its start (44 R236, R238). Its last step
is the retirement alone, so that no step reads ROM for an access after its own (60 R275). -/
def drawStep (i : Instr) (d : Sprite) (s : State) : State :=
  match s.cur with
  | some { pos := .pixel q p, .. } => drawPixelStep i d q p s
  | some { pos := .scan q, .. } => drawFrom i d q s
  | some { pos := .paint k, .. } => paintFrom i d k s
  | _ => drawFrom i d 0 s

/-- Zero width, zero height or null base: the blit commands do nothing (44 R238(a), R258). -/
def nullSprite (w h : BitVec 16) (base : Word) : Bool := decide (w = 0) || decide (h = 0) || decide (base = 0)

/-- DRAWBMP (44 R236). -/
def execDrawbmp (x y w h : BitVec 16) (base : Word) (frame : Byte) (on paint : Bool) (color : Byte) (s : State) :
    Host.Outcome State Fault Refusal :=
  .next
    (if nullSprite w h base then retire (.drawbmp x y w h base frame on paint color) s
     else drawStep (.drawbmp x y w h base frame on paint color) (spriteOf x y w h base frame on paint color) s)

/-- The column and row of number q = j * nc + k of phase A, the key of T (44 R242). -/
def Sprite.cellKey (d : Sprite) (q : Nat) : Nat × Nat := (q % d.nc, d.cellRow (q / d.nc))

/-- The cell of a column and row of T (44 R242). -/
def Sprite.cellAt (d : Sprite) (key : Nat × Nat) : Nat := cell (d.cx0 + key.1) (d.cy0 + key.2)

/-- Number q = j * nc + k of phase A calls Acquire: its mask byte has a 1 bit and its cell has no tile yet (44 R242). -/
def Sprite.needsTile (d : Sprite) (rom : Memory) (tiles : Tiles) (q : Nat) : Bool :=
  d.mask rom (q % d.nc) (q / d.nc) != 0 && (tileAt tiles (d.cellKey q)).isNone

/-- Number q = (r * nc + k) * 8 + j of phase B has a row to write: T[k, r] is set and sprite row j lands in cell row r
(44 R242). -/
def Sprite.hasRow (d : Sprite) (tiles : Tiles) (q : Nat) : Bool :=
  (tileAt tiles (q / 8 % d.nc, q / 8 / d.nc)).isSome && d.cellRow (q % 8) == q / 8 / d.nc

/-- The bitmap byte of number q of phase B (44 R242). -/
def Sprite.rowAddr (d : Sprite) (tiles : Tiles) (q : Nat) : Nat :=
  slotRow ((tileAt tiles (q / 8 % d.nc, q / 8 / d.nc)).getD 0) ((d.sy + q % 8) % 8)

/-- DRAWBMP8 from number q of phase B on: the read of the next row, or what follows the pixels (44 R242). -/
def rowsFrom (i : Instr) (d : Sprite) (q : Nat) (tiles : Tiles) (s : State) : State :=
  match findFrom (d.hasRow tiles) (2 * d.nc * 8 - q) q with
  | some q' => hold i (.rowWrite q' (s.memRAMF.read (d.rowAddr tiles q')) tiles) s
  | none => paintFrom i d 0 s

/-- DRAWBMP8, phase B, the write of number q: the byte read, with the bits of its mask byte set or cleared (44 R242). -/
def rowWriteStep (i : Instr) (d : Sprite) (q : Nat) (b : Byte) (tiles : Tiles) (s : State) : State :=
  hold i (.rows (q + 1) tiles)
    (writeRAMF (d.rowAddr tiles q) (maskByte d.on b (d.mask s.memROM (q / 8 % d.nc) (q % 8))) s)

/-- DRAWBMP8 from number q of phase A on: access 1 of the next call of Acquire, or phase B (44 R242). -/
def cellsFrom (i : Instr) (d : Sprite) (q : Nat) (tiles : Tiles) (s : State) : State :=
  match findFrom (d.needsTile s.memROM tiles) (8 * d.nc - q) q with
  | some q' =>
    if s.memTP.read (d.cellAt (d.cellKey q')) = 0 then hold i (.cellWrite q' tiles) s
    else hold i (.cells (q' + 1) false (tiles ++ [(d.cellKey q', s.memTP.read (d.cellAt (d.cellKey q')))])) s
  | none => rowsFrom i d 0 tiles s

/-- DRAWBMP8, phase A, access 2 of Acquire for number q (44 R242). -/
def cellWriteStep (i : Instr) (d : Sprite) (q : Nat) (tiles : Tiles) (s : State) : State :=
  hold i (.cells (q + 1) true (tiles ++ [(d.cellKey q, s.nextFree)])) (acquireWrite (d.cellAt (d.cellKey q)) s)

/-- One step of DRAWBMP8 on a sprite inside its restriction, from the position in CUR or from its start (44 R242). Its last step
is the retirement alone (60 R275). -/
def draw8Step (i : Instr) (d : Sprite) (s : State) : State :=
  match s.cur with
  | some { pos := .cells q fresh tiles, .. } => cellsFrom i d q tiles (settle fresh s)
  | some { pos := .cellWrite q tiles, .. } => cellWriteStep i d q tiles s
  | some { pos := .rows q tiles, .. } => rowsFrom i d q tiles s
  | some { pos := .rowWrite q b tiles, .. } => rowWriteStep i d q b tiles s
  | some { pos := .paint k, .. } => paintFrom i d k s
  | _ => cellsFrom i d 0 [] s

/-- DRAWBMP8 (44 R240, R242): outside its restriction, height 8 and width at most 16, it does nothing. -/
def execDrawbmp8 (x y w h : BitVec 16) (base : Word) (frame : Byte) (on paint : Bool) (color : Byte) (s : State) :
    Host.Outcome State Fault Refusal :=
  .next
    (if nullSprite w h base || decide (h ≠ 8) || decide (16 < w.toNat) then
       retire (.drawbmp8 x y w h base frame on paint color) s
     else draw8Step (.drawbmp8 x y w h base frame on paint color) (spriteOf x y w h base frame on paint color) s)

/-- Access k of CLEARGRAPH: the pool, then TP with 0, then CP with the colour; NEXTFREE <- FIRSTFREE goes with the first
access after the pool (44 R250, 60 R275). -/
def clearScreen (color : Byte) (k : Nat) (s : State) : State :=
  if k < poolBytes s then clearPool k s
  else if k = poolBytes s then fillScreen 0 color 0 (rewindPool s)
  else fillScreen 0 color (k - poolBytes s) s

/-- CLEARGRAPH (44 R250). -/
def execCleargraph (color : Byte) (s : State) : Host.Outcome State Fault Refusal :=
  .next (accessLoop (.cleargraph color) (poolBytes s + 2 * Config.cells) (clearScreen color) id s)

/-- Access k of COPYFONT: `RAMF[ri * 8 + k] <- ROM[src + fi * 8 + k]` (44 R256). -/
def copyGlyph (fi : Byte) (src : Word) (ri : Byte) (k : Nat) (s : State) : State :=
  writeRAMF (slotRow ri k) (romRead s.memROM (src.toNat + fi.toNat * 8 + k)) s

/-- COPYFONT (44 R256): a null source is a silent no-op. -/
def execCopyfont (fi : Byte) (src : Word) (ri : Byte) (s : State) : Host.Outcome State Fault Refusal :=
  .next
    (if src = 0 then retire (.copyfont fi src ri) s
     else accessLoop (.copyfont fi src ri) 8 (copyGlyph fi src ri) id s)

end Sys2Proof.Machine
end

