-- ==== Sys2Proof/Machine/Lifecycle.lean ====
section
/-! DEFINITION. The five lifecycle commands (40_sync_timing.md part 2): START, STOP, SETSRC, WAITF, GETFRAME. None of them
touches a memory; each is one step but WAITF, which is two. -/

namespace Sys2Proof.Machine

/-- The selection of the bitmap source, shared by START and SETSRC: SRC_SEL, FONT_BASE and LATCOMP (40 R130, R138). -/
def selectSource (alt : Bool) (base : Word) (s : State) : State :=
  { s with
    srcSel := alt
    fontBase := if alt then s.fontBase else base
    latcomp := if alt then s.cfg.latcompRam else s.cfg.latcompRom }

/-- The bitmap source is unset: alt = 0 with a null base (40 R131(a), R138). -/
def nullSource (alt : Bool) (base : Word) : Bool := !alt && decide (base = 0)

/-- The timers in their held-reset state with the line blanked, the part START and STOP share (40 R122, R130, R134). -/
def holdTimers (s : State) : State :=
  { s with hcnt := 0, vcnt := 0, irqPend := false, videoActive := false, linebuf := zeroLine, lineActive := false }

/-- START (40 R130, R131). With RUN = 1 the spec gives no meaning and the model refuses (60 R288; log 8). -/
def execStart (alt : Bool) (base : Word) (s : State) : Host.Outcome State Fault Refusal :=
  if s.run then .refused .startWhileRunning
  else if nullSource alt base then .next (retire (.start alt base) s)
  else
    .next (retire (.start alt base)
      { holdTimers (selectSource alt base s) with scan := 0, phase := false, tickOwned := true, run := true })

/-- STOP (40 R134). -/
def execStop (s : State) : Host.Outcome State Fault Refusal :=
  .next (retire .stop { holdTimers s with run := false })

/-- SETSRC (40 R138). -/
def execSetsrc (alt : Bool) (base : Word) (s : State) : Host.Outcome State Fault Refusal :=
  .next (retire (.setsrc alt base) (if nullSource alt base then s else selectSource alt base s))

/-- Step 2 of WAITF n is enabled: (FRAME - WAIT_START) mod 2^32 >= n (40 R142). -/
def waitOver (n : BitVec 16) (waitStart frame : Word) : Bool := decide (n.toNat ≤ (frame - waitStart).toNat)

/-- WAITF (40 R142): step 1 latches FRAME, step 2 retires where it is enabled. Where it is not, there is no step (60 R286). -/
def execWaitf (n : BitVec 16) (s : State) : Host.Outcome State Fault Refusal :=
  match s.cur with
  | some { pos := .waiting waitStart, .. } =>
    if waitOver n waitStart s.frameCount then .next (retire (.waitf n) s) else .fault .waitStuck
  | _ => .next (hold (.waitf n) (.waiting s.frameCount) s)

/-- GETFRAME (40 R146). -/
def execGetframe (s : State) : Host.Outcome State Fault Refusal :=
  .next (retire .getframe (setResult s.frameCount s))

end Sys2Proof.Machine
end

