-- ==== Sys2Proof/Machine/Dispatch.lean ====
section
/-! DEFINITION. One step of the command sequencer on a command (60 R275): one arm per command. With no command in flight the
step starts the command; with the command in flight it goes on from the position in CUR. -/

namespace Sys2Proof.Machine

def exec (i : Instr) (s : State) : Host.Outcome State Fault Refusal :=
  match i with
  | .start alt base => Sys2Proof.Machine.execStart alt base s
  | .stop => Sys2Proof.Machine.execStop s
  | .setsrc alt base => Sys2Proof.Machine.execSetsrc alt base s
  | .waitf n => Sys2Proof.Machine.execWaitf n s
  | .getframe => Sys2Proof.Machine.execGetframe s
  | .acquire cx cy => Sys2Proof.Machine.execAcquire cx cy s
  | .resetpool => Sys2Proof.Machine.execResetpool s
  | .setfirstfree n => Sys2Proof.Machine.execSetfirstfree n s
  | .settile cx cy val => Sys2Proof.Machine.execSettile cx cy val s
  | .gettile cx cy => Sys2Proof.Machine.execGettile cx cy s
  | .setcolor cx cy val => Sys2Proof.Machine.execSetcolor cx cy val s
  | .getcolor cx cy => Sys2Proof.Machine.execGetcolor cx cy s
  | .fillcolor cx cy w h color => Sys2Proof.Machine.execFillcolor cx cy w h color s
  | .fillscr tile color => Sys2Proof.Machine.execFillscr tile color s
  | .setpixel x y on => Sys2Proof.Machine.execSetpixel x y on s
  | .drawbmp x y w h base frame on paint color => Sys2Proof.Machine.execDrawbmp x y w h base frame on paint color s
  | .drawbmp8 x y w h base frame on paint color => Sys2Proof.Machine.execDrawbmp8 x y w h base frame on paint color s
  | .cleargraph color => Sys2Proof.Machine.execCleargraph color s
  | .copyfont fi src ri => Sys2Proof.Machine.execCopyfont fi src ri s

end Sys2Proof.Machine
end

