-- ==== Sys2Proof/Machine/Flags.lean ====
section
/-! DEFINITION. The one-bit conditions computed from the counters and the configuration: the window test, the end of frame,
the sync windows and the pixel slots (40 R121, R126, R127; 41 R162; 70 R327). There is no flags register. -/

namespace Sys2Proof.Machine

/-- The window test: V_ACT_START <= v < V_ACT_END (40 R127, 41 R162). -/
def inWindow (c : Cfg) (v : Nat) : Bool := decide (c.vActStart ≤ v) && decide (v < c.vActEnd)

/-- The end-of-frame test v = V_EOF (40 R127, 41 R167). -/
def atEof (c : Cfg) (v : Nat) : Bool := decide (v = c.vEof)

/-- HSYNC is asserted: RUN = 1 and H_SYNC_START <= HCNT < H_SYNC_END (10 R47). -/
def State.hsyncAsserted (s : State) : Bool :=
  s.run && decide (s.cfg.hSyncStart ≤ s.hcnt) && decide (s.hcnt < s.cfg.hSyncEnd)

/-- VSYNC is asserted: RUN = 1 and V_SYNC_START <= VCNT < V_SYNC_END (10 R47). -/
def State.vsyncAsserted (s : State) : Bool :=
  s.run && decide (s.cfg.vSyncStart ≤ s.vcnt) && decide (s.vcnt < s.cfg.vSyncEnd)

/-- FETCH_LAT of the source the line was served from (70 R327). -/
def State.fetchLat (s : State) : Nat := if s.lineSrc then s.cfg.fetchLatRam.toNat else s.cfg.fetchLatRom.toNat

/-- P0 = H_IRQ_AT + FETCH_LAT + LATCOMP, the first tick of pixel slot 0, with the LATCOMP of the line's service: a new source takes
effect at the next line (70 R323(b), R327; log 9). -/
def State.firstPixelTick (s : State) : Nat := s.cfg.hIrqAt + s.fetchLat + s.lineLatcomp.toNat

/-- The pixel slot HCNT lies in, none outside the 224 slots: slot k is P0 + k * PIX_TICKS <= HCNT < P0 + (k + 1) * PIX_TICKS
(70 R327). -/
def State.pixelSlot (s : State) : Option Nat :=
  if s.firstPixelTick ≤ s.hcnt ∧ s.hcnt < s.firstPixelTick + Config.pixW * s.cfg.pixTicks then
    some ((s.hcnt - s.firstPixelTick) / s.cfg.pixTicks)
  else none

end Sys2Proof.Machine
end

