-- ==== Sys2Proof/Machine/Renderer.lean ====
section
/-! DEFINITION. The line service, the step of the agent REN and the body of the line interrupt (41_scanline_renderer.md).
Taking the interrupt saves nothing and changes nothing (60 R279); the return is the clearing of IRQ_PEND (60 R280). -/

namespace Sys2Proof.Machine

/-- The tile row shown: (SCAN >> 3) mod 30 (41 R161). -/
def tileRow (s : State) : Nat := s.scan.toNat / 8 % Config.gridH

/-- The row inside each tile: SCAN & 7 (41 R161). -/
def subRow (s : State) : Nat := s.scan.toNat % 8

/-- The bitmap row `sub` of tile `t` in the selected store (20 R63, R65; 41 R164). -/
def glyphRow (s : State) (t : Byte) (sub : Nat) : Byte :=
  if s.srcSel then s.memRAMF.read (slotRow t sub) else romRead s.memROM (s.fontBase.toNat + t.toNat * 8 + sub)

/-- The eight samples of tile column c (41 R164, R165). -/
def columnSamples (s : State) (c : Nat) : List Rgb :=
  let t := s.memTP.read (tileRow s * Config.gridW + c)
  let a := s.memCP.read (tileRow s * Config.gridW + c)
  (List.range 8).map (sampleOf a (glyphRow s t (subRow s)))

/-- The 224 samples of an active line, left to right (41 R165). -/
def lineSamples (s : State) : List Rgb := (List.range Config.gridW).flatMap (columnSamples s)

/-- The service of a line inside the window (41 R160, R163 to R166). -/
def activeLine (s : State) : State :=
  { s with
    linebuf := lineSamples s
    lineActive := true
    lineSrc := s.srcSel
    lineLatcomp := s.latcomp
    out := s.out ++ [{ frame := s.frameCount, v := s.vcnt, active := true, row := tileRow s, sub := subRow s,
                       latcomp := s.latcomp, samples := lineSamples s }]
    videoActive := true
    scan := if s.phase then s.scan + 1 else s.scan
    phase := !s.phase }

/-- The service of a line outside the window, with the end of frame in line V_EOF (41 R160, R163, R167, R168). -/
def blankLine (s : State) : State :=
  { s with
    linebuf := zeroLine
    lineActive := false
    lineSrc := s.srcSel
    lineLatcomp := s.latcomp
    out := s.out ++ [{ frame := s.frameCount, v := s.vcnt, active := false, row := 0, sub := 0, latcomp := s.latcomp,
                       samples := zeroLine }]
    videoActive := false
    frameCount := if atEof s.cfg s.vcnt then s.frameCount + 1 else s.frameCount
    scan := if atEof s.cfg s.vcnt then 0 else s.scan
    phase := if atEof s.cfg s.vcnt then false else s.phase }

/-- The line service (41 R160). -/
def lineService (s : State) : State :=
  { (if inWindow s.cfg s.vcnt then activeLine s else blankLine s) with irqPend := false }

end Sys2Proof.Machine
end

