-- ==== Sys2Proof/Machine/Timers.lean ====
section
/-! DEFINITION. The tick of the timers, the step of the agent TMR (40 R123 to R125). -/

namespace Sys2Proof.Machine

/-- A tick is enabled exactly when RUN = 1 and IRQ_PEND = 0 (40 R123, 60 R271). -/
def tickEnabled (s : State) : Bool := s.run && !s.irqPend

/-- The horizontal timer is in its last tick: the period comparator HCNT = H_TOTAL - 1 (40 R121). -/
def lineEnds (s : State) : Bool := decide (s.hcnt = s.cfg.hTotal - 1)

/-- HCNT after a tick (40 R124). -/
def nextHcnt (s : State) : Nat := if lineEnds s then 0 else s.hcnt + 1

/-- VCNT after a tick (40 R124). -/
def nextVcnt (s : State) : Nat :=
  if lineEnds s then (if s.vcnt = s.cfg.vTotal - 1 then 0 else s.vcnt + 1) else s.vcnt

/-- The tick (40 R124): the counters move, and IRQ_PEND is set when the new HCNT is H_IRQ_AT. -/
def tick (s : State) : State :=
  { s with hcnt := nextHcnt s, vcnt := nextVcnt s, irqPend := s.irqPend || decide (nextHcnt s = s.cfg.hIrqAt) }

end Sys2Proof.Machine
end

