-- ==== Sys2Proof/Machine/Fetch.lean ====
section
/-! DEFINITION. The fetch and the scheduling of the three agents, which Machine/Step.lean calls (30 R90; 60 R271 to R276). -/

namespace Sys2Proof.Machine

/-- Fetch and decode the command at cp (30 R90, R92). -/
def fetch (s : State) : Except DecodeError Instr := decode (s.prog.drop s.cp)

/-- The next step of the command in flight is enabled: every step is but step 2 of WAITF (40 R142, 60 R272). -/
def inFlightReady (c : InFlight) (s : State) : Bool :=
  match c.instr, c.pos with
  | .waitf n, .waiting waitStart => waitOver n waitStart s.frameCount
  | _, _ => true

/-- A step of CMD is enabled (60 R272). -/
def cmdEnabled (s : State) : Bool :=
  !s.irqPend && !s.cmdFault &&
    match s.cur with
    | some c => inFlightReady c s
    | none => decide (s.cp < s.prog.length)

/-- The step of CMD (60 R275): go on with the command in flight, or fetch the next one and start it; a word with no meaning
raises the command fault (60 R282). -/
def cmdStep (s : State) : Host.Outcome State Fault Refusal :=
  match s.cur with
  | some c => exec c.instr s
  | none =>
    match fetch s with
    | .ok i => exec i s
    | .error e => .next (raiseCmdFault e.cause s)

/-- Which state without any enabled step this is: halted by a command fault, waiting in WAITF, or finished (60 R276, R282,
R286; log 7). -/
def stuckReason (s : State) : Fault :=
  if s.cmdFault then .haltedByCmdFault
  else match s.cur with
    | some _ => .waitStuck
    | none => .finished

/-- The agent has an enabled step (60 R271 to R273). -/
def enabled (a : Agent) (s : State) : Bool :=
  match a with
  | .ren => s.irqPend
  | .tmr => tickEnabled s
  | .cmd => cmdEnabled s

/-- TMR and CMD could both move, so that the schedule chooses (60 R274). -/
def choiceOpen (s : State) : Bool := tickEnabled s && cmdEnabled s

/-- The agent that moves next, none where no agent can. While IRQ_PEND = 1 only the line service steps (60 R273); otherwise TMR
or CMD, by the schedule's choice where both could (60 R274). -/
def mover (s : State) : Option Agent :=
  if s.irqPend then some .ren
  else if choiceOpen s then
    match nextTurn s with
    | .tmr => some .tmr
    | .cmd => some .cmd
  else if tickEnabled s then some .tmr
  else if cmdEnabled s then some .cmd
  else none

/-- The state once the schedule's choice has been taken, where there was one. -/
def afterChoice (s : State) : State := if choiceOpen s then popTurn s else s

/-- The next step of the engine: that of the agent that moves. Where none can, no step is invented (60 R286). -/
def nextStep (s : State) : Host.Outcome State Fault Refusal :=
  match mover s with
  | some .ren => .next (lineService s)
  | some .tmr => .next (tick (afterChoice s))
  | some .cmd => cmdStep (afterChoice s)
  | none => .fault (stuckReason s)

/-- The program with the four words of a command's bits put at cp (log 11). -/
def progWithWords (s : State) (nbits w : Nat) : List Word :=
  s.prog.take s.cp ++ List.replicate (s.cp - s.prog.length) 0 ++ tableWords nbits w ++ s.prog.drop (s.cp + maxWords)

/-- The state made ready to fetch that command next: its words at cp, no interrupt pending, no fault, no command in flight,
and while the timers run the next choice CMD's (log 11). -/
def readyToFetch (s : State) (nbits w : Nat) : State :=
  { s with
    prog := progWithWords s nbits w
    irqPend := false
    cmdFault := false
    cur := none
    sched := if s.run then .cmd :: s.sched else s.sched }

end Sys2Proof.Machine
end

