-- ==== Sys2Proof/Machine/Step.lean ====
section
/-! DEFINITION. One step of the engine, and the state in which a given command runs next. Both call Machine/Fetch.lean. -/

namespace Sys2Proof.Machine

/-- One step of the engine: a line service, a tick or a step of the command sequencer (60 R270 to R275). -/
def step (s : State) : Host.Outcome State Fault Refusal := nextStep s

/-- `s` with a command of `nbits` bits `w` where the command sequencer fetches next, so that the very next step runs it (log 11). -/
def State.withFetchWord (s : State) (nbits w : Nat) : State := readyToFetch s nbits w

end Sys2Proof.Machine
end

