-- ==== Sys2Proof/Machine/Atomic.lean ====
section
/-! DEFINITION. The pseudocode of each command as one uninterrupted computation, loop for loop (40 to 44). The machine never
calls it: it is what the access-by-access meanings of the commands must come to when no other agent steps in between
(60 R275), and statements are made against it. -/

namespace Sys2Proof.Machine

/-- `for r in 0..rows-1: for k in 0..cols-1: body r k`. -/
def nest {σ : Type} (rows cols : Nat) (body : Nat → Nat → σ → σ) (s : σ) : σ :=
  (List.range rows).foldl (fun s r => (List.range cols).foldl (fun s k => body r k s) s) s

/-- `for k in 0..n-1: body k`. -/
def loop {σ : Type} (n : Nat) (body : Nat → σ → σ) (s : σ) : σ := (List.range n).foldl (fun s k => body k s) s

/-- `Acquire` on the cell with index `c` (42 R190). -/
def atomicAcquire (c : Nat) (s : State) : State × Byte :=
  if s.memTP.read c = 0 then (takeSlot (acquireWrite c s), s.nextFree) else (s, s.memTP.read c)

/-- `SetPixel(x, y, set)` (44 R230). -/
def atomicSetPixel (x y : Nat) (on : Bool) (s : State) : State :=
  let r := atomicAcquire (pixelCell x y) s
  writeRAMF (pixelRow r.2 y) (maskByte on (r.1.memRAMF.read (pixelRow r.2 y)) (pixelMask x)) r.1

/-- `Paint(x, y, w, h, color)` (44 R237). -/
def atomicPaint (d : Sprite) (s : State) : State :=
  nest d.nr d.nc (fun r k s => writeCP (cell (d.cx0 + k) (d.cy0 + r)) d.color s) s

/-- Paint where `paint` = 1 (44 R236, R242). -/
def atomicPaintIf (d : Sprite) (s : State) : State := if d.paint then atomicPaint d s else s

/-- DRAWBMP on a sprite of valid geometry, without the retirement (44 R236). -/
def atomicDraw (d : Sprite) (s : State) : State :=
  atomicPaintIf d
    (nest d.h d.w (fun j i s => if spriteBit s.memROM d.fb d.w i j then atomicSetPixel (d.x + i) (d.y + j) d.on s else s) s)

/-- Phase A of DRAWBMP8, with the tiles acquired so far (44 R242). -/
def atomicPhaseA (d : Sprite) (s : State) : State × Tiles :=
  nest 8 d.nc (fun j k (st : State × Tiles) =>
    if d.mask st.1.memROM k j ≠ 0 ∧ tileAt st.2 (k, d.cellRow j) = none then
      let r := atomicAcquire (cell (d.cx0 + k) (d.cy0 + d.cellRow j)) st.1
      (r.1, st.2 ++ [((k, d.cellRow j), r.2)])
    else st) (s, [])

/-- The pass of phase B over one acquired cell (44 R242). -/
def atomicCellPass (d : Sprite) (t : Byte) (k r : Nat) (s : State) : State :=
  loop 8 (fun j s =>
    if d.cellRow j = r then
      let a := slotRow t ((d.sy + j) % 8)
      writeRAMF a (maskByte d.on (s.memRAMF.read a) (d.mask s.memROM k j)) s
    else s) s

/-- Phase B of DRAWBMP8 (44 R242). -/
def atomicPhaseB (d : Sprite) (tiles : Tiles) (s : State) : State :=
  nest 2 d.nc (fun r k s =>
    match tileAt tiles (k, r) with
    | some t => atomicCellPass d t k r s
    | none => s) s

/-- DRAWBMP8 on a sprite inside its restriction, without the retirement (44 R242). -/
def atomicDraw8 (d : Sprite) (s : State) : State :=
  let a := atomicPhaseA d s
  atomicPaintIf d (atomicPhaseB d a.2 a.1)

/-- The pool reset (42 R194): the dynamic range of RAMF is zeroed, then NEXTFREE <- FIRSTFREE. -/
def atomicResetPool (s : State) : State := rewindPool (loop (poolBytes s) clearPool s)

/-- Both planes filled, TP first (43 R220, 44 R250). -/
def atomicFill (tile color : Byte) (s : State) : State :=
  loop Config.cells (fun i s => writeCP i color s) (loop Config.cells (fun i s => writeTP i tile s) s)

/-- The effect of a whole command by its pseudocode, the retirement included. For START it is the pseudocode under its
precondition RUN = 0; for WAITF it is only the retirement, which needs step 2 to be enabled. -/
def atomicCommand (i : Instr) (s : State) : State :=
  retire i
    (match i with
    | .start alt base =>
      if alt = false ∧ base = 0 then s
      else
        { s with
          srcSel := alt, fontBase := if alt then s.fontBase else base,
          latcomp := if alt then s.cfg.latcompRam else s.cfg.latcompRom, hcnt := 0, vcnt := 0, irqPend := false,
          videoActive := false, scan := 0, phase := false, linebuf := zeroLine, lineActive := false, tickOwned := true,
          run := true }
    | .stop =>
      { s with
        run := false, hcnt := 0, vcnt := 0, irqPend := false, videoActive := false, linebuf := zeroLine,
        lineActive := false }
    | .setsrc alt base =>
      if alt = false ∧ base = 0 then s
      else
        { s with
          srcSel := alt, fontBase := if alt then s.fontBase else base,
          latcomp := if alt then s.cfg.latcompRam else s.cfg.latcompRom }
    | .waitf _ => s
    | .getframe => { s with result := s.frameCount }
    | .acquire cx cy =>
      let r := atomicAcquire (cell cx.toNat cy.toNat) s
      { r.1 with result := r.2.setWidth 32 }
    | .resetpool => atomicResetPool s
    | .setfirstfree n => if n = 0 then s else { s with firstFree := n, nextFree := n }
    | .settile cx cy val => writeTP (cell cx.toNat cy.toNat) val s
    | .gettile cx cy => { s with result := (s.memTP.read (cell cx.toNat cy.toNat)).setWidth 32 }
    | .setcolor cx cy val => writeCP (cell cx.toNat cy.toNat) val s
    | .getcolor cx cy => { s with result := (s.memCP.read (cell cx.toNat cy.toNat)).setWidth 32 }
    | .fillcolor cx cy w h color =>
      nest h.toNat w.toNat (fun j i s => writeCP (cell (cx.toNat + i) (cy.toNat + j)) color s) s
    | .fillscr tile color => atomicFill tile color s
    | .setpixel x y on => atomicSetPixel x.toNat y.toNat on s
    | .drawbmp x y w h base frame on paint color =>
      if w = 0 ∨ h = 0 ∨ base = 0 then s else atomicDraw (spriteOf x y w h base frame on paint color) s
    | .drawbmp8 x y w h base frame on paint color =>
      if w = 0 ∨ h = 0 ∨ base = 0 then s
      else if h ≠ 8 ∨ 16 < w.toNat then s
      else atomicDraw8 (spriteOf x y w h base frame on paint color) s
    | .cleargraph color => atomicFill 0 color (atomicResetPool s)
    | .copyfont fi src ri =>
      if src = 0 then s
      else loop 8 (fun k s => writeRAMF (slotRow ri k) (romRead s.memROM (src.toNat + fi.toNat * 8 + k)) s) s)

end Sys2Proof.Machine
end

