-- ==== Sys2Proof/Machine/Ports.lean ====
section
/-! DEFINITION. The output ports of the engine (10 R46 to R48). VIDEO_ACTIVE, FRAME, RESULT, TICK_OWNED, CMD_FAULT and CAUSE
drive their registers; HSYNC, VSYNC and RGB are functions of the state. -/

namespace Sys2Proof.Machine

/-- HSYNC: the level HSYNC_ACTIVE when asserted, the opposite level otherwise (10 R47). -/
def State.hsync (s : State) : Bool := if s.hsyncAsserted then s.cfg.hsyncActive else !s.cfg.hsyncActive

/-- VSYNC: the level VSYNC_ACTIVE when asserted, the opposite level otherwise (10 R47). -/
def State.vsync (s : State) : Bool := if s.vsyncAsserted then s.cfg.vsyncActive else !s.cfg.vsyncActive

/-- RGB: LINEBUF[k] when RUN = 1, LINE_ACTIVE = 1 and HCNT lies in pixel slot k, 0 otherwise (10 R48). -/
def State.rgb (s : State) : Rgb :=
  if s.run && s.lineActive then
    match s.pixelSlot with
    | some k => s.linebuf.getD k 0
    | none => 0
  else 0

/-- The values on the output ports (10 R46). -/
structure Ports where
  /-- HSYNC. -/
  hsync : Bool
  /-- VSYNC. -/
  vsync : Bool
  /-- RGB. -/
  rgb : Rgb
  /-- VIDEO_ACTIVE. -/
  videoActive : Bool
  /-- FRAME. -/
  frame : Word
  /-- RESULT. -/
  result : Word
  /-- TICK_OWNED. -/
  tickOwned : Bool
  /-- CMD_FAULT. -/
  cmdFault : Bool
  /-- CAUSE. -/
  cause : BitVec 2
deriving DecidableEq, Repr

/-- What the host reads on the ports of a state (10 R46, 60 R300). -/
def State.ports (s : State) : Ports :=
  { hsync := s.hsync, vsync := s.vsync, rgb := s.rgb, videoActive := s.videoActive, frame := s.frameCount,
    result := s.result, tickOwned := s.tickOwned, cmdFault := s.cmdFault, cause := s.cause }

end Sys2Proof.Machine
end

