-- ==== Sys2Proof/Safety.lean ====
section
/-! DEFINITION. The terms in which claims are made: the invariant of 10 R50 with the one on the command in flight, the
foreground's part of the state (20 R81), a command run without interruption (60 R275), and a finished run (60 R276). -/

namespace Sys2Proof.Machine

/-- The four memories are in canonical form and inside their sizes (20 R60, R76). -/
structure State.MemOk (s : State) : Prop where
  tp : Memory.WF Config.cells s.memTP
  cpl : Memory.WF Config.cells s.memCP
  ramf : Memory.WF Config.ramfSize s.memRAMF
  rom : Memory.WF Config.romSize s.memROM

/-- The values a SetPixel call has latched are still the ones in memory (20 R80, 42 R190, 44 R230), and its tile is not 0. -/
def PixPos.Ok (x y : Nat) (p : PixPos) (s : State) : Prop :=
  match p with
  | .acquire => True
  | .tpWrite => s.memTP.read (pixelCell x y) = 0
  | .rmwRead t _ => t ≠ 0 ∧ s.memTP.read (pixelCell x y) = t
  | .rmwWrite t b => t ≠ 0 ∧ s.memTP.read (pixelCell x y) = t ∧ s.memRAMF.read (pixelRow t y) = b

/-- The tiles DRAWBMP8 has acquired: one for each of some cells under the sprite, none 0, and each still in its cell (44 R242). -/
structure TilesOk (d : Sprite) (tiles : Tiles) (s : State) : Prop where
  nodup : (tiles.map (·.1)).Nodup
  inBox : ∀ e ∈ tiles, e.1.1 < d.nc ∧ e.1.2 < 2
  held : ∀ e ∈ tiles, e.2 ≠ 0 ∧ s.memTP.read (d.cellAt e.1) = e.2

/-- A sprite DRAWBMP8 draws: none of its no-op cases holds (44 R240, R258). -/
def inRestriction (w h : BitVec 16) (base : Word) : Prop := w ≠ 0 ∧ base ≠ 0 ∧ h = 8 ∧ w.toNat ≤ 16

/-- The position of the command in flight is one that its pseudocode reaches, with the values it has latched still true
(10 R44; 60 R279: the interrupt is precise). -/
def InFlight.PosOk (c : InFlight) (s : State) : Prop :=
  match c.instr, c.pos with
  | .waitf _, .waiting _ => True
  | .acquire cx cy, .acqWrite => s.memTP.read (cell cx.toNat cy.toNat) = 0
  | .resetpool, .index k => 0 < k ∧ k < poolBytes s
  | .fillcolor _ _ w h _, .index k => 0 < k ∧ k < w.toNat * h.toNat
  | .fillscr _ _, .index k => 0 < k ∧ k < 2 * Config.cells
  | .cleargraph _, .index k => 0 < k ∧ k < poolBytes s + 2 * Config.cells
  | .copyfont _ src _, .index k => src ≠ 0 ∧ 0 < k ∧ k < 8
  | .setpixel x y _, .pixel k p => k = 0 ∧ p ≠ .acquire ∧ p.Ok x.toNat y.toNat s
  | .drawbmp x y w h base frame on paint color, .pixel q p =>
    nullSprite w h base = false ∧ q < w.toNat * h.toNat ∧
      (spriteOf x y w h base frame on paint color).bitAt s.memROM q = true ∧ p ≠ .acquire ∧
      p.Ok (x.toNat + q % w.toNat) (y.toNat + q / w.toNat) s
  | .drawbmp _ _ w h base _ _ _ _, .scan q => nullSprite w h base = false ∧ 0 < q ∧ q ≤ w.toNat * h.toNat
  | .drawbmp x y w h base frame on paint color, .paint k =>
    let d := spriteOf x y w h base frame on paint color
    nullSprite w h base = false ∧ paint = true ∧ 0 < k ∧ k ≤ d.nc * d.nr
  | .drawbmp8 x y w h base frame on paint color, .cells q _ tiles =>
    let d := spriteOf x y w h base frame on paint color
    inRestriction w h base ∧ 0 < q ∧ q ≤ 8 * d.nc ∧ TilesOk d tiles s
  | .drawbmp8 x y w h base frame on paint color, .cellWrite q tiles =>
    let d := spriteOf x y w h base frame on paint color
    inRestriction w h base ∧ q < 8 * d.nc ∧ d.needsTile s.memROM tiles q = true ∧ TilesOk d tiles s ∧
      s.memTP.read (d.cellAt (d.cellKey q)) = 0
  | .drawbmp8 x y w h base frame on paint color, .rows q tiles =>
    let d := spriteOf x y w h base frame on paint color
    inRestriction w h base ∧ 0 < q ∧ q ≤ 2 * d.nc * 8 ∧ TilesOk d tiles s
  | .drawbmp8 x y w h base frame on paint color, .rowWrite q b tiles =>
    let d := spriteOf x y w h base frame on paint color
    inRestriction w h base ∧ q < 2 * d.nc * 8 ∧ d.hasRow tiles q = true ∧ TilesOk d tiles s ∧
      s.memRAMF.read (d.rowAddr tiles q) = b
  | .drawbmp8 x y w h base frame on paint color, .paint k =>
    let d := spriteOf x y w h base frame on paint color
    inRestriction w h base ∧ paint = true ∧ 0 < k ∧ k ≤ d.nc * d.nr
  | _, _ => False

/-- The invariant of the engine: 10 R50(a) to (c), R29, R43, 40 R124, and what CUR and CMD_FAULT hold (10 R28, R44). -/
structure State.Inv (s : State) : Prop where
  /-- The configuration meets 00 R8. -/
  cfgOk : s.cfg.ok = true
  mem : s.MemOk
  /-- 1 <= FIRSTFREE <= NEXTFREE; NEXTFREE <= 255 by its width (10 R50(a)). -/
  alloc : 1 ≤ s.firstFree.toNat ∧ s.firstFree.toNat ≤ s.nextFree.toNat
  /-- HCNT < H_TOTAL and VCNT < V_TOTAL (10 R50(b)). -/
  counters : s.hcnt < s.cfg.hTotal ∧ s.vcnt < s.cfg.vTotal
  /-- A pending line interrupt was raised at H_IRQ_AT, and no tick has come since (40 R124, 60 R273). -/
  pendingAt : s.irqPend = true → s.hcnt = s.cfg.hIrqAt
  /-- RUN = 0 means the held-reset state (10 R50(c), 40 R122). -/
  held : s.run = false → s.hcnt = 0 ∧ s.vcnt = 0 ∧ s.irqPend = false ∧ s.videoActive = false ∧ s.lineActive = false
  /-- With RUN = 1 and SRC_SEL = 0, FONT_BASE is never 0 (10 R29). -/
  source : s.run = true → s.srcSel = false → s.fontBase ≠ 0
  /-- LINEBUF has 224 entries, all 0 outside the window; VIDEO_ACTIVE agrees with LINE_ACTIVE (10 R25, R43, 41 R168). -/
  line : s.linebuf.length = Config.pixW ∧ (s.lineActive = false → s.linebuf = zeroLine) ∧ s.videoActive = s.lineActive
  /-- CAUSE = 0 means no fault, and a faulted sequencer has no command in flight (60 R282). -/
  fault : (s.cause ≠ 0 ↔ s.cmdFault = true) ∧ (s.cmdFault = true → s.cur = none)
  /-- cp stays inside the program (10 R21). -/
  cpBound : s.cp ≤ s.prog.length
  /-- CUR holds the command at cp, at a position of its pseudocode (10 R21, R44). -/
  inFlight : ∀ c, s.cur = some c → fetch s = .ok c.instr ∧ c.PosOk s

/-- What the foreground's results are made of (20 R81): no agent but CMD writes any of it (41 R169, 40 R124). -/
structure Foreground where
  cp : Nat
  result : Word
  run : Bool
  tickOwned : Bool
  cmdFault : Bool
  cause : BitVec 2
  srcSel : Bool
  fontBase : Word
  latcomp : BitVec 16
  firstFree : Byte
  nextFree : Byte
  memTP : Memory
  memCP : Memory
  memRAMF : Memory
  cur : Option InFlight
  cfg : Cfg
  memROM : Memory
  prog : List Word
deriving DecidableEq, Repr

/-- The foreground's part of a state. -/
def State.foreground (s : State) : Foreground :=
  { cp := s.cp, result := s.result, run := s.run, tickOwned := s.tickOwned, cmdFault := s.cmdFault, cause := s.cause,
    srcSel := s.srcSel, fontBase := s.fontBase, latcomp := s.latcomp, firstFree := s.firstFree, nextFree := s.nextFree,
    memTP := s.memTP, memCP := s.memCP, memRAMF := s.memRAMF, cur := s.cur, cfg := s.cfg, memROM := s.memROM,
    prog := s.prog }

/-- The command `i`, started or gone on with in the first state, retires in the second after exactly `n` of its steps, with
no step of another agent in between (60 R275). -/
inductive RunsIn (i : Instr) : Nat → State → State → Prop
  /-- The step that retires the command. -/
  | last {s t : State} (h : exec i s = .next t) (done : t.cur = none) : RunsIn i 1 s t
  /-- A step after which the command is still in flight. -/
  | more {n : Nat} {s u t : State} (h : exec i s = .next u) (c : InFlight) (flying : u.cur = some c) (same : c.instr = i)
      (rest : RunsIn i n u t) : RunsIn i (n + 1) s t

/-- The commands of a list run one after the other, each to its retirement, with no step of another agent in between. -/
inductive RunsAll : List Instr → State → State → Prop
  /-- No command left. -/
  | nil (s : State) : RunsAll [] s s
  /-- The first command, then the others. -/
  | cons {i : Instr} {is : List Instr} {n : Nat} {s u t : State} (first : RunsIn i n s u) (others : RunsAll is u t) :
    RunsAll (i :: is) s t

/-- The table of 30 R96: opcode byte, length, match and mask of word 0. -/
def opcodeTable : List (Byte × Nat × Word × Word) :=
  [ (0x01, 2, 0x01000000, 0xFFFEFFFF), (0x02, 1, 0x02000000, 0xFFFFFFFF), (0x03, 2, 0x03000000, 0xFFFEFFFF),
    (0x04, 1, 0x04000000, 0xFFFF0000), (0x05, 1, 0x05000000, 0xFFFFFFFF), (0x10, 1, 0x10000000, 0xFF0000FF),
    (0x11, 1, 0x11000000, 0xFFFFFFFF), (0x12, 1, 0x12000000, 0xFFFFFF00), (0x20, 1, 0x20000000, 0xFF000000),
    (0x21, 1, 0x21000000, 0xFF0000FF), (0x22, 1, 0x22000000, 0xFF000000), (0x23, 1, 0x23000000, 0xFF0000FF),
    (0x24, 2, 0x24000000, 0xFF000000), (0x25, 1, 0x25000000, 0xFFFF0000), (0x30, 2, 0x30000000, 0xFFFEFFFF),
    (0x31, 4, 0x31000000, 0xFFFC0000), (0x32, 4, 0x32000000, 0xFFFC0000), (0x33, 1, 0x33000000, 0xFFFFFF00),
    (0x34, 2, 0x34000000, 0xFF00FF00) ]

/-- The physical line that is served next: the line of the beam where its interrupt is still to come or pending, the line
after it otherwise (40 R124, R125). -/
def State.nextLine (s : State) : Nat :=
  (if s.hcnt < s.cfg.hIrqAt ∨ s.irqPend = true then s.vcnt else s.vcnt + 1) % s.cfg.vTotal

/-- SCAN and PHASE are in step with the beam (41 R166, R167, R172): on a line of the window SCAN is its logical line and PHASE
says which of its two physical lines it is; from the end of frame to the window both are 0. -/
def State.BeamOk (s : State) : Prop :=
  s.run = true →
    (s.cfg.vActStart ≤ s.nextLine → s.nextLine < s.cfg.vActEnd →
      s.scan.toNat = (s.nextLine - s.cfg.vActStart) / 2 ∧ s.phase = decide ((s.nextLine - s.cfg.vActStart) % 2 = 1)) ∧
    (s.cfg.vEof < s.nextLine ∧ s.nextLine < s.cfg.vActStart ∨
      s.cfg.vActEnd ≤ s.cfg.vEof ∧ (s.cfg.vEof < s.nextLine ∨ s.nextLine < s.cfg.vActStart) →
      s.scan = 0 ∧ s.phase = false)

/-- The foreground has finished (60 R276). -/
def State.finished (s : State) : Prop := s.cp = s.prog.length ∧ s.cur = none ∧ s.cmdFault = false

/-- The commands of a list of words, one after the other, as far as they decode; `n` bounds their number. -/
def commandsOf : Nat → List Word → List Instr
  | 0, _ => []
  | n + 1, ws =>
    match decode ws with
    | .ok i => i :: commandsOf n (ws.drop i.len)
    | .error _ => []

/-- A program without GETFRAME (20 R81). -/
def NoGetframe (prog : List Word) : Prop := .getframe ∉ commandsOf prog.length prog

/-- The commands that call Acquire (42 R190, R192; 44 R230, R236, R242). -/
def allocates : Instr → Bool
  | .acquire _ _ => true
  | .setpixel _ _ _ => true
  | .drawbmp _ _ _ _ _ _ _ _ _ => true
  | .drawbmp8 _ _ _ _ _ _ _ _ _ => true
  | _ => false

/-- An infinite run of the engine. -/
def IsRun (r : Nat → State) : Prop := ∀ n, step (r n) = .next (r (n + 1))

/-- The fairness of 60 R274: again and again, every agent moves, or has no enabled step at a moment at which no line interrupt is
pending. So an agent whose step stays enabled, or is only put off by line services, is eventually stepped (log 5). -/
def Fair (r : Nat → State) : Prop :=
  ∀ (a : Agent) (n : Nat), ∃ m, n ≤ m ∧
    (mover (r m) = some a ∨ (r m).irqPend = false ∧ enabled a (r m) = false)

end Sys2Proof.Machine
end

