-- ==== Sys2Proof/Certificates/Slice0/Obligations.lean ====
section
/-! DEFINITION. The statements for the provers. Each docstring names the rules of spec/ it formalises. A frame is written as an
equation t = { s with ... } in which every field of the state that is not named is unchanged; the contents of a memory that is
named are given byte by byte. -/

open Sys2Proof Sys2Proof.Machine

/-! ### Reset and the invariant -/

/-- 10 R37, R49: after `rst`, whatever the configuration, the ROM, the program, the schedule and the contents of the three
memories, every register holds the value of the table, CUR and OUT are empty, LINEBUF is 0, and the memories hold what was
chosen; the timers are stopped, nothing is pending, and the word fetched next is the program's first. -/
def Obligations.ResetLeavesTheTableValues : Prop :=
  ∀ (cfg : Cfg) (rom : Memory) (prog : List Word) (sched : List Turn) (tp cpl ramf : Memory),
    let s := State.resetWith cfg rom prog sched tp cpl ramf
    s.cp = 0 ∧ s.result = 0 ∧ s.run = false ∧ s.irqPend = false ∧ s.videoActive = false ∧ s.phase = false ∧
    s.tickOwned = false ∧ s.cmdFault = false ∧ s.cause = 0 ∧ s.srcSel = false ∧ s.fontBase = 0 ∧ s.latcomp = 0 ∧
    s.hcnt = 0 ∧ s.vcnt = 0 ∧ s.frameCount = 0 ∧ s.scan = 0 ∧ s.firstFree = 1 ∧ s.nextFree = 1 ∧
    s.cur = none ∧ s.linebuf = List.replicate 224 0 ∧ s.lineActive = false ∧ s.out = [] ∧
    s.memTP = tp ∧ s.memCP = cpl ∧ s.memRAMF = ramf ∧ s.memROM = rom ∧ s.cfg = cfg ∧ s.prog = prog ∧
    tickEnabled s = false ∧ fetch s = decode prog

/-- 10 R50: the invariant holds after `rst` for every configuration that meets 00 R8 and every contents of the memories in
canonical form, and at the model's own reset state. -/
def Obligations.InvariantHoldsAfterReset : Prop :=
  (∀ (cfg : Cfg) (rom : Memory) (prog : List Word) (sched : List Turn) (tp cpl ramf : Memory),
    cfg.ok = true → Memory.WF Config.romSize rom → Memory.WF Config.cells tp → Memory.WF Config.cells cpl →
    Memory.WF Config.ramfSize ramf → (State.resetWith cfg rom prog sched tp cpl ramf).Inv) ∧
  State.reset.Inv

/-- 10 R50: every step keeps the invariant: 1 <= FIRSTFREE <= NEXTFREE, the counters in range, the held-reset state with
RUN = 0, the memories in form, and what the command in flight has latched. -/
def Obligations.EveryStepKeepsTheInvariant : Prop :=
  ∀ s s' : State, s.Inv → step s = .next s' → s'.Inv

/-- 00 R10, 10 R51, 60 R300: no step changes `cfg`, `rom` or `prog`. -/
def Obligations.NoStepChangesTheParameters : Prop :=
  ∀ s s' : State, step s = .next s' → s'.cfg = s.cfg ∧ s'.memROM = s.memROM ∧ s'.prog = s.prog

/-! ### Encoding -/

/-- 30 R93, R96, R100: decoding the words of a command gives the command back, with every operand at every value. -/
def Obligations.DecodeOfEncodeIsTheCommand : Prop :=
  ∀ (i : Instr) (rest : List Word), decode (encode i ++ rest) = .ok i

/-- 30 R92, R93: a command has one encoding: the words it was decoded from are the words it encodes to. -/
def Obligations.EncodeOfDecodeIsTheWords : Prop :=
  ∀ (ws : List Word) (i : Instr), decode ws = .ok i → ws.take i.len = encode i

/-- 95 V1: words written out from 30 R93 and R96 decode to the commands they stand for. -/
def Obligations.WrittenOutWordsDecode : Prop :=
  decode [0x01000000#32, 0x08004000#32] = .ok (.start false 0x08004000) ∧
  decode [0x04000258#32] = .ok (.waitf 600) ∧
  decode [0x101B1D00#32] = .ok (.acquire 27 29) ∧
  decode [0x20030241#32] = .ok (.settile 3 2 65) ∧
  decode [0x241A1D4F#32, 0x00000203#32] = .ok (.fillcolor 26 29 3 2 0x4F) ∧
  decode [0x30000000#32, 0x00EF00DF#32] = .ok (.setpixel 223 239 false) ∧
  decode [0x3103031F#32, 0x00320064#32, 0x00150018#32, 0x08001234#32] =
    .ok (.drawbmp 100 50 24 21 0x08001234 3 true true 0x1F) ∧
  decode [0x34410003#32, 0x00002000#32] = .ok (.copyfont 65 0x2000 3)

/-- 30 R92, R96, R97: decoding checks, in this order, that the opcode is one of the nineteen, that the command is not cut
short, and that every must-be-zero bit is 0; a word that passes gives a command of that opcode and length. -/
def Obligations.DecodeChecksInOrder : Prop :=
  ∀ (w0 : Word) (rest : List Word),
    ((∀ r ∈ opcodeTable, r.1 ≠ w0.extractLsb' 24 8) → decode (w0 :: rest) = .error .reservedOpcode) ∧
    ∀ op len pat mask, (op, len, pat, mask) ∈ opcodeTable → op = w0.extractLsb' 24 8 →
      (rest.length + 1 < len → decode (w0 :: rest) = .error .truncated) ∧
      (len ≤ rest.length + 1 →
        (w0 &&& mask = pat ∧ (op = 0x24 → (rest.getD 0 0).extractLsb' 16 16 = 0) →
          ∃ i, decode (w0 :: rest) = .ok i ∧ i.opcode = op ∧ i.len = len) ∧
        (¬(w0 &&& mask = pat ∧ (op = 0x24 → (rest.getD 0 0).extractLsb' 16 16 = 0)) →
          decode (w0 :: rest) = .error .reservedField))

/-! ### Agents and scheduling -/

/-- 60 R273: while IRQ_PEND = 1 the step of the engine is the line service. -/
def Obligations.PendingInterruptRunsTheLineService : Prop :=
  ∀ s : State, s.irqPend = true → step s = .next (lineService s)

/-- 60 R272, R275: where no command is in flight, a step of the sequencer runs the command decoded at cp. With the timers held
that is the next step. While they run it is the next step where the schedule's next choice is CMD, which that step takes off
the schedule: the list `sched` is the model's choice for the order that R274 leaves open (log 5). -/
def Obligations.StepRunsTheDecodedCommand : Prop :=
  ∀ (s : State) (i : Instr), s.irqPend = false → s.cmdFault = false → s.cur = none → s.cp < s.prog.length →
    decode (s.prog.drop s.cp) = .ok i →
    (s.run = false → step s = exec i s) ∧
    (∀ rest, s.run = true → s.sched = .cmd :: rest → step s = exec i { s with sched := rest })

/-- 60 R272, R275: a step of the sequencer goes on with the command in flight, where that command's next step is enabled. While
the timers run it is the next step where the schedule's next choice is CMD, which that step takes off the schedule: the list
`sched` is the model's choice for the order that R274 leaves open (log 5). -/
def Obligations.StepGoesOnWithTheCommandInFlight : Prop :=
  ∀ (s : State) (c : InFlight), s.irqPend = false → s.cmdFault = false → s.cur = some c →
    (∀ n ws, c.instr = .waitf n → c.pos = .waiting ws → n.toNat ≤ (s.frameCount - ws).toNat) →
    (s.run = false → step s = exec c.instr s) ∧
    (∀ rest, s.run = true → s.sched = .cmd :: rest → step s = exec c.instr { s with sched := rest })

/-- 60 R271, R274: with RUN = 1 and IRQ_PEND = 0 a tick may always be the next step: it is where CMD has no step, and where
CMD has one it is if the schedule's next choice is TMR, which that step takes off the schedule: the list `sched` is the model's
choice for the order that R274 leaves open (log 5). -/
def Obligations.TickMayAlwaysComeNext : Prop :=
  ∀ s : State, s.run = true → s.irqPend = false →
    (cmdEnabled s = false → step s = .next (tick s)) ∧
    (∀ rest, cmdEnabled s = true → s.sched = .tmr :: rest → step s = .next (tick { s with sched := rest }))

/-- 40 R123, R122: with RUN = 0 no step is a tick: no step but START moves HCNT or VCNT or raises IRQ_PEND. -/
def Obligations.HeldTimersStayHeld : Prop :=
  ∀ s s' : State, s.Inv → s.run = false → step s = .next s' →
    s'.hcnt = 0 ∧ s'.vcnt = 0 ∧ s'.irqPend = false ∧ s'.out = s.out ∧ s'.frameCount = s.frameCount

/-- 60 R276, R288: the engine as a whole never finishes while RUN = 1: its step answers a next state, or it is the refusal of a
START that CMD has just fetched, and never a fault. -/
def Obligations.EngineStopsWhileRunningOnlyAtStart : Prop :=
  ∀ s : State, s.Inv → s.run = true →
    (∃ s', step s = .next s') ∨
    (step s = .refused .startWhileRunning ∧ s.cur = none ∧ ∃ alt base, fetch s = .ok (.start alt base))

/-- 60 R274, 70 R326: every infinite run of the engine is fair: again and again, every agent moves, or has no enabled step at a
moment at which no line interrupt is pending. That the choices past the end of the schedule come in blocks which end in one
turn for each of TMR and CMD is the model's way to keep R274's fairness (log 5). -/
def Obligations.EveryRunIsFair : Prop :=
  ∀ r : Nat → State, IsRun r → Fair r

/-- 60 R286: the only place the foreground can wait for ever is step 2 of WAITF: the engine is stuck in a wait exactly when
the timers are held and a WAITF in flight has not seen its frames. -/
def Obligations.StuckInAWaitOnlyInWaitf : Prop :=
  ∀ s : State, s.Inv →
    (step s = .fault .waitStuck ↔
      s.run = false ∧ ∃ n ws, s.cur = some { instr := .waitf n, pos := .waiting ws } ∧ (s.frameCount - ws).toNat < n.toNat)

/-! ### The timers -/

/-- 40 R124: the tick, with the counters below their totals; it writes HCNT, perhaps VCNT, perhaps IRQ_PEND, and nothing
else. -/
def Obligations.TickMovesTheCounters : Prop :=
  ∀ s : State, s.hcnt < s.cfg.hTotal → s.vcnt < s.cfg.vTotal → s.irqPend = false →
    let h := if s.hcnt = s.cfg.hTotal - 1 then 0 else s.hcnt + 1
    let v := if s.hcnt = s.cfg.hTotal - 1 then (if s.vcnt = s.cfg.vTotal - 1 then 0 else s.vcnt + 1) else s.vcnt
    tick s = { s with hcnt := h, vcnt := v, irqPend := decide (h = s.cfg.hIrqAt) } ∧
      h < s.cfg.hTotal ∧ v < s.cfg.vTotal

/-- 40 R125, R126: H_TOTAL ticks bring HCNT back and move VCNT to the next line, and exactly one of them makes HCNT equal to
H_IRQ_AT; taken from IRQ_PEND = 0, that one raises the line interrupt and no other does. -/
def Obligations.OneLineIsOneInterrupt : Prop :=
  ∀ s : State, s.hcnt < s.cfg.hTotal → s.vcnt < s.cfg.vTotal → s.cfg.hIrqAt < s.cfg.hTotal →
    (tick^[s.cfg.hTotal] s).hcnt = s.hcnt ∧
    (tick^[s.cfg.hTotal] s).vcnt = (s.vcnt + 1) % s.cfg.vTotal ∧
    ∃ k < s.cfg.hTotal, ∀ j < s.cfg.hTotal,
      ((tick^[j + 1] s).hcnt = s.cfg.hIrqAt ↔ j = k) ∧
      ((tick { tick^[j] s with irqPend := false }).irqPend = true ↔ j = k)

/-- 10 R47: HSYNC and VSYNC carry their active level exactly in their windows with RUN = 1, and the opposite level otherwise. -/
def Obligations.SyncOutputsFollowTheWindows : Prop :=
  ∀ s : State,
    (s.hsync = s.cfg.hsyncActive ↔ s.run = true ∧ s.cfg.hSyncStart ≤ s.hcnt ∧ s.hcnt < s.cfg.hSyncEnd) ∧
    (s.vsync = s.cfg.vsyncActive ↔ s.run = true ∧ s.cfg.vSyncStart ≤ s.vcnt ∧ s.vcnt < s.cfg.vSyncEnd)

/-- 10 R48, 70 R323(b), R327: RGB carries sample k in pixel slot k of an active line with RUN = 1, and 0 otherwise; SETSRC
leaves RGB, so that a new source takes effect at the next line. That FETCH_LAT and LATCOMP are those of the line's service is
the model's reading of R327 (log 9). -/
def Obligations.RgbCarriesTheSampleOfItsSlot : Prop :=
  (∀ s : State, 1 ≤ s.cfg.pixTicks → s.linebuf.length = 224 →
    let p0 := s.cfg.hIrqAt + (if s.lineSrc then s.cfg.fetchLatRam.toNat else s.cfg.fetchLatRom.toNat) + s.lineLatcomp.toNat
    (∀ k < 224, s.run = true → s.lineActive = true → p0 + k * s.cfg.pixTicks ≤ s.hcnt →
      s.hcnt < p0 + (k + 1) * s.cfg.pixTicks → s.linebuf[k]? = some s.rgb) ∧
    (s.run = false ∨ s.lineActive = false ∨ s.hcnt < p0 ∨ p0 + 224 * s.cfg.pixTicks ≤ s.hcnt → s.rgb = 0)) ∧
  ∀ (alt : Bool) (base : Word) (s t : State), exec (.setsrc alt base) s = .next t → t.rgb = s.rgb

/-! ### The line service -/

/-- 41 R164, R165, R166: in an active line, sample 8 * c + p is the low three bits of the foreground nibble where bit 7 - p of the
bitmap row is 1, of the background nibble where it is 0; the row is RAMF[t * 8 + sub] or ROM[FONT_BASE + t * 8 + sub] of the
tile t of column c. The same 224 samples go to LINEBUF and into the one event appended to OUT (10 R45). PHASE flips, and SCAN
rises by one modulo 256 where PHASE was 1; VIDEO_ACTIVE becomes 1 and FRAME stays. -/
def Obligations.ActiveLineShowsTheTileRow : Prop :=
  ∀ s : State, s.cfg.vActStart ≤ s.vcnt → s.vcnt < s.cfg.vActEnd →
    let row := s.scan.toNat / 8 % 30
    let sub := s.scan.toNat % 8
    (lineService s).phase = (!s.phase) ∧ (lineService s).videoActive = true ∧ (lineService s).frameCount = s.frameCount ∧
    (lineService s).scan.toNat = (if s.phase then (s.scan.toNat + 1) % 256 else s.scan.toNat) ∧
    ∃ samples : List Rgb, samples.length = 224 ∧ (lineService s).linebuf = samples ∧ (lineService s).lineActive = true ∧
      (lineService s).out = s.out ++ [{ frame := s.frameCount, v := s.vcnt, active := true, row := row, sub := sub,
                                        latcomp := s.latcomp, samples := samples }] ∧
      ∀ c < 28, ∀ p < 8,
        let t := s.memTP.read (row * 28 + c)
        let a := s.memCP.read (row * 28 + c)
        let b := if s.srcSel then s.memRAMF.read (t.toNat * 8 + sub)
                 else s.memROM.read ((s.fontBase.toNat + t.toNat * 8 + sub) % 2 ^ 32)
        samples[8 * c + p]? = some (if b.getLsbD (7 - p) then a.extractLsb' 4 3 else a.extractLsb' 0 3)

/-- 41 R167, R168: a line outside the window blanks LINEBUF and appends an event of 224 zero samples; PHASE and SCAN do not
move but in line V_EOF, where FRAME rises by one modulo 2^32 and SCAN and PHASE are cleared. -/
def Obligations.BlankLineAndEndOfFrame : Prop :=
  ∀ s : State, ¬(s.cfg.vActStart ≤ s.vcnt ∧ s.vcnt < s.cfg.vActEnd) →
    (lineService s).linebuf = List.replicate 224 0 ∧ (lineService s).lineActive = false ∧
    (lineService s).videoActive = false ∧
    (lineService s).out = s.out ++ [{ frame := s.frameCount, v := s.vcnt, active := false, row := 0, sub := 0,
                                      latcomp := s.latcomp, samples := List.replicate 224 0 }] ∧
    (s.vcnt = s.cfg.vEof →
      (lineService s).frameCount.toNat = (s.frameCount.toNat + 1) % 2 ^ 32 ∧ (lineService s).scan = 0 ∧
      (lineService s).phase = false) ∧
    (s.vcnt ≠ s.cfg.vEof →
      (lineService s).frameCount = s.frameCount ∧ (lineService s).scan = s.scan ∧ (lineService s).phase = s.phase)

/-- 41 R169: the line service writes IRQ_PEND (to 0), VIDEO_ACTIVE, PHASE, SCAN, FRAME, LINEBUF, LINE_ACTIVE and OUT and
nothing else of the spec's state; `lineSrc` and `lineLatcomp`, which hold SRC_SEL and LATCOMP for the pixel slots of the line, are
the model's own fields (log 9). -/
def Obligations.LineServiceWritesOnlyItsRegisters : Prop :=
  ∀ s : State,
    let t := lineService s
    t = { s with irqPend := false, videoActive := t.videoActive, phase := t.phase, scan := t.scan,
                 frameCount := t.frameCount, linebuf := t.linebuf, lineActive := t.lineActive, out := t.out,
                 lineSrc := s.srcSel, lineLatcomp := s.latcomp }

/-- 10 R33: FRAME is written by the line service at end of frame and by nothing else, and then rises by one modulo 2^32. -/
def Obligations.OnlyTheEndOfFrameMovesFrame : Prop :=
  ∀ s s' : State, step s = .next s' → s'.frameCount ≠ s.frameCount →
    s.irqPend = true ∧ s.vcnt = s.cfg.vEof ∧ ¬(s.cfg.vActStart ≤ s.vcnt ∧ s.vcnt < s.cfg.vActEnd) ∧
    s'.frameCount.toNat = (s.frameCount.toNat + 1) % 2 ^ 32

/-- 10 R45: OUT is only ever appended to, one event per line service. -/
def Obligations.OutGrowsByOneEventPerService : Prop :=
  ∀ s s' : State, step s = .next s' →
    (s.irqPend = false → s'.out = s.out) ∧
    (s.irqPend = true → ∃ e : LineEvent, s'.out = s.out ++ [e] ∧ e.frame = s.frameCount ∧ e.v = s.vcnt ∧
      e.latcomp = s.latcomp ∧ e.samples.length = 224)

/-- 41 R166, R167, R172: with a 480-line window, every step keeps SCAN and PHASE where the beam is: the window line that is
served next shows logical line (v - V_ACT_START) div 2. The premise on H_IRQ_AT leaves out the one configuration in which
line 0 is active and the first frame does not serve it (40 R125). -/
def Obligations.EveryStepKeepsTheBeam : Prop :=
  ∀ s s' : State, s.Inv → s.cfg.vActEnd = s.cfg.vActStart + 480 → (0 < s.cfg.hIrqAt ∨ 0 < s.cfg.vActStart) →
    s.BeamOk → step s = .next s' → s'.BeamOk

/-- 41 R172: in step with the beam and with a 480-line window, the service of physical line v shows logical line
k = (v - V_ACT_START) div 2: tile row k div 8 and sub-row k mod 8. -/
def Obligations.PhysicalLineShowsItsLogicalLine : Prop :=
  ∀ s : State, s.Inv → s.BeamOk → s.cfg.vActEnd = s.cfg.vActStart + 480 → s.irqPend = true → s.cfg.vActStart ≤ s.vcnt →
    s.vcnt < s.cfg.vActEnd →
    ∃ (e : LineEvent) (s' : State), step s = .next s' ∧ s'.out = s.out ++ [e] ∧ e.active = true ∧
      e.row = (s.vcnt - s.cfg.vActStart) / 2 / 8 ∧ e.sub = (s.vcnt - s.cfg.vActStart) / 2 % 8

/-! ### The command fault -/

/-- 60 R282: a word with no meaning raises CmdFault: CMD_FAULT is set, CAUSE takes the code of the cause, and nothing else
changes, cp among it. While the timers run that is the next step where the schedule's next choice is CMD, which that step takes
off the schedule: the list `sched` is the model's own (log 5). -/
def Obligations.MeaninglessWordRaisesCmdFault : Prop :=
  ∀ (s : State) (e : DecodeError), s.irqPend = false → s.cmdFault = false → s.cur = none → s.cp < s.prog.length →
    decode (s.prog.drop s.cp) = .error e →
    let code : BitVec 2 := match e with
      | .reservedOpcode => 1
      | .reservedField => 2
      | .truncated => 3
    (s.run = false → step s = .next { s with cmdFault := true, cause := code }) ∧
    (∀ rest, s.run = true → s.sched = .cmd :: rest →
      step s = .next { s with cmdFault := true, cause := code, sched := rest })

/-- 60 R282, R272: after a fault CMD has no step, CMD_FAULT and CAUSE stay, and the timers and the line service go on: every
step is a tick or a line service and leaves the foreground's part of the state. -/
def Obligations.FaultedSequencerStaysHalted : Prop :=
  ∀ s s' : State, s.cmdFault = true → step s = .next s' →
    s'.foreground = s.foreground ∧
    (s' = lineService s ∧ s.irqPend = true ∨ s' = tick s ∧ s.irqPend = false ∧ s.run = true)

/-! ### Lifecycle commands -/

/-- 40 R130, R131: START from held-reset state; an unset bitmap source is a silent no-op. -/
def Obligations.StartTakesTheTimersOutOfReset : Prop :=
  (∀ (alt : Bool) (base : Word) (rest : List Word),
    decode ((0x01#8 ++ 0#7 ++ BitVec.ofBool alt ++ 0#16 : Word) :: base :: rest) = .ok (.start alt base)) ∧
  ∀ (alt : Bool) (base : Word) (s : State), s.run = false →
    (alt = false → base = 0 → exec (.start alt base) s = .next { s with cp := s.cp + 2, cur := none }) ∧
    (¬(alt = false ∧ base = 0) →
      exec (.start alt base) s =
        .next { s with
          srcSel := alt, fontBase := if alt then s.fontBase else base,
          latcomp := if alt then s.cfg.latcompRam else s.cfg.latcompRom, hcnt := 0, vcnt := 0, irqPend := false,
          videoActive := false, scan := 0, phase := false, linebuf := List.replicate 224 0, lineActive := false,
          tickOwned := true, run := true, cp := s.cp + 2, cur := none })

/-- 60 R288, 93 U1: START with RUN = 1 is refused. That it is refused whatever its operands, alt = 0 with base = 0 among them, is
read from the order of 40 R130 and R131 (log 8, DEDUCED). -/
def Obligations.StartWhileRunningIsRefused : Prop :=
  ∀ (alt : Bool) (base : Word) (s : State), s.run = true → exec (.start alt base) s = .refused .startWhileRunning

/-- 40 R134: STOP puts the timers in the held-reset state and leaves everything else; with RUN = 0 it changes nothing. -/
def Obligations.StopHoldsTheTimers : Prop :=
  (∀ rest, decode (0x02000000#32 :: rest) = .ok .stop) ∧
  (∀ s : State, exec .stop s =
    .next { s with run := false, hcnt := 0, vcnt := 0, irqPend := false, videoActive := false,
                   linebuf := List.replicate 224 0, lineActive := false, cp := s.cp + 1, cur := none }) ∧
  (∀ s : State, s.Inv → s.run = false → exec .stop s = .next { s with cp := s.cp + 1, cur := none })

/-- 40 R138: SETSRC selects the source, its table and its compensation in one step; a null table is a silent no-op. -/
def Obligations.SetsrcSelectsTheSource : Prop :=
  (∀ (alt : Bool) (base : Word) (rest : List Word),
    decode ((0x03#8 ++ 0#7 ++ BitVec.ofBool alt ++ 0#16 : Word) :: base :: rest) = .ok (.setsrc alt base)) ∧
  ∀ (alt : Bool) (base : Word) (s : State),
    (alt = false → base = 0 → exec (.setsrc alt base) s = .next { s with cp := s.cp + 2, cur := none }) ∧
    (¬(alt = false ∧ base = 0) →
      exec (.setsrc alt base) s =
        .next { s with
          srcSel := alt, fontBase := if alt then s.fontBase else base,
          latcomp := if alt then s.cfg.latcompRam else s.cfg.latcompRom, cp := s.cp + 2, cur := none })

/-- 40 R142: step 1 of WAITF latches FRAME; step 2 is enabled only when FRAME has advanced by n modulo 2^32, and retires. -/
def Obligations.WaitfWaitsForNFrames : Prop :=
  (∀ (n : BitVec 16) (rest : List Word), decode ((0x04#8 ++ 0#8 ++ n : Word) :: rest) = .ok (.waitf n)) ∧
  ∀ (n : BitVec 16) (s : State),
    (s.cur = none → exec (.waitf n) s =
      .next { s with cur := some { instr := .waitf n, pos := .waiting s.frameCount } }) ∧
    (∀ ws : Word, s.cur = some { instr := .waitf n, pos := .waiting ws } → s.irqPend = false → s.cmdFault = false →
      (n.toNat ≤ (s.frameCount.toNat + 2 ^ 32 - ws.toNat) % 2 ^ 32 →
        cmdEnabled s = true ∧ exec (.waitf n) s = .next { s with cp := s.cp + 1, cur := none }) ∧
      ((s.frameCount.toNat + 2 ^ 32 - ws.toNat) % 2 ^ 32 < n.toNat → cmdEnabled s = false))

/-- 40 R146: GETFRAME returns FRAME in RESULT. -/
def Obligations.GetframeReturnsFrame : Prop :=
  (∀ rest, decode (0x05000000#32 :: rest) = .ok .getframe) ∧
  ∀ s : State, exec .getframe s = .next { s with result := s.frameCount, cp := s.cp + 1, cur := none }

/-! ### The allocator -/

/-- 42 R190, R192: ACQUIRE returns the tile of a cell that holds one, in one access; on a cell that holds 0 it takes NEXTFREE,
stores it into the cell and moves NEXTFREE on, from 255 to FIRSTFREE. -/
def Obligations.AcquireGivesTheCellASlot : Prop :=
  (∀ (cx cy : Byte) (rest : List Word), decode ((0x10#8 ++ cx ++ cy ++ 0#8 : Word) :: rest) = .ok (.acquire cx cy)) ∧
  ∀ (cx cy : Byte) (s : State), s.MemOk → s.cur = none →
    let c := cy.toNat % 30 * 28 + cx.toNat % 28
    (s.memTP.read c ≠ 0 →
      exec (.acquire cx cy) s =
        .next { s with result := (s.memTP.read c).setWidth 32, cp := s.cp + 1, cur := none }) ∧
    (s.memTP.read c = 0 →
      ∃ u t, exec (.acquire cx cy) s = .next u ∧ u = { s with cur := u.cur } ∧ exec (.acquire cx cy) u = .next t ∧
        t.memTP.read c = s.nextFree ∧ (∀ a, a ≠ c → t.memTP.read a = s.memTP.read a) ∧
        t = { s with memTP := t.memTP, nextFree := if s.nextFree = 255 then s.firstFree else s.nextFree + 1,
                     result := s.nextFree.setWidth 32, cp := s.cp + 1, cur := none })

/-- 42 R191(a): no command ever stores the value 0 into a cell by allocating: where a step of ACQUIRE, SETPIXEL, DRAWBMP or DRAWBMP8
changes a cell, the cell held 0 and now holds NEXTFREE, which is not 0. ACQUIRE, where it retires, has a RESULT that is not 0
and is the cell's tile. -/
def Obligations.AllocatingNeverStoresTileZero : Prop :=
  (∀ (i : Instr) (s s' : State) (a : Nat), s.Inv → allocates i = true →
    (s.cur = none ∨ ∃ p, s.cur = some { instr := i, pos := p }) → exec i s = .next s' →
    s'.memTP.read a ≠ s.memTP.read a → s.memTP.read a = 0 ∧ s'.memTP.read a = s.nextFree ∧ s.nextFree ≠ 0) ∧
  ∀ (cx cy : Byte) (s t : State) (n : Nat), s.Inv → s.cur = none → RunsIn (.acquire cx cy) n s t →
    t.result ≠ 0 ∧ t.result = (t.memTP.read (cy.toNat % 30 * 28 + cx.toNat % 28)).setWidth 32

/-- 42 R191(b): ACQUIRE twice on one cell returns the same index both times and the second writes nothing but RESULT. -/
def Obligations.AcquireIsIdempotent : Prop :=
  ∀ (cx cy cx' cy' : Byte) (s t : State) (n : Nat), s.Inv → s.cur = none → RunsIn (.acquire cx cy) n s t →
    cx'.toNat % 28 = cx.toNat % 28 → cy'.toNat % 30 = cy.toNat % 30 →
    exec (.acquire cx' cy') t = .next { t with cp := t.cp + 1, cur := none }

/-- 42 R191(c): from NEXTFREE = FIRSTFREE = f, ACQUIRE on N different cells that hold 0, N <= 256 - f, hands out f, f + 1, up
to f + N - 1 in order, each once; after 256 - f of them NEXTFREE is f again. -/
def Obligations.AcquireHandsOutEachSlotOnce : Prop :=
  ∀ (cells : List (Byte × Byte)) (s : State), s.MemOk → s.cur = none → s.nextFree = s.firstFree → 1 ≤ s.firstFree.toNat →
    (cells.map fun c => c.2.toNat % 30 * 28 + c.1.toNat % 28).Nodup →
    (∀ c ∈ cells, s.memTP.read (c.2.toNat % 30 * 28 + c.1.toNat % 28) = 0) →
    cells.length ≤ 256 - s.firstFree.toNat →
    ∃ t, RunsAll (cells.map fun c => .acquire c.1 c.2) s t ∧
      (∀ k c, cells[k]? = some c →
        (t.memTP.read (c.2.toNat % 30 * 28 + c.1.toNat % 28)).toNat = s.firstFree.toNat + k) ∧
      t.nextFree.toNat = (if cells.length = 256 - s.firstFree.toNat then s.firstFree.toNat
                          else s.firstFree.toNat + cells.length)

/-- 42 R194: RESETPOOL zeroes the slots from FIRSTFREE to 255, one access a byte, sets NEXTFREE = FIRSTFREE and leaves the
rest. -/
def Obligations.ResetpoolZeroesTheDynamicRange : Prop :=
  ∀ s : State, s.MemOk → s.cur = none →
    ∃ t, RunsIn .resetpool ((256 - s.firstFree.toNat) * 8) s t ∧
      (∀ a, s.firstFree.toNat * 8 ≤ a → a < 2048 → t.memRAMF.read a = 0) ∧
      (∀ a, a < s.firstFree.toNat * 8 ∨ 2048 ≤ a → t.memRAMF.read a = s.memRAMF.read a) ∧
      t = { s with memRAMF := t.memRAMF, nextFree := s.firstFree, cp := s.cp + 1, cur := none }

/-- 42 R196: SETFIRSTFREE writes both allocator registers and no memory; n = 0 is a silent no-op. -/
def Obligations.SetfirstfreeWritesBothRegisters : Prop :=
  (∀ (n : Byte) (rest : List Word), decode ((0x12#8 ++ 0#16 ++ n : Word) :: rest) = .ok (.setfirstfree n)) ∧
  ∀ (n : Byte) (s : State),
    (n = 0 → exec (.setfirstfree n) s = .next { s with cp := s.cp + 1, cur := none }) ∧
    (n ≠ 0 → exec (.setfirstfree n) s =
      .next { s with firstFree := n, nextFree := n, cp := s.cp + 1, cur := none })

/-! ### Framebuffer access -/

/-- 43 R210, R214: SETTILE writes one byte of TP and SETCOLOR one byte of CP, the cell's, and nothing else. -/
def Obligations.CellStoresWriteOneByte : Prop :=
  (∀ (cx cy val : Byte) (rest : List Word),
    decode ((0x20#8 ++ cx ++ cy ++ val : Word) :: rest) = .ok (.settile cx cy val) ∧
    decode ((0x22#8 ++ cx ++ cy ++ val : Word) :: rest) = .ok (.setcolor cx cy val)) ∧
  ∀ (cx cy val : Byte) (s : State), s.MemOk →
    (∃ t, exec (.settile cx cy val) s = .next t ∧
      t.memTP.read (cy.toNat % 30 * 28 + cx.toNat % 28) = val ∧
      (∀ a, a ≠ cy.toNat % 30 * 28 + cx.toNat % 28 → t.memTP.read a = s.memTP.read a) ∧
      t = { s with memTP := t.memTP, cp := s.cp + 1, cur := none }) ∧
    (∃ t, exec (.setcolor cx cy val) s = .next t ∧
      t.memCP.read (cy.toNat % 30 * 28 + cx.toNat % 28) = val ∧
      (∀ a, a ≠ cy.toNat % 30 * 28 + cx.toNat % 28 → t.memCP.read a = s.memCP.read a) ∧
      t = { s with memCP := t.memCP, cp := s.cp + 1, cur := none })

/-- 43 R212, R216: GETTILE and GETCOLOR return the cell's byte, zero-extended, in RESULT and write nothing else. -/
def Obligations.QueriesReturnTheCell : Prop :=
  (∀ (cx cy : Byte) (rest : List Word), decode ((0x21#8 ++ cx ++ cy ++ 0#8 : Word) :: rest) = .ok (.gettile cx cy) ∧
    decode ((0x23#8 ++ cx ++ cy ++ 0#8 : Word) :: rest) = .ok (.getcolor cx cy)) ∧
  ∀ (cx cy : Byte) (s : State),
    exec (.gettile cx cy) s =
      .next { s with result := (s.memTP.read (cy.toNat % 30 * 28 + cx.toNat % 28)).setWidth 32, cp := s.cp + 1, cur := none } ∧
    exec (.getcolor cx cy) s =
      .next { s with result := (s.memCP.read (cy.toNat % 30 * 28 + cx.toNat % 28)).setWidth 32, cp := s.cp + 1, cur := none }

/-- 43 R218: FILLCOLOR paints the w by h cells from (cx, cy), wrapping over both edges, in w * h accesses, and writes no other
byte; with w = 0 or h = 0 it does nothing. -/
def Obligations.FillcolorPaintsTheRegion : Prop :=
  ∀ (cx cy w h color : Byte) (s : State), s.MemOk → s.cur = none →
    (w = 0 ∨ h = 0 → exec (.fillcolor cx cy w h color) s = .next { s with cp := s.cp + 2, cur := none }) ∧
    (w ≠ 0 → h ≠ 0 →
      ∃ t, RunsIn (.fillcolor cx cy w h color) (w.toNat * h.toNat) s t ∧
        (∀ i j, i < w.toNat → j < h.toNat →
          t.memCP.read ((cy.toNat + j) % 30 * 28 + (cx.toNat + i) % 28) = color) ∧
        (∀ a, (∀ i j, i < w.toNat → j < h.toNat → a ≠ (cy.toNat + j) % 30 * 28 + (cx.toNat + i) % 28) →
          t.memCP.read a = s.memCP.read a) ∧
        t = { s with memCP := t.memCP, cp := s.cp + 2, cur := none })

/-- 43 R220: FILLSCR writes the tile into all of TP and the colour into all of CP, in 1680 accesses, and leaves RAMF and the
allocator. -/
def Obligations.FillscrFillsBothPlanes : Prop :=
  ∀ (tile color : Byte) (s : State), s.MemOk → s.cur = none →
    ∃ t, RunsIn (.fillscr tile color) 1680 s t ∧
      (∀ a < 840, t.memTP.read a = tile ∧ t.memCP.read a = color) ∧
      t = { s with memTP := t.memTP, memCP := t.memCP, cp := s.cp + 1, cur := none }

/-! ### Pixels and bitmaps -/

/-- 44 R230: SETPIXEL gives the cell a tile where it holds 0, then sets or clears the pixel's bit in that tile and leaves its
other bits, in three accesses or four. -/
def Obligations.SetpixelSetsOneBit : Prop :=
  ∀ (x y : BitVec 16) (on : Bool) (s : State), s.MemOk → s.cur = none →
    let c := y.toNat % 240 / 8 * 28 + x.toNat % 224 / 8
    let fresh := s.memTP.read c = 0
    let tile := if fresh then s.nextFree else s.memTP.read c
    let a := tile.toNat * 8 + y.toNat % 240 % 8
    ∃ t, RunsIn (.setpixel x y on) (if fresh then 4 else 3) s t ∧
      t.memTP.read c = tile ∧ (∀ b, b ≠ c → t.memTP.read b = s.memTP.read b) ∧
      (∀ p < 8, (t.memRAMF.read a).getLsbD (7 - p) =
        if p = x.toNat % 224 % 8 then on else (s.memRAMF.read a).getLsbD (7 - p)) ∧
      (∀ b, b ≠ a → t.memRAMF.read b = s.memRAMF.read b) ∧
      t = { s with memTP := t.memTP, memRAMF := t.memRAMF,
                   nextFree := if fresh then (if s.nextFree = 255 then s.firstFree else s.nextFree + 1) else s.nextFree,
                   cp := s.cp + 2, cur := none }

/-- 44 R231(a): SETPIXEL at (x, y) leaves the same state as at (x mod 224, y mod 240). -/
def Obligations.SetpixelWrapsCoordinates : Prop :=
  ∀ (x y x' y' : BitVec 16) (on : Bool) (s t : State) (n : Nat), s.cur = none →
    x'.toNat % 224 = x.toNat % 224 → y'.toNat % 240 = y.toNat % 240 →
    (RunsIn (.setpixel x y on) n s t ↔ RunsIn (.setpixel x' y' on) n s t)

/-- 44 R238(a), R240, R256, R258: the no-op cases of the blit commands retire at once with no effect, colour among it. -/
def Obligations.BlitNoOpsDoNothing : Prop :=
  ∀ (x y w h : BitVec 16) (base : Word) (frame : Byte) (on paint : Bool) (color fi ri : Byte) (s : State),
    (w = 0 ∨ h = 0 ∨ base = 0 →
      exec (.drawbmp x y w h base frame on paint color) s = .next { s with cp := s.cp + 4, cur := none }) ∧
    (w = 0 ∨ h = 0 ∨ base = 0 ∨ h ≠ 8 ∨ 16 < w.toNat →
      exec (.drawbmp8 x y w h base frame on paint color) s = .next { s with cp := s.cp + 4, cur := none }) ∧
    exec (.copyfont fi 0 ri) s = .next { s with cp := s.cp + 2, cur := none }

/-- 44 R238(d), R236, R237: DRAWBMP of a frame without a 1 bit allocates nothing and writes no byte of TP or RAMF; with
paint = 1 it still paints every cell its bounding box overlaps, and no other. -/
def Obligations.EmptyFrameOnlyPaints : Prop :=
  ∀ (x y w h : BitVec 16) (base : Word) (frame : Byte) (on paint : Bool) (color : Byte) (s : State), s.MemOk →
    s.cur = none → w ≠ 0 → h ≠ 0 → base ≠ 0 →
    (∀ i j, i < w.toNat → j < h.toNat →
      let stride := (w.toNat + 7) / 8
      let fb := (base.toNat + frame.toNat * h.toNat * stride) % 2 ^ 32
      (s.memROM.read ((fb + j * stride + i / 8) % 2 ^ 32)).getLsbD (7 - i % 8) = false) →
    let x0 := x.toNat % 224
    let y0 := y.toNat % 240
    let nc := (x0 % 8 + w.toNat - 1) / 8 + 1
    let nr := (y0 % 8 + h.toNat - 1) / 8 + 1
    ∃ n t, RunsIn (.drawbmp x y w h base frame on paint color) n s t ∧
      (∀ r k, r < nr → k < nc → paint = true →
        t.memCP.read ((y0 / 8 + r) % 30 * 28 + (x0 / 8 + k) % 28) = color) ∧
      (∀ a, (paint = true → ∀ r k, r < nr → k < nc → a ≠ (y0 / 8 + r) % 30 * 28 + (x0 / 8 + k) % 28) →
        t.memCP.read a = s.memCP.read a) ∧
      t = { s with memCP := t.memCP, cp := s.cp + 4, cur := none }

/-- 44 R244: with h = 8, 1 <= w <= 16 and base != 0, DRAWBMP8 and DRAWBMP, each run from the same state, both retire and leave
the same state. -/
def Obligations.FastAndGenericBlitAgree : Prop :=
  ∀ (x y w h : BitVec 16) (base : Word) (frame : Byte) (on paint : Bool) (color : Byte) (s : State), s.Inv → s.cur = none →
    h = 8 → 1 ≤ w.toNat → w.toNat ≤ 16 → base ≠ 0 →
    ∃ n m t, RunsIn (.drawbmp x y w h base frame on paint color) n s t ∧
      RunsIn (.drawbmp8 x y w h base frame on paint color) m s t

/-- 44 R250: CLEARGRAPH zeroes the dynamic range, rewinds the pool, points every cell at tile 0 and gives every cell the
colour, in (256 - FIRSTFREE) * 8 + 1680 accesses; it leaves the reserved slots and everything else. -/
def Obligations.CleargraphClearsTheScreen : Prop :=
  ∀ (color : Byte) (s : State), s.MemOk → s.cur = none →
    ∃ t, RunsIn (.cleargraph color) ((256 - s.firstFree.toNat) * 8 + 1680) s t ∧
      (∀ a < 840, t.memTP.read a = 0 ∧ t.memCP.read a = color) ∧
      (∀ a, s.firstFree.toNat * 8 ≤ a → a < 2048 → t.memRAMF.read a = 0) ∧
      (∀ a, a < s.firstFree.toNat * 8 → t.memRAMF.read a = s.memRAMF.read a) ∧
      t = { s with memRAMF := t.memRAMF, memTP := t.memTP, memCP := t.memCP, nextFree := s.firstFree,
                   cp := s.cp + 1, cur := none }

/-- 44 R256: COPYFONT copies the eight bytes of a slot of the table at `src` into a slot of RAMF, in eight accesses, and
writes nothing else. -/
def Obligations.CopyfontCopiesOneSlot : Prop :=
  ∀ (fi : Byte) (src : Word) (ri : Byte) (s : State), s.MemOk → s.cur = none → src ≠ 0 →
    ∃ t, RunsIn (.copyfont fi src ri) 8 s t ∧
      (∀ k < 8, t.memRAMF.read (ri.toNat * 8 + k) = s.memROM.read ((src.toNat + fi.toNat * 8 + k) % 2 ^ 32)) ∧
      (∀ a, a < ri.toNat * 8 ∨ ri.toNat * 8 + 8 ≤ a → t.memRAMF.read a = s.memRAMF.read a) ∧
      t = { s with memRAMF := t.memRAMF, cp := s.cp + 2, cur := none }

/-! ### Whole-machine rules -/

/-- 10 R21, 60 R275: every command but START with RUN = 1 answers a next state when it is started: it has retired and cp has
advanced by its length, or it is in flight and cp is still at its first word. -/
def Obligations.EveryCommandStarts : Prop :=
  ∀ (i : Instr) (s : State), s.cur = none → (∀ alt base, i = .start alt base → s.run = false) →
    ∃ t, exec i s = .next t ∧
      (t.cur = none ∧ t.cp = s.cp + i.len ∨ ∃ p, t.cur = some { instr := i, pos := p } ∧ t.cp = s.cp)

/-- 10 R21, 60 R272, R275: a command in flight whose next step is enabled answers a next state: it has retired and cp has
advanced by its length, or it is still in flight and cp is still at its first word. -/
def Obligations.EveryCommandInFlightGoesOn : Prop :=
  ∀ (s : State) (c : InFlight), s.Inv → s.cur = some c → cmdEnabled s = true →
    ∃ t, exec c.instr s = .next t ∧
      (t.cur = none ∧ t.cp = s.cp + c.instr.len ∨ ∃ p, t.cur = some { instr := c.instr, pos := p } ∧ t.cp = s.cp)

/-- 60 R286: WAITF aside, a command in flight, gone on with from any position it reaches, retires after finitely many steps. -/
def Obligations.EveryCommandButWaitfRetires : Prop :=
  ∀ (s : State) (c : InFlight), s.Inv → s.cur = some c → (∀ n, c.instr ≠ .waitf n) → ∃ n t, RunsIn c.instr n s t

/-- 60 R275 with the pseudocode of 40 to 44: every command, run without interruption from where none is in flight, retires
after finitely many steps in the state its pseudocode computes (WAITF n where n = 0). -/
def Obligations.UninterruptedCommandsFollowTheirPseudocode : Prop :=
  ∀ (i : Instr) (s : State), s.cur = none → (∀ alt base, i = .start alt base → s.run = false) →
    (∀ n, i = .waitf n → n = 0) → ∃ n, RunsIn i n s (atomicCommand i s)

/-- 40 R124, 41 R169, 20 R80, R81: ticks and line services write nothing that the foreground's results are made of: neither
does any step of the engine that is not CMD's, wherever it falls between CMD's steps. -/
def Obligations.TimersAndRendererLeaveTheForeground : Prop :=
  (∀ s : State, (tick s).foreground = s.foreground ∧ (lineService s).foreground = s.foreground) ∧
  ∀ s s' : State, step s = .next s' →
    (s.irqPend = true ∨ cmdEnabled s = false ∨ s.run = true ∧ nextTurn s = .tmr) → s'.foreground = s.foreground

/-- 20 R81: for a program with no GETFRAME, WAITF or not, the memories, the allocator registers, RESULT and the source registers
when the program has retired are a function of prog, rom and the reset contents alone, whatever the schedule. -/
def Obligations.ResultsDoNotDependOnTheSchedule : Prop :=
  ∀ (cfg : Cfg) (rom : Memory) (prog : List Word) (tp cpl ramf : Memory) (sched sched' : List Turn) (n n' : Nat) (t t' : State),
    NoGetframe prog →
    core.run n (State.resetWith cfg rom prog sched tp cpl ramf) = .next t → t.finished →
    core.run n' (State.resetWith cfg rom prog sched' tp cpl ramf) = .next t' → t'.finished →
    t.memTP = t'.memTP ∧ t.memCP = t'.memCP ∧ t.memRAMF = t'.memRAMF ∧ t.firstFree = t'.firstFree ∧
      t.nextFree = t'.nextFree ∧ t.result = t'.result ∧ t.srcSel = t'.srcSel ∧ t.fontBase = t'.fontBase ∧
      t.latcomp = t'.latcomp

/-- 70 R313: COPYFONT is the only command that can write RAMF[0..7]. -/
def Obligations.OnlyCopyfontWritesSlotZero : Prop :=
  ∀ (s s' : State) (a : Nat), s.Inv → step s = .next s' → a < 8 → s'.memRAMF.read a ≠ s.memRAMF.read a →
    ∃ fi src ri, fetch s = .ok (.copyfont fi src ri) ∧ s.irqPend = false

/-- The command whose bits are put where the next step fetches is what that step runs (log 11). -/
def Obligations.FetchWordIsWhatRunsNext : Prop :=
  ∀ (s : State) (nbits w : Nat) (i : Instr), decodeTableWord nbits w = some i →
    fetch (s.withFetchWord nbits w) = .ok i ∧
    step (s.withFetchWord nbits w) = exec i { s.withFetchWord nbits w with sched := s.sched }
end

