-- ==== Sys2Proof/Laws/Memory.lean ====
section
/-! SUPPORT. The laws of a byte memory: what a read after a write gives, that a write keeps the canonical form, and that in
canonical form equal contents are equal lists. -/

namespace Sys2Proof.Machine

@[simp] theorem read_nil (a : Nat) : Memory.read [] a = unlistedByte := rfl

theorem read_cons (b : Nat) (v : Byte) (m : Memory) (a : Nat) :
    Memory.read ((b, v) :: m) a = if b = a then v else Memory.read m a := rfl

/-- An address below every listed one is unlisted. -/
theorem read_below {m : Memory} {a : Nat} (h : ∀ c ∈ m, a < c.1) : m.read a = unlistedByte := by
  induction m with
  | nil => rfl
  | cons c m ih =>
    obtain ⟨b, v⟩ := c
    have hb : a < b := h _ (.head _)
    rw [read_cons, if_neg (by omega), ih fun c hc => h c (.tail _ hc)]

/-- In a canonical memory, the entries after the first lie above it. -/
theorem WF_cons {n b : Nat} {v : Byte} {m : Memory} :
    Memory.WF n ((b, v) :: m) ↔ (∀ c ∈ m, b < c.1) ∧ b < n ∧ v ≠ unlistedByte ∧ Memory.WF n m := by
  simp only [Memory.WF, List.pairwise_cons, List.forall_mem_cons]
  tauto

theorem WF_nil (n : Nat) : Memory.WF n [] := by simp [Memory.WF]

/-- Every entry of a written memory is the new one or an old one. -/
theorem mem_write {m : Memory} {a : Nat} {v : Byte} {c : Host.Cell} (h : c ∈ m.write a v) : c = (a, v) ∨ c ∈ m := by
  induction m with
  | nil =>
    simp only [Memory.write] at h
    split at h <;> simp_all
  | cons d m ih =>
    obtain ⟨b, w⟩ := d
    simp only [Memory.write] at h
    split at h
    · split at h <;> simp_all
    · split at h
      · split at h
        · exact .inr (.tail _ h)
        · exact (List.mem_cons.1 h).imp_right (.tail _)
      · rcases List.mem_cons.1 h with rfl | h
        · exact .inr (.head _)
        · exact (ih h).imp_right (.tail _)

/-- A write inside the memory keeps the canonical form. -/
theorem write_WF {n : Nat} {m : Memory} {a : Nat} (v : Byte) (h : Memory.WF n m) (ha : a < n) : Memory.WF n (m.write a v) := by
  induction m with
  | nil =>
    simp only [Memory.write]
    split
    · exact WF_nil n
    · exact WF_cons.2 ⟨by simp, ha, ‹_›, WF_nil n⟩
  | cons d m ih =>
    obtain ⟨b, w⟩ := d
    obtain ⟨hb, hbn, hw, hm⟩ := WF_cons.1 h
    simp only [Memory.write]
    split
    · split
      · exact h
      · refine WF_cons.2 ⟨fun c hc => ?_, ha, ‹_›, h⟩
        rcases List.mem_cons.1 hc with rfl | hc
        · assumption
        · have := hb c hc
          omega
    · split
      · subst_vars
        split
        · exact hm
        · exact WF_cons.2 ⟨hb, ha, ‹_›, hm⟩
      · refine WF_cons.2 ⟨fun c hc => ?_, hbn, hw, ih hm⟩
        rcases mem_write hc with rfl | hc
        · simp only
          omega
        · exact hb c hc

/-- A read after a write: the byte written at its own address, the old byte elsewhere. -/
theorem read_write {n : Nat} {m : Memory} (h : Memory.WF n m) (a b : Nat) (v : Byte) :
    (m.write a v).read b = if a = b then v else m.read b := by
  induction m with
  | nil =>
    simp only [Memory.write]
    split <;> simp_all [read_cons]
  | cons d m ih =>
    obtain ⟨c, w⟩ := d
    obtain ⟨hc, -, -, hm⟩ := WF_cons.1 h
    have below : ∀ x, x ≤ c → Memory.read m x = unlistedByte := fun x hx =>
      read_below fun e he => lt_of_le_of_lt hx (hc e he)
    simp only [Memory.write]
    split
    · rename_i hac
      split
      · rename_i hv
        split
        · subst_vars
          rw [read_cons, if_neg (by omega), below _ (by omega)]
        · rfl
      · rw [read_cons]
    · split
      · subst_vars
        split
        · subst_vars
          split
          · subst_vars
            exact below _ le_rfl
          · rw [read_cons, if_neg ‹_›]
        · rw [read_cons]
          split <;> simp_all [read_cons]
      · rw [read_cons, ih hm, read_cons]
        split
        · rw [if_neg (by omega)]
        · rfl

@[simp] theorem read_write_same {n : Nat} {m : Memory} (h : Memory.WF n m) (a : Nat) (v : Byte) : (m.write a v).read a = v := by
  rw [read_write h, if_pos rfl]

theorem read_write_other {n : Nat} {m : Memory} (h : Memory.WF n m) {a b : Nat} (v : Byte) (hab : a ≠ b) :
    (m.write a v).read b = m.read b := by
  rw [read_write h, if_neg hab]

/-- In a canonical memory a listed entry is what its address reads as. -/
theorem read_of_mem {n : Nat} {m : Memory} (h : Memory.WF n m) {c : Host.Cell} (hc : c ∈ m) : m.read c.1 = c.2 := by
  induction m with
  | nil => simp at hc
  | cons d m ih =>
    obtain ⟨b, v⟩ := d
    obtain ⟨hb, -, -, hm⟩ := WF_cons.1 h
    rcases List.mem_cons.1 hc with rfl | hc
    · simp [read_cons]
    · have := hb c hc
      rw [read_cons, if_neg (by omega), ih hm hc]

/-- In canonical form, equal contents are equal lists. -/
theorem memory_ext {n : Nat} {m m' : Memory} (h : Memory.WF n m) (h' : Memory.WF n m') (eq : ∀ a, m.read a = m'.read a) :
    m = m' := by
  induction m generalizing m' with
  | nil =>
    cases m' with
    | nil => rfl
    | cons d m' =>
      obtain ⟨b, v⟩ := d
      have := eq b
      rw [read_cons, if_pos rfl] at this
      exact absurd this.symm (WF_cons.1 h').2.2.1
  | cons d m ih =>
    obtain ⟨b, v⟩ := d
    obtain ⟨hb, -, hv, hm⟩ := WF_cons.1 h
    cases m' with
    | nil =>
      have := eq b
      rw [read_cons, if_pos rfl] at this
      exact absurd this hv
    | cons d' m' =>
      obtain ⟨b', v'⟩ := d'
      obtain ⟨hb', -, hv', hm'⟩ := WF_cons.1 h'
      have low : b = b' := by
        rcases lt_trichotomy b b' with hlt | rfl | hlt
        · have := eq b
          rw [read_cons, if_pos rfl, read_below (fun c hc => ?_)] at this
          · exact absurd this hv
          · rcases List.mem_cons.1 hc with rfl | hc
            · exact hlt
            · exact hlt.trans (hb' c hc)
        · rfl
        · have := eq b'
          rw [read_cons b' v', if_pos rfl, read_below (fun c hc => ?_)] at this
          · exact absurd this.symm hv'
          · rcases List.mem_cons.1 hc with rfl | hc
            · exact hlt
            · exact hlt.trans (hb c hc)
      subst low
      have hvv : v = v' := by simpa [read_cons] using eq b
      subst hvv
      rw [ih hm hm' fun a => ?_]
      by_cases hab : b = a
      · subst hab
        rw [read_below fun c hc => hb c hc, read_below fun c hc => hb' c hc]
      · simpa [read_cons, hab] using eq a

/-- The memory that a free list stands for is in canonical form, whatever the free value is. -/
theorem ofFree_WF (size : Nat) (m : Memory) : Memory.WF size (Memory.ofFree size m) := by
  unfold Memory.ofFree
  split
  · assumption
  · exact WF_nil _

theorem romImage_WF : Memory.WF Config.romSize romImage := ofFree_WF _ _
theorem tpImage_WF : Memory.WF Config.cells tpImage := ofFree_WF _ _
theorem cpImage_WF : Memory.WF Config.cells cpImage := ofFree_WF _ _
theorem ramfImage_WF : Memory.WF Config.ramfSize ramfImage := ofFree_WF _ _

end Sys2Proof.Machine
end

