-- ==== Sys2Proof/Laws/Operands.lean ====
section
/-! SUPPORT. The laws of the index computations: every index lies inside its memory, and what the search for the next access
finds. -/

namespace Sys2Proof.Machine

/-- Every cell index lies inside TP and CP (20 R61, R76). -/
theorem cell_lt (cx cy : Nat) : cell cx cy < Config.cells := by
  simp only [cell, Config.cells, Config.gridH, Config.gridW]
  omega

theorem cell_eq (cx cy : Nat) : cell cx cy = cy % 30 * 28 + cx % 28 := rfl

/-- The cell index sees its coordinates modulo the grid (20 R61). -/
theorem cell_congr {cx cy cx' cy' : Nat} (hx : cx' % 28 = cx % 28) (hy : cy' % 30 = cy % 30) : cell cx' cy' = cell cx cy := by
  simp only [cell, Config.gridH, Config.gridW, hx, hy]

/-- Two cell indexes agree only where the coordinates agree modulo the grid (20 R61). -/
theorem cell_inj {cx cy cx' cy' : Nat} (h : cell cx' cy' = cell cx cy) : cx' % 28 = cx % 28 ∧ cy' % 30 = cy % 30 := by
  simp only [cell, Config.gridH, Config.gridW] at h
  omega

/-- Below the number of cells the index of row a div 28 and column a mod 28 is a. -/
theorem cell_div_mod {a : Nat} (h : a < Config.cells) : cell (a % 28) (a / 28) = a := by
  simp only [cell, Config.cells, Config.gridH, Config.gridW] at *
  omega

theorem wrapX_lt (x : Nat) : wrapX x < Config.pixW := Nat.mod_lt _ (by decide)

theorem wrapY_lt (y : Nat) : wrapY y < Config.pixH := Nat.mod_lt _ (by decide)

theorem pixelCell_lt (x y : Nat) : pixelCell x y < Config.cells := cell_lt _ _

/-- The cell of a pixel, without the modulus that does nothing there (20 R62). -/
theorem pixelCell_eq (x y : Nat) : pixelCell x y = y % 240 / 8 * 28 + x % 224 / 8 := by
  simp only [pixelCell, cell, wrapX, wrapY, Config.gridH, Config.gridW, Config.pixW, Config.pixH]
  omega

/-- A row of a slot lies inside RAMF (20 R63, R76). -/
theorem slotRow_lt (t : Byte) {r : Nat} (h : r < 8) : slotRow t r < Config.ramfSize := by
  have := t.isLt
  simp only [slotRow, Config.ramfSize]
  omega

theorem pixelRow_lt (t : Byte) (y : Nat) : pixelRow t y < Config.ramfSize := slotRow_lt t (Nat.mod_lt _ (by decide))

/-- A row of a slot other than slot 0 lies past RAMF[7] (70 R313). -/
theorem slotRow_ge {t : Byte} (h : t ≠ 0) (r : Nat) : 8 ≤ slotRow t r := by
  have : t.toNat ≠ 0 := fun h' => h (BitVec.eq_of_toNat_eq (by simpa using h'))
  simp only [slotRow]
  omega

/-- Two rows of slots are one byte only where slot and row agree (20 R63). -/
theorem slotRow_inj {t t' : Byte} {r r' : Nat} (hr : r < 8) (hr' : r' < 8) (h : slotRow t r = slotRow t' r') :
    t = t' ∧ r = r' := by
  simp only [slotRow] at h
  exact ⟨BitVec.eq_of_toNat_eq (by omega), by omega⟩

/-- What the search finds is the least number from `k` on that has the property. -/
theorem findFrom_some {f : Nat → Bool} {n k q : Nat} (h : findFrom f n k = some q) :
    k ≤ q ∧ q < k + n ∧ f q = true ∧ ∀ p, k ≤ p → p < q → f p = false := by
  induction n generalizing k with
  | zero => simp [findFrom] at h
  | succ n ih =>
    simp only [findFrom] at h
    split at h
    · cases h
      exact ⟨le_rfl, by omega, ‹_›, fun p _ _ => by omega⟩
    · rename_i hk
      obtain ⟨h1, h2, h3, h4⟩ := ih h
      refine ⟨by omega, by omega, h3, fun p hp hq => ?_⟩
      rcases Nat.lt_or_ge k p with hkp | hkp
      · exact h4 p hkp hq
      · obtain rfl : p = k := by omega
        simpa using hk

/-- What a search over the rest of the numbers below `m` finds lies below `m`. -/
theorem findFrom_lt {f : Nat → Bool} {m k q : Nat} (h : findFrom f (m - k) k = some q) : q < m := by
  rcases Nat.lt_or_ge k m with hk | hk
  · have := (findFrom_some h).2.1
    omega
  · rw [Nat.sub_eq_zero_of_le hk] at h
    cases h

/-- The search finds nothing exactly where no number of its range has the property. -/
theorem findFrom_none {f : Nat → Bool} {n k : Nat} : findFrom f n k = none ↔ ∀ p, k ≤ p → p < k + n → f p = false := by
  induction n generalizing k with
  | zero => simp [findFrom]; omega
  | succ n ih =>
    simp only [findFrom]
    split
    · simp only [reduceCtorEq, false_iff, not_forall]
      exact ⟨k, le_rfl, by omega, by simp [*]⟩
    · rename_i hk
      rw [ih]
      constructor
      · intro h p hp hq
        rcases Nat.lt_or_ge k p with hkp | hkp
        · exact h p hkp (by omega)
        · obtain rfl : p = k := by omega
          simpa using hk
      · exact fun h p hp hq => h p (by omega) (by omega)

/-- Where nothing from `k` to `q` has the property, the search from `k` is the search from `q`. -/
theorem findFrom_skip {f : Nat → Bool} {n k : Nat} (h : f k = false) : findFrom f (n + 1) k = findFrom f n (k + 1) := by
  simp [findFrom, h]

theorem findFrom_hit {f : Nat → Bool} {n k : Nat} (h : f k = true) : findFrom f (n + 1) k = some k := by
  simp [findFrom, h]

/-- A sprite of at most 16 columns has at most two bytes a row (44 R242). -/
theorem stride_le {w : Nat} (h : w ≤ 16) : stride w ≤ 2 := by
  simp only [stride]
  omega

section
variable (d : Sprite)

theorem Sprite.sx_lt : d.sx < 8 := Nat.mod_lt _ (by decide)

theorem Sprite.sy_lt : d.sy < 8 := Nat.mod_lt _ (by decide)

theorem Sprite.nc_pos : 0 < d.nc := Nat.succ_pos _

theorem Sprite.nr_pos : 0 < d.nr := Nat.succ_pos _

/-- A sprite of at most 16 columns overlaps at most three cell columns (44 R242). -/
theorem Sprite.nc_le (h : d.w ≤ 16) : d.nc ≤ 3 := by
  have := d.sx_lt
  simp only [Sprite.nc, cellsOver]
  omega

/-- The eight rows of a DRAWBMP8 sprite land in two cell rows at most (44 R242). -/
theorem Sprite.cellRow_lt {j : Nat} (h : j < 8) : d.cellRow j < 2 := by
  have := d.sy_lt
  simp only [Sprite.cellRow]
  omega

end

end Sys2Proof.Machine
end

