-- ==== Sys2Proof/Laws/State.lean ====
section
/-! SUPPORT. What each named update of the state does to each field, one lemma per field, so that no proof unfolds a record
update. -/

namespace Sys2Proof.Machine

section writeTP
variable (a : Nat) (v : Byte) (s : State)
@[simp] theorem writeTP_cp : (writeTP a v s).cp = s.cp := rfl
@[simp] theorem writeTP_result : (writeTP a v s).result = s.result := rfl
@[simp] theorem writeTP_run : (writeTP a v s).run = s.run := rfl
@[simp] theorem writeTP_irqPend : (writeTP a v s).irqPend = s.irqPend := rfl
@[simp] theorem writeTP_videoActive : (writeTP a v s).videoActive = s.videoActive := rfl
@[simp] theorem writeTP_phase : (writeTP a v s).phase = s.phase := rfl
@[simp] theorem writeTP_tickOwned : (writeTP a v s).tickOwned = s.tickOwned := rfl
@[simp] theorem writeTP_cmdFault : (writeTP a v s).cmdFault = s.cmdFault := rfl
@[simp] theorem writeTP_cause : (writeTP a v s).cause = s.cause := rfl
@[simp] theorem writeTP_srcSel : (writeTP a v s).srcSel = s.srcSel := rfl
@[simp] theorem writeTP_fontBase : (writeTP a v s).fontBase = s.fontBase := rfl
@[simp] theorem writeTP_latcomp : (writeTP a v s).latcomp = s.latcomp := rfl
@[simp] theorem writeTP_hcnt : (writeTP a v s).hcnt = s.hcnt := rfl
@[simp] theorem writeTP_vcnt : (writeTP a v s).vcnt = s.vcnt := rfl
@[simp] theorem writeTP_frameCount : (writeTP a v s).frameCount = s.frameCount := rfl
@[simp] theorem writeTP_scan : (writeTP a v s).scan = s.scan := rfl
@[simp] theorem writeTP_firstFree : (writeTP a v s).firstFree = s.firstFree := rfl
@[simp] theorem writeTP_nextFree : (writeTP a v s).nextFree = s.nextFree := rfl
@[simp] theorem writeTP_memTP : (writeTP a v s).memTP = s.memTP.write a v := rfl
@[simp] theorem writeTP_memCP : (writeTP a v s).memCP = s.memCP := rfl
@[simp] theorem writeTP_memRAMF : (writeTP a v s).memRAMF = s.memRAMF := rfl
@[simp] theorem writeTP_linebuf : (writeTP a v s).linebuf = s.linebuf := rfl
@[simp] theorem writeTP_lineActive : (writeTP a v s).lineActive = s.lineActive := rfl
@[simp] theorem writeTP_lineSrc : (writeTP a v s).lineSrc = s.lineSrc := rfl
@[simp] theorem writeTP_lineLatcomp : (writeTP a v s).lineLatcomp = s.lineLatcomp := rfl
@[simp] theorem writeTP_cur : (writeTP a v s).cur = s.cur := rfl
@[simp] theorem writeTP_out : (writeTP a v s).out = s.out := rfl
@[simp] theorem writeTP_cfg : (writeTP a v s).cfg = s.cfg := rfl
@[simp] theorem writeTP_memROM : (writeTP a v s).memROM = s.memROM := rfl
@[simp] theorem writeTP_prog : (writeTP a v s).prog = s.prog := rfl
@[simp] theorem writeTP_sched : (writeTP a v s).sched = s.sched := rfl
@[simp] theorem writeTP_turnCount : (writeTP a v s).turnCount = s.turnCount := rfl
end writeTP

section writeCP
variable (a : Nat) (v : Byte) (s : State)
@[simp] theorem writeCP_cp : (writeCP a v s).cp = s.cp := rfl
@[simp] theorem writeCP_result : (writeCP a v s).result = s.result := rfl
@[simp] theorem writeCP_run : (writeCP a v s).run = s.run := rfl
@[simp] theorem writeCP_irqPend : (writeCP a v s).irqPend = s.irqPend := rfl
@[simp] theorem writeCP_videoActive : (writeCP a v s).videoActive = s.videoActive := rfl
@[simp] theorem writeCP_phase : (writeCP a v s).phase = s.phase := rfl
@[simp] theorem writeCP_tickOwned : (writeCP a v s).tickOwned = s.tickOwned := rfl
@[simp] theorem writeCP_cmdFault : (writeCP a v s).cmdFault = s.cmdFault := rfl
@[simp] theorem writeCP_cause : (writeCP a v s).cause = s.cause := rfl
@[simp] theorem writeCP_srcSel : (writeCP a v s).srcSel = s.srcSel := rfl
@[simp] theorem writeCP_fontBase : (writeCP a v s).fontBase = s.fontBase := rfl
@[simp] theorem writeCP_latcomp : (writeCP a v s).latcomp = s.latcomp := rfl
@[simp] theorem writeCP_hcnt : (writeCP a v s).hcnt = s.hcnt := rfl
@[simp] theorem writeCP_vcnt : (writeCP a v s).vcnt = s.vcnt := rfl
@[simp] theorem writeCP_frameCount : (writeCP a v s).frameCount = s.frameCount := rfl
@[simp] theorem writeCP_scan : (writeCP a v s).scan = s.scan := rfl
@[simp] theorem writeCP_firstFree : (writeCP a v s).firstFree = s.firstFree := rfl
@[simp] theorem writeCP_nextFree : (writeCP a v s).nextFree = s.nextFree := rfl
@[simp] theorem writeCP_memTP : (writeCP a v s).memTP = s.memTP := rfl
@[simp] theorem writeCP_memCP : (writeCP a v s).memCP = s.memCP.write a v := rfl
@[simp] theorem writeCP_memRAMF : (writeCP a v s).memRAMF = s.memRAMF := rfl
@[simp] theorem writeCP_linebuf : (writeCP a v s).linebuf = s.linebuf := rfl
@[simp] theorem writeCP_lineActive : (writeCP a v s).lineActive = s.lineActive := rfl
@[simp] theorem writeCP_lineSrc : (writeCP a v s).lineSrc = s.lineSrc := rfl
@[simp] theorem writeCP_lineLatcomp : (writeCP a v s).lineLatcomp = s.lineLatcomp := rfl
@[simp] theorem writeCP_cur : (writeCP a v s).cur = s.cur := rfl
@[simp] theorem writeCP_out : (writeCP a v s).out = s.out := rfl
@[simp] theorem writeCP_cfg : (writeCP a v s).cfg = s.cfg := rfl
@[simp] theorem writeCP_memROM : (writeCP a v s).memROM = s.memROM := rfl
@[simp] theorem writeCP_prog : (writeCP a v s).prog = s.prog := rfl
@[simp] theorem writeCP_sched : (writeCP a v s).sched = s.sched := rfl
@[simp] theorem writeCP_turnCount : (writeCP a v s).turnCount = s.turnCount := rfl
end writeCP

section writeRAMF
variable (a : Nat) (v : Byte) (s : State)
@[simp] theorem writeRAMF_cp : (writeRAMF a v s).cp = s.cp := rfl
@[simp] theorem writeRAMF_result : (writeRAMF a v s).result = s.result := rfl
@[simp] theorem writeRAMF_run : (writeRAMF a v s).run = s.run := rfl
@[simp] theorem writeRAMF_irqPend : (writeRAMF a v s).irqPend = s.irqPend := rfl
@[simp] theorem writeRAMF_videoActive : (writeRAMF a v s).videoActive = s.videoActive := rfl
@[simp] theorem writeRAMF_phase : (writeRAMF a v s).phase = s.phase := rfl
@[simp] theorem writeRAMF_tickOwned : (writeRAMF a v s).tickOwned = s.tickOwned := rfl
@[simp] theorem writeRAMF_cmdFault : (writeRAMF a v s).cmdFault = s.cmdFault := rfl
@[simp] theorem writeRAMF_cause : (writeRAMF a v s).cause = s.cause := rfl
@[simp] theorem writeRAMF_srcSel : (writeRAMF a v s).srcSel = s.srcSel := rfl
@[simp] theorem writeRAMF_fontBase : (writeRAMF a v s).fontBase = s.fontBase := rfl
@[simp] theorem writeRAMF_latcomp : (writeRAMF a v s).latcomp = s.latcomp := rfl
@[simp] theorem writeRAMF_hcnt : (writeRAMF a v s).hcnt = s.hcnt := rfl
@[simp] theorem writeRAMF_vcnt : (writeRAMF a v s).vcnt = s.vcnt := rfl
@[simp] theorem writeRAMF_frameCount : (writeRAMF a v s).frameCount = s.frameCount := rfl
@[simp] theorem writeRAMF_scan : (writeRAMF a v s).scan = s.scan := rfl
@[simp] theorem writeRAMF_firstFree : (writeRAMF a v s).firstFree = s.firstFree := rfl
@[simp] theorem writeRAMF_nextFree : (writeRAMF a v s).nextFree = s.nextFree := rfl
@[simp] theorem writeRAMF_memTP : (writeRAMF a v s).memTP = s.memTP := rfl
@[simp] theorem writeRAMF_memCP : (writeRAMF a v s).memCP = s.memCP := rfl
@[simp] theorem writeRAMF_memRAMF : (writeRAMF a v s).memRAMF = s.memRAMF.write a v := rfl
@[simp] theorem writeRAMF_linebuf : (writeRAMF a v s).linebuf = s.linebuf := rfl
@[simp] theorem writeRAMF_lineActive : (writeRAMF a v s).lineActive = s.lineActive := rfl
@[simp] theorem writeRAMF_lineSrc : (writeRAMF a v s).lineSrc = s.lineSrc := rfl
@[simp] theorem writeRAMF_lineLatcomp : (writeRAMF a v s).lineLatcomp = s.lineLatcomp := rfl
@[simp] theorem writeRAMF_cur : (writeRAMF a v s).cur = s.cur := rfl
@[simp] theorem writeRAMF_out : (writeRAMF a v s).out = s.out := rfl
@[simp] theorem writeRAMF_cfg : (writeRAMF a v s).cfg = s.cfg := rfl
@[simp] theorem writeRAMF_memROM : (writeRAMF a v s).memROM = s.memROM := rfl
@[simp] theorem writeRAMF_prog : (writeRAMF a v s).prog = s.prog := rfl
@[simp] theorem writeRAMF_sched : (writeRAMF a v s).sched = s.sched := rfl
@[simp] theorem writeRAMF_turnCount : (writeRAMF a v s).turnCount = s.turnCount := rfl
end writeRAMF

section setResult
variable (v : Word) (s : State)
@[simp] theorem setResult_cp : (setResult v s).cp = s.cp := rfl
@[simp] theorem setResult_result : (setResult v s).result = v := rfl
@[simp] theorem setResult_run : (setResult v s).run = s.run := rfl
@[simp] theorem setResult_irqPend : (setResult v s).irqPend = s.irqPend := rfl
@[simp] theorem setResult_videoActive : (setResult v s).videoActive = s.videoActive := rfl
@[simp] theorem setResult_phase : (setResult v s).phase = s.phase := rfl
@[simp] theorem setResult_tickOwned : (setResult v s).tickOwned = s.tickOwned := rfl
@[simp] theorem setResult_cmdFault : (setResult v s).cmdFault = s.cmdFault := rfl
@[simp] theorem setResult_cause : (setResult v s).cause = s.cause := rfl
@[simp] theorem setResult_srcSel : (setResult v s).srcSel = s.srcSel := rfl
@[simp] theorem setResult_fontBase : (setResult v s).fontBase = s.fontBase := rfl
@[simp] theorem setResult_latcomp : (setResult v s).latcomp = s.latcomp := rfl
@[simp] theorem setResult_hcnt : (setResult v s).hcnt = s.hcnt := rfl
@[simp] theorem setResult_vcnt : (setResult v s).vcnt = s.vcnt := rfl
@[simp] theorem setResult_frameCount : (setResult v s).frameCount = s.frameCount := rfl
@[simp] theorem setResult_scan : (setResult v s).scan = s.scan := rfl
@[simp] theorem setResult_firstFree : (setResult v s).firstFree = s.firstFree := rfl
@[simp] theorem setResult_nextFree : (setResult v s).nextFree = s.nextFree := rfl
@[simp] theorem setResult_memTP : (setResult v s).memTP = s.memTP := rfl
@[simp] theorem setResult_memCP : (setResult v s).memCP = s.memCP := rfl
@[simp] theorem setResult_memRAMF : (setResult v s).memRAMF = s.memRAMF := rfl
@[simp] theorem setResult_linebuf : (setResult v s).linebuf = s.linebuf := rfl
@[simp] theorem setResult_lineActive : (setResult v s).lineActive = s.lineActive := rfl
@[simp] theorem setResult_lineSrc : (setResult v s).lineSrc = s.lineSrc := rfl
@[simp] theorem setResult_lineLatcomp : (setResult v s).lineLatcomp = s.lineLatcomp := rfl
@[simp] theorem setResult_cur : (setResult v s).cur = s.cur := rfl
@[simp] theorem setResult_out : (setResult v s).out = s.out := rfl
@[simp] theorem setResult_cfg : (setResult v s).cfg = s.cfg := rfl
@[simp] theorem setResult_memROM : (setResult v s).memROM = s.memROM := rfl
@[simp] theorem setResult_prog : (setResult v s).prog = s.prog := rfl
@[simp] theorem setResult_sched : (setResult v s).sched = s.sched := rfl
@[simp] theorem setResult_turnCount : (setResult v s).turnCount = s.turnCount := rfl
end setResult

section retire
variable (i : Instr) (s : State)
@[simp] theorem retire_cp : (retire i s).cp = s.cp + i.len := rfl
@[simp] theorem retire_result : (retire i s).result = s.result := rfl
@[simp] theorem retire_run : (retire i s).run = s.run := rfl
@[simp] theorem retire_irqPend : (retire i s).irqPend = s.irqPend := rfl
@[simp] theorem retire_videoActive : (retire i s).videoActive = s.videoActive := rfl
@[simp] theorem retire_phase : (retire i s).phase = s.phase := rfl
@[simp] theorem retire_tickOwned : (retire i s).tickOwned = s.tickOwned := rfl
@[simp] theorem retire_cmdFault : (retire i s).cmdFault = s.cmdFault := rfl
@[simp] theorem retire_cause : (retire i s).cause = s.cause := rfl
@[simp] theorem retire_srcSel : (retire i s).srcSel = s.srcSel := rfl
@[simp] theorem retire_fontBase : (retire i s).fontBase = s.fontBase := rfl
@[simp] theorem retire_latcomp : (retire i s).latcomp = s.latcomp := rfl
@[simp] theorem retire_hcnt : (retire i s).hcnt = s.hcnt := rfl
@[simp] theorem retire_vcnt : (retire i s).vcnt = s.vcnt := rfl
@[simp] theorem retire_frameCount : (retire i s).frameCount = s.frameCount := rfl
@[simp] theorem retire_scan : (retire i s).scan = s.scan := rfl
@[simp] theorem retire_firstFree : (retire i s).firstFree = s.firstFree := rfl
@[simp] theorem retire_nextFree : (retire i s).nextFree = s.nextFree := rfl
@[simp] theorem retire_memTP : (retire i s).memTP = s.memTP := rfl
@[simp] theorem retire_memCP : (retire i s).memCP = s.memCP := rfl
@[simp] theorem retire_memRAMF : (retire i s).memRAMF = s.memRAMF := rfl
@[simp] theorem retire_linebuf : (retire i s).linebuf = s.linebuf := rfl
@[simp] theorem retire_lineActive : (retire i s).lineActive = s.lineActive := rfl
@[simp] theorem retire_lineSrc : (retire i s).lineSrc = s.lineSrc := rfl
@[simp] theorem retire_lineLatcomp : (retire i s).lineLatcomp = s.lineLatcomp := rfl
@[simp] theorem retire_cur : (retire i s).cur = none := rfl
@[simp] theorem retire_out : (retire i s).out = s.out := rfl
@[simp] theorem retire_cfg : (retire i s).cfg = s.cfg := rfl
@[simp] theorem retire_memROM : (retire i s).memROM = s.memROM := rfl
@[simp] theorem retire_prog : (retire i s).prog = s.prog := rfl
@[simp] theorem retire_sched : (retire i s).sched = s.sched := rfl
@[simp] theorem retire_turnCount : (retire i s).turnCount = s.turnCount := rfl
end retire

section hold
variable (i : Instr) (p : Pos) (s : State)
@[simp] theorem hold_cp : (hold i p s).cp = s.cp := rfl
@[simp] theorem hold_result : (hold i p s).result = s.result := rfl
@[simp] theorem hold_run : (hold i p s).run = s.run := rfl
@[simp] theorem hold_irqPend : (hold i p s).irqPend = s.irqPend := rfl
@[simp] theorem hold_videoActive : (hold i p s).videoActive = s.videoActive := rfl
@[simp] theorem hold_phase : (hold i p s).phase = s.phase := rfl
@[simp] theorem hold_tickOwned : (hold i p s).tickOwned = s.tickOwned := rfl
@[simp] theorem hold_cmdFault : (hold i p s).cmdFault = s.cmdFault := rfl
@[simp] theorem hold_cause : (hold i p s).cause = s.cause := rfl
@[simp] theorem hold_srcSel : (hold i p s).srcSel = s.srcSel := rfl
@[simp] theorem hold_fontBase : (hold i p s).fontBase = s.fontBase := rfl
@[simp] theorem hold_latcomp : (hold i p s).latcomp = s.latcomp := rfl
@[simp] theorem hold_hcnt : (hold i p s).hcnt = s.hcnt := rfl
@[simp] theorem hold_vcnt : (hold i p s).vcnt = s.vcnt := rfl
@[simp] theorem hold_frameCount : (hold i p s).frameCount = s.frameCount := rfl
@[simp] theorem hold_scan : (hold i p s).scan = s.scan := rfl
@[simp] theorem hold_firstFree : (hold i p s).firstFree = s.firstFree := rfl
@[simp] theorem hold_nextFree : (hold i p s).nextFree = s.nextFree := rfl
@[simp] theorem hold_memTP : (hold i p s).memTP = s.memTP := rfl
@[simp] theorem hold_memCP : (hold i p s).memCP = s.memCP := rfl
@[simp] theorem hold_memRAMF : (hold i p s).memRAMF = s.memRAMF := rfl
@[simp] theorem hold_linebuf : (hold i p s).linebuf = s.linebuf := rfl
@[simp] theorem hold_lineActive : (hold i p s).lineActive = s.lineActive := rfl
@[simp] theorem hold_lineSrc : (hold i p s).lineSrc = s.lineSrc := rfl
@[simp] theorem hold_lineLatcomp : (hold i p s).lineLatcomp = s.lineLatcomp := rfl
@[simp] theorem hold_cur : (hold i p s).cur = some { instr := i, pos := p } := rfl
@[simp] theorem hold_out : (hold i p s).out = s.out := rfl
@[simp] theorem hold_cfg : (hold i p s).cfg = s.cfg := rfl
@[simp] theorem hold_memROM : (hold i p s).memROM = s.memROM := rfl
@[simp] theorem hold_prog : (hold i p s).prog = s.prog := rfl
@[simp] theorem hold_sched : (hold i p s).sched = s.sched := rfl
@[simp] theorem hold_turnCount : (hold i p s).turnCount = s.turnCount := rfl
end hold

section raiseCmdFault
variable (cause : BitVec 2) (s : State)
@[simp] theorem raiseCmdFault_cp : (raiseCmdFault cause s).cp = s.cp := rfl
@[simp] theorem raiseCmdFault_result : (raiseCmdFault cause s).result = s.result := rfl
@[simp] theorem raiseCmdFault_run : (raiseCmdFault cause s).run = s.run := rfl
@[simp] theorem raiseCmdFault_irqPend : (raiseCmdFault cause s).irqPend = s.irqPend := rfl
@[simp] theorem raiseCmdFault_videoActive : (raiseCmdFault cause s).videoActive = s.videoActive := rfl
@[simp] theorem raiseCmdFault_phase : (raiseCmdFault cause s).phase = s.phase := rfl
@[simp] theorem raiseCmdFault_tickOwned : (raiseCmdFault cause s).tickOwned = s.tickOwned := rfl
@[simp] theorem raiseCmdFault_cmdFault : (raiseCmdFault cause s).cmdFault = true := rfl
@[simp] theorem raiseCmdFault_cause : (raiseCmdFault cause s).cause = if s.cmdFault then s.cause else cause := rfl
@[simp] theorem raiseCmdFault_srcSel : (raiseCmdFault cause s).srcSel = s.srcSel := rfl
@[simp] theorem raiseCmdFault_fontBase : (raiseCmdFault cause s).fontBase = s.fontBase := rfl
@[simp] theorem raiseCmdFault_latcomp : (raiseCmdFault cause s).latcomp = s.latcomp := rfl
@[simp] theorem raiseCmdFault_hcnt : (raiseCmdFault cause s).hcnt = s.hcnt := rfl
@[simp] theorem raiseCmdFault_vcnt : (raiseCmdFault cause s).vcnt = s.vcnt := rfl
@[simp] theorem raiseCmdFault_frameCount : (raiseCmdFault cause s).frameCount = s.frameCount := rfl
@[simp] theorem raiseCmdFault_scan : (raiseCmdFault cause s).scan = s.scan := rfl
@[simp] theorem raiseCmdFault_firstFree : (raiseCmdFault cause s).firstFree = s.firstFree := rfl
@[simp] theorem raiseCmdFault_nextFree : (raiseCmdFault cause s).nextFree = s.nextFree := rfl
@[simp] theorem raiseCmdFault_memTP : (raiseCmdFault cause s).memTP = s.memTP := rfl
@[simp] theorem raiseCmdFault_memCP : (raiseCmdFault cause s).memCP = s.memCP := rfl
@[simp] theorem raiseCmdFault_memRAMF : (raiseCmdFault cause s).memRAMF = s.memRAMF := rfl
@[simp] theorem raiseCmdFault_linebuf : (raiseCmdFault cause s).linebuf = s.linebuf := rfl
@[simp] theorem raiseCmdFault_lineActive : (raiseCmdFault cause s).lineActive = s.lineActive := rfl
@[simp] theorem raiseCmdFault_lineSrc : (raiseCmdFault cause s).lineSrc = s.lineSrc := rfl
@[simp] theorem raiseCmdFault_lineLatcomp : (raiseCmdFault cause s).lineLatcomp = s.lineLatcomp := rfl
@[simp] theorem raiseCmdFault_cur : (raiseCmdFault cause s).cur = s.cur := rfl
@[simp] theorem raiseCmdFault_out : (raiseCmdFault cause s).out = s.out := rfl
@[simp] theorem raiseCmdFault_cfg : (raiseCmdFault cause s).cfg = s.cfg := rfl
@[simp] theorem raiseCmdFault_memROM : (raiseCmdFault cause s).memROM = s.memROM := rfl
@[simp] theorem raiseCmdFault_prog : (raiseCmdFault cause s).prog = s.prog := rfl
@[simp] theorem raiseCmdFault_sched : (raiseCmdFault cause s).sched = s.sched := rfl
@[simp] theorem raiseCmdFault_turnCount : (raiseCmdFault cause s).turnCount = s.turnCount := rfl
end raiseCmdFault

section acquireWrite
variable (c : Nat) (s : State)
@[simp] theorem acquireWrite_cp : (acquireWrite c s).cp = s.cp := rfl
@[simp] theorem acquireWrite_result : (acquireWrite c s).result = s.result := rfl
@[simp] theorem acquireWrite_run : (acquireWrite c s).run = s.run := rfl
@[simp] theorem acquireWrite_irqPend : (acquireWrite c s).irqPend = s.irqPend := rfl
@[simp] theorem acquireWrite_videoActive : (acquireWrite c s).videoActive = s.videoActive := rfl
@[simp] theorem acquireWrite_phase : (acquireWrite c s).phase = s.phase := rfl
@[simp] theorem acquireWrite_tickOwned : (acquireWrite c s).tickOwned = s.tickOwned := rfl
@[simp] theorem acquireWrite_cmdFault : (acquireWrite c s).cmdFault = s.cmdFault := rfl
@[simp] theorem acquireWrite_cause : (acquireWrite c s).cause = s.cause := rfl
@[simp] theorem acquireWrite_srcSel : (acquireWrite c s).srcSel = s.srcSel := rfl
@[simp] theorem acquireWrite_fontBase : (acquireWrite c s).fontBase = s.fontBase := rfl
@[simp] theorem acquireWrite_latcomp : (acquireWrite c s).latcomp = s.latcomp := rfl
@[simp] theorem acquireWrite_hcnt : (acquireWrite c s).hcnt = s.hcnt := rfl
@[simp] theorem acquireWrite_vcnt : (acquireWrite c s).vcnt = s.vcnt := rfl
@[simp] theorem acquireWrite_frameCount : (acquireWrite c s).frameCount = s.frameCount := rfl
@[simp] theorem acquireWrite_scan : (acquireWrite c s).scan = s.scan := rfl
@[simp] theorem acquireWrite_firstFree : (acquireWrite c s).firstFree = s.firstFree := rfl
@[simp] theorem acquireWrite_nextFree : (acquireWrite c s).nextFree = s.nextFree := rfl
@[simp] theorem acquireWrite_memTP : (acquireWrite c s).memTP = s.memTP.write c s.nextFree := rfl
@[simp] theorem acquireWrite_memCP : (acquireWrite c s).memCP = s.memCP := rfl
@[simp] theorem acquireWrite_memRAMF : (acquireWrite c s).memRAMF = s.memRAMF := rfl
@[simp] theorem acquireWrite_linebuf : (acquireWrite c s).linebuf = s.linebuf := rfl
@[simp] theorem acquireWrite_lineActive : (acquireWrite c s).lineActive = s.lineActive := rfl
@[simp] theorem acquireWrite_lineSrc : (acquireWrite c s).lineSrc = s.lineSrc := rfl
@[simp] theorem acquireWrite_lineLatcomp : (acquireWrite c s).lineLatcomp = s.lineLatcomp := rfl
@[simp] theorem acquireWrite_cur : (acquireWrite c s).cur = s.cur := rfl
@[simp] theorem acquireWrite_out : (acquireWrite c s).out = s.out := rfl
@[simp] theorem acquireWrite_cfg : (acquireWrite c s).cfg = s.cfg := rfl
@[simp] theorem acquireWrite_memROM : (acquireWrite c s).memROM = s.memROM := rfl
@[simp] theorem acquireWrite_prog : (acquireWrite c s).prog = s.prog := rfl
@[simp] theorem acquireWrite_sched : (acquireWrite c s).sched = s.sched := rfl
@[simp] theorem acquireWrite_turnCount : (acquireWrite c s).turnCount = s.turnCount := rfl
end acquireWrite

section takeSlot
variable (s : State)
@[simp] theorem takeSlot_cp : (takeSlot s).cp = s.cp := rfl
@[simp] theorem takeSlot_result : (takeSlot s).result = s.result := rfl
@[simp] theorem takeSlot_run : (takeSlot s).run = s.run := rfl
@[simp] theorem takeSlot_irqPend : (takeSlot s).irqPend = s.irqPend := rfl
@[simp] theorem takeSlot_videoActive : (takeSlot s).videoActive = s.videoActive := rfl
@[simp] theorem takeSlot_phase : (takeSlot s).phase = s.phase := rfl
@[simp] theorem takeSlot_tickOwned : (takeSlot s).tickOwned = s.tickOwned := rfl
@[simp] theorem takeSlot_cmdFault : (takeSlot s).cmdFault = s.cmdFault := rfl
@[simp] theorem takeSlot_cause : (takeSlot s).cause = s.cause := rfl
@[simp] theorem takeSlot_srcSel : (takeSlot s).srcSel = s.srcSel := rfl
@[simp] theorem takeSlot_fontBase : (takeSlot s).fontBase = s.fontBase := rfl
@[simp] theorem takeSlot_latcomp : (takeSlot s).latcomp = s.latcomp := rfl
@[simp] theorem takeSlot_hcnt : (takeSlot s).hcnt = s.hcnt := rfl
@[simp] theorem takeSlot_vcnt : (takeSlot s).vcnt = s.vcnt := rfl
@[simp] theorem takeSlot_frameCount : (takeSlot s).frameCount = s.frameCount := rfl
@[simp] theorem takeSlot_scan : (takeSlot s).scan = s.scan := rfl
@[simp] theorem takeSlot_firstFree : (takeSlot s).firstFree = s.firstFree := rfl
@[simp] theorem takeSlot_nextFree : (takeSlot s).nextFree = if s.nextFree = 255 then s.firstFree else s.nextFree + 1 := rfl
@[simp] theorem takeSlot_memTP : (takeSlot s).memTP = s.memTP := rfl
@[simp] theorem takeSlot_memCP : (takeSlot s).memCP = s.memCP := rfl
@[simp] theorem takeSlot_memRAMF : (takeSlot s).memRAMF = s.memRAMF := rfl
@[simp] theorem takeSlot_linebuf : (takeSlot s).linebuf = s.linebuf := rfl
@[simp] theorem takeSlot_lineActive : (takeSlot s).lineActive = s.lineActive := rfl
@[simp] theorem takeSlot_lineSrc : (takeSlot s).lineSrc = s.lineSrc := rfl
@[simp] theorem takeSlot_lineLatcomp : (takeSlot s).lineLatcomp = s.lineLatcomp := rfl
@[simp] theorem takeSlot_cur : (takeSlot s).cur = s.cur := rfl
@[simp] theorem takeSlot_out : (takeSlot s).out = s.out := rfl
@[simp] theorem takeSlot_cfg : (takeSlot s).cfg = s.cfg := rfl
@[simp] theorem takeSlot_memROM : (takeSlot s).memROM = s.memROM := rfl
@[simp] theorem takeSlot_prog : (takeSlot s).prog = s.prog := rfl
@[simp] theorem takeSlot_sched : (takeSlot s).sched = s.sched := rfl
@[simp] theorem takeSlot_turnCount : (takeSlot s).turnCount = s.turnCount := rfl
end takeSlot

section settle
variable (fresh : Bool) (s : State)
@[simp] theorem settle_cp : (settle fresh s).cp = s.cp := by unfold settle; split <;> rfl
@[simp] theorem settle_result : (settle fresh s).result = s.result := by unfold settle; split <;> rfl
@[simp] theorem settle_run : (settle fresh s).run = s.run := by unfold settle; split <;> rfl
@[simp] theorem settle_irqPend : (settle fresh s).irqPend = s.irqPend := by unfold settle; split <;> rfl
@[simp] theorem settle_videoActive : (settle fresh s).videoActive = s.videoActive := by unfold settle; split <;> rfl
@[simp] theorem settle_phase : (settle fresh s).phase = s.phase := by unfold settle; split <;> rfl
@[simp] theorem settle_tickOwned : (settle fresh s).tickOwned = s.tickOwned := by unfold settle; split <;> rfl
@[simp] theorem settle_cmdFault : (settle fresh s).cmdFault = s.cmdFault := by unfold settle; split <;> rfl
@[simp] theorem settle_cause : (settle fresh s).cause = s.cause := by unfold settle; split <;> rfl
@[simp] theorem settle_srcSel : (settle fresh s).srcSel = s.srcSel := by unfold settle; split <;> rfl
@[simp] theorem settle_fontBase : (settle fresh s).fontBase = s.fontBase := by unfold settle; split <;> rfl
@[simp] theorem settle_latcomp : (settle fresh s).latcomp = s.latcomp := by unfold settle; split <;> rfl
@[simp] theorem settle_hcnt : (settle fresh s).hcnt = s.hcnt := by unfold settle; split <;> rfl
@[simp] theorem settle_vcnt : (settle fresh s).vcnt = s.vcnt := by unfold settle; split <;> rfl
@[simp] theorem settle_frameCount : (settle fresh s).frameCount = s.frameCount := by unfold settle; split <;> rfl
@[simp] theorem settle_scan : (settle fresh s).scan = s.scan := by unfold settle; split <;> rfl
@[simp] theorem settle_firstFree : (settle fresh s).firstFree = s.firstFree := by unfold settle; split <;> rfl
@[simp] theorem settle_nextFree : (settle fresh s).nextFree = if fresh then (if s.nextFree = 255 then s.firstFree else s.nextFree + 1) else s.nextFree := by unfold settle; split <;> rfl
@[simp] theorem settle_memTP : (settle fresh s).memTP = s.memTP := by unfold settle; split <;> rfl
@[simp] theorem settle_memCP : (settle fresh s).memCP = s.memCP := by unfold settle; split <;> rfl
@[simp] theorem settle_memRAMF : (settle fresh s).memRAMF = s.memRAMF := by unfold settle; split <;> rfl
@[simp] theorem settle_linebuf : (settle fresh s).linebuf = s.linebuf := by unfold settle; split <;> rfl
@[simp] theorem settle_lineActive : (settle fresh s).lineActive = s.lineActive := by unfold settle; split <;> rfl
@[simp] theorem settle_lineSrc : (settle fresh s).lineSrc = s.lineSrc := by unfold settle; split <;> rfl
@[simp] theorem settle_lineLatcomp : (settle fresh s).lineLatcomp = s.lineLatcomp := by unfold settle; split <;> rfl
@[simp] theorem settle_cur : (settle fresh s).cur = s.cur := by unfold settle; split <;> rfl
@[simp] theorem settle_out : (settle fresh s).out = s.out := by unfold settle; split <;> rfl
@[simp] theorem settle_cfg : (settle fresh s).cfg = s.cfg := by unfold settle; split <;> rfl
@[simp] theorem settle_memROM : (settle fresh s).memROM = s.memROM := by unfold settle; split <;> rfl
@[simp] theorem settle_prog : (settle fresh s).prog = s.prog := by unfold settle; split <;> rfl
@[simp] theorem settle_sched : (settle fresh s).sched = s.sched := by unfold settle; split <;> rfl
@[simp] theorem settle_turnCount : (settle fresh s).turnCount = s.turnCount := by unfold settle; split <;> rfl
end settle

section rewindPool
variable (s : State)
@[simp] theorem rewindPool_cp : (rewindPool s).cp = s.cp := rfl
@[simp] theorem rewindPool_result : (rewindPool s).result = s.result := rfl
@[simp] theorem rewindPool_run : (rewindPool s).run = s.run := rfl
@[simp] theorem rewindPool_irqPend : (rewindPool s).irqPend = s.irqPend := rfl
@[simp] theorem rewindPool_videoActive : (rewindPool s).videoActive = s.videoActive := rfl
@[simp] theorem rewindPool_phase : (rewindPool s).phase = s.phase := rfl
@[simp] theorem rewindPool_tickOwned : (rewindPool s).tickOwned = s.tickOwned := rfl
@[simp] theorem rewindPool_cmdFault : (rewindPool s).cmdFault = s.cmdFault := rfl
@[simp] theorem rewindPool_cause : (rewindPool s).cause = s.cause := rfl
@[simp] theorem rewindPool_srcSel : (rewindPool s).srcSel = s.srcSel := rfl
@[simp] theorem rewindPool_fontBase : (rewindPool s).fontBase = s.fontBase := rfl
@[simp] theorem rewindPool_latcomp : (rewindPool s).latcomp = s.latcomp := rfl
@[simp] theorem rewindPool_hcnt : (rewindPool s).hcnt = s.hcnt := rfl
@[simp] theorem rewindPool_vcnt : (rewindPool s).vcnt = s.vcnt := rfl
@[simp] theorem rewindPool_frameCount : (rewindPool s).frameCount = s.frameCount := rfl
@[simp] theorem rewindPool_scan : (rewindPool s).scan = s.scan := rfl
@[simp] theorem rewindPool_firstFree : (rewindPool s).firstFree = s.firstFree := rfl
@[simp] theorem rewindPool_nextFree : (rewindPool s).nextFree = s.firstFree := rfl
@[simp] theorem rewindPool_memTP : (rewindPool s).memTP = s.memTP := rfl
@[simp] theorem rewindPool_memCP : (rewindPool s).memCP = s.memCP := rfl
@[simp] theorem rewindPool_memRAMF : (rewindPool s).memRAMF = s.memRAMF := rfl
@[simp] theorem rewindPool_linebuf : (rewindPool s).linebuf = s.linebuf := rfl
@[simp] theorem rewindPool_lineActive : (rewindPool s).lineActive = s.lineActive := rfl
@[simp] theorem rewindPool_lineSrc : (rewindPool s).lineSrc = s.lineSrc := rfl
@[simp] theorem rewindPool_lineLatcomp : (rewindPool s).lineLatcomp = s.lineLatcomp := rfl
@[simp] theorem rewindPool_cur : (rewindPool s).cur = s.cur := rfl
@[simp] theorem rewindPool_out : (rewindPool s).out = s.out := rfl
@[simp] theorem rewindPool_cfg : (rewindPool s).cfg = s.cfg := rfl
@[simp] theorem rewindPool_memROM : (rewindPool s).memROM = s.memROM := rfl
@[simp] theorem rewindPool_prog : (rewindPool s).prog = s.prog := rfl
@[simp] theorem rewindPool_sched : (rewindPool s).sched = s.sched := rfl
@[simp] theorem rewindPool_turnCount : (rewindPool s).turnCount = s.turnCount := rfl
end rewindPool

section selectSource
variable (alt : Bool) (base : Word) (s : State)
@[simp] theorem selectSource_cp : (selectSource alt base s).cp = s.cp := rfl
@[simp] theorem selectSource_result : (selectSource alt base s).result = s.result := rfl
@[simp] theorem selectSource_run : (selectSource alt base s).run = s.run := rfl
@[simp] theorem selectSource_irqPend : (selectSource alt base s).irqPend = s.irqPend := rfl
@[simp] theorem selectSource_videoActive : (selectSource alt base s).videoActive = s.videoActive := rfl
@[simp] theorem selectSource_phase : (selectSource alt base s).phase = s.phase := rfl
@[simp] theorem selectSource_tickOwned : (selectSource alt base s).tickOwned = s.tickOwned := rfl
@[simp] theorem selectSource_cmdFault : (selectSource alt base s).cmdFault = s.cmdFault := rfl
@[simp] theorem selectSource_cause : (selectSource alt base s).cause = s.cause := rfl
@[simp] theorem selectSource_srcSel : (selectSource alt base s).srcSel = alt := rfl
@[simp] theorem selectSource_fontBase : (selectSource alt base s).fontBase = if alt then s.fontBase else base := rfl
@[simp] theorem selectSource_latcomp : (selectSource alt base s).latcomp = if alt then s.cfg.latcompRam else s.cfg.latcompRom := rfl
@[simp] theorem selectSource_hcnt : (selectSource alt base s).hcnt = s.hcnt := rfl
@[simp] theorem selectSource_vcnt : (selectSource alt base s).vcnt = s.vcnt := rfl
@[simp] theorem selectSource_frameCount : (selectSource alt base s).frameCount = s.frameCount := rfl
@[simp] theorem selectSource_scan : (selectSource alt base s).scan = s.scan := rfl
@[simp] theorem selectSource_firstFree : (selectSource alt base s).firstFree = s.firstFree := rfl
@[simp] theorem selectSource_nextFree : (selectSource alt base s).nextFree = s.nextFree := rfl
@[simp] theorem selectSource_memTP : (selectSource alt base s).memTP = s.memTP := rfl
@[simp] theorem selectSource_memCP : (selectSource alt base s).memCP = s.memCP := rfl
@[simp] theorem selectSource_memRAMF : (selectSource alt base s).memRAMF = s.memRAMF := rfl
@[simp] theorem selectSource_linebuf : (selectSource alt base s).linebuf = s.linebuf := rfl
@[simp] theorem selectSource_lineActive : (selectSource alt base s).lineActive = s.lineActive := rfl
@[simp] theorem selectSource_lineSrc : (selectSource alt base s).lineSrc = s.lineSrc := rfl
@[simp] theorem selectSource_lineLatcomp : (selectSource alt base s).lineLatcomp = s.lineLatcomp := rfl
@[simp] theorem selectSource_cur : (selectSource alt base s).cur = s.cur := rfl
@[simp] theorem selectSource_out : (selectSource alt base s).out = s.out := rfl
@[simp] theorem selectSource_cfg : (selectSource alt base s).cfg = s.cfg := rfl
@[simp] theorem selectSource_memROM : (selectSource alt base s).memROM = s.memROM := rfl
@[simp] theorem selectSource_prog : (selectSource alt base s).prog = s.prog := rfl
@[simp] theorem selectSource_sched : (selectSource alt base s).sched = s.sched := rfl
@[simp] theorem selectSource_turnCount : (selectSource alt base s).turnCount = s.turnCount := rfl
end selectSource

section holdTimers
variable (s : State)
@[simp] theorem holdTimers_cp : (holdTimers s).cp = s.cp := rfl
@[simp] theorem holdTimers_result : (holdTimers s).result = s.result := rfl
@[simp] theorem holdTimers_run : (holdTimers s).run = s.run := rfl
@[simp] theorem holdTimers_irqPend : (holdTimers s).irqPend = false := rfl
@[simp] theorem holdTimers_videoActive : (holdTimers s).videoActive = false := rfl
@[simp] theorem holdTimers_phase : (holdTimers s).phase = s.phase := rfl
@[simp] theorem holdTimers_tickOwned : (holdTimers s).tickOwned = s.tickOwned := rfl
@[simp] theorem holdTimers_cmdFault : (holdTimers s).cmdFault = s.cmdFault := rfl
@[simp] theorem holdTimers_cause : (holdTimers s).cause = s.cause := rfl
@[simp] theorem holdTimers_srcSel : (holdTimers s).srcSel = s.srcSel := rfl
@[simp] theorem holdTimers_fontBase : (holdTimers s).fontBase = s.fontBase := rfl
@[simp] theorem holdTimers_latcomp : (holdTimers s).latcomp = s.latcomp := rfl
@[simp] theorem holdTimers_hcnt : (holdTimers s).hcnt = 0 := rfl
@[simp] theorem holdTimers_vcnt : (holdTimers s).vcnt = 0 := rfl
@[simp] theorem holdTimers_frameCount : (holdTimers s).frameCount = s.frameCount := rfl
@[simp] theorem holdTimers_scan : (holdTimers s).scan = s.scan := rfl
@[simp] theorem holdTimers_firstFree : (holdTimers s).firstFree = s.firstFree := rfl
@[simp] theorem holdTimers_nextFree : (holdTimers s).nextFree = s.nextFree := rfl
@[simp] theorem holdTimers_memTP : (holdTimers s).memTP = s.memTP := rfl
@[simp] theorem holdTimers_memCP : (holdTimers s).memCP = s.memCP := rfl
@[simp] theorem holdTimers_memRAMF : (holdTimers s).memRAMF = s.memRAMF := rfl
@[simp] theorem holdTimers_linebuf : (holdTimers s).linebuf = zeroLine := rfl
@[simp] theorem holdTimers_lineActive : (holdTimers s).lineActive = false := rfl
@[simp] theorem holdTimers_lineSrc : (holdTimers s).lineSrc = s.lineSrc := rfl
@[simp] theorem holdTimers_lineLatcomp : (holdTimers s).lineLatcomp = s.lineLatcomp := rfl
@[simp] theorem holdTimers_cur : (holdTimers s).cur = s.cur := rfl
@[simp] theorem holdTimers_out : (holdTimers s).out = s.out := rfl
@[simp] theorem holdTimers_cfg : (holdTimers s).cfg = s.cfg := rfl
@[simp] theorem holdTimers_memROM : (holdTimers s).memROM = s.memROM := rfl
@[simp] theorem holdTimers_prog : (holdTimers s).prog = s.prog := rfl
@[simp] theorem holdTimers_sched : (holdTimers s).sched = s.sched := rfl
@[simp] theorem holdTimers_turnCount : (holdTimers s).turnCount = s.turnCount := rfl
end holdTimers

section tick
variable (s : State)
@[simp] theorem tick_cp : (tick s).cp = s.cp := rfl
@[simp] theorem tick_result : (tick s).result = s.result := rfl
@[simp] theorem tick_run : (tick s).run = s.run := rfl
@[simp] theorem tick_irqPend : (tick s).irqPend = (s.irqPend || decide (nextHcnt s = s.cfg.hIrqAt)) := rfl
@[simp] theorem tick_videoActive : (tick s).videoActive = s.videoActive := rfl
@[simp] theorem tick_phase : (tick s).phase = s.phase := rfl
@[simp] theorem tick_tickOwned : (tick s).tickOwned = s.tickOwned := rfl
@[simp] theorem tick_cmdFault : (tick s).cmdFault = s.cmdFault := rfl
@[simp] theorem tick_cause : (tick s).cause = s.cause := rfl
@[simp] theorem tick_srcSel : (tick s).srcSel = s.srcSel := rfl
@[simp] theorem tick_fontBase : (tick s).fontBase = s.fontBase := rfl
@[simp] theorem tick_latcomp : (tick s).latcomp = s.latcomp := rfl
@[simp] theorem tick_hcnt : (tick s).hcnt = nextHcnt s := rfl
@[simp] theorem tick_vcnt : (tick s).vcnt = nextVcnt s := rfl
@[simp] theorem tick_frameCount : (tick s).frameCount = s.frameCount := rfl
@[simp] theorem tick_scan : (tick s).scan = s.scan := rfl
@[simp] theorem tick_firstFree : (tick s).firstFree = s.firstFree := rfl
@[simp] theorem tick_nextFree : (tick s).nextFree = s.nextFree := rfl
@[simp] theorem tick_memTP : (tick s).memTP = s.memTP := rfl
@[simp] theorem tick_memCP : (tick s).memCP = s.memCP := rfl
@[simp] theorem tick_memRAMF : (tick s).memRAMF = s.memRAMF := rfl
@[simp] theorem tick_linebuf : (tick s).linebuf = s.linebuf := rfl
@[simp] theorem tick_lineActive : (tick s).lineActive = s.lineActive := rfl
@[simp] theorem tick_lineSrc : (tick s).lineSrc = s.lineSrc := rfl
@[simp] theorem tick_lineLatcomp : (tick s).lineLatcomp = s.lineLatcomp := rfl
@[simp] theorem tick_cur : (tick s).cur = s.cur := rfl
@[simp] theorem tick_out : (tick s).out = s.out := rfl
@[simp] theorem tick_cfg : (tick s).cfg = s.cfg := rfl
@[simp] theorem tick_memROM : (tick s).memROM = s.memROM := rfl
@[simp] theorem tick_prog : (tick s).prog = s.prog := rfl
@[simp] theorem tick_sched : (tick s).sched = s.sched := rfl
@[simp] theorem tick_turnCount : (tick s).turnCount = s.turnCount := rfl
end tick

section popTurn
variable (s : State)
@[simp] theorem popTurn_cp : (popTurn s).cp = s.cp := rfl
@[simp] theorem popTurn_result : (popTurn s).result = s.result := rfl
@[simp] theorem popTurn_run : (popTurn s).run = s.run := rfl
@[simp] theorem popTurn_irqPend : (popTurn s).irqPend = s.irqPend := rfl
@[simp] theorem popTurn_videoActive : (popTurn s).videoActive = s.videoActive := rfl
@[simp] theorem popTurn_phase : (popTurn s).phase = s.phase := rfl
@[simp] theorem popTurn_tickOwned : (popTurn s).tickOwned = s.tickOwned := rfl
@[simp] theorem popTurn_cmdFault : (popTurn s).cmdFault = s.cmdFault := rfl
@[simp] theorem popTurn_cause : (popTurn s).cause = s.cause := rfl
@[simp] theorem popTurn_srcSel : (popTurn s).srcSel = s.srcSel := rfl
@[simp] theorem popTurn_fontBase : (popTurn s).fontBase = s.fontBase := rfl
@[simp] theorem popTurn_latcomp : (popTurn s).latcomp = s.latcomp := rfl
@[simp] theorem popTurn_hcnt : (popTurn s).hcnt = s.hcnt := rfl
@[simp] theorem popTurn_vcnt : (popTurn s).vcnt = s.vcnt := rfl
@[simp] theorem popTurn_frameCount : (popTurn s).frameCount = s.frameCount := rfl
@[simp] theorem popTurn_scan : (popTurn s).scan = s.scan := rfl
@[simp] theorem popTurn_firstFree : (popTurn s).firstFree = s.firstFree := rfl
@[simp] theorem popTurn_nextFree : (popTurn s).nextFree = s.nextFree := rfl
@[simp] theorem popTurn_memTP : (popTurn s).memTP = s.memTP := rfl
@[simp] theorem popTurn_memCP : (popTurn s).memCP = s.memCP := rfl
@[simp] theorem popTurn_memRAMF : (popTurn s).memRAMF = s.memRAMF := rfl
@[simp] theorem popTurn_linebuf : (popTurn s).linebuf = s.linebuf := rfl
@[simp] theorem popTurn_lineActive : (popTurn s).lineActive = s.lineActive := rfl
@[simp] theorem popTurn_lineSrc : (popTurn s).lineSrc = s.lineSrc := rfl
@[simp] theorem popTurn_lineLatcomp : (popTurn s).lineLatcomp = s.lineLatcomp := rfl
@[simp] theorem popTurn_cur : (popTurn s).cur = s.cur := rfl
@[simp] theorem popTurn_out : (popTurn s).out = s.out := rfl
@[simp] theorem popTurn_cfg : (popTurn s).cfg = s.cfg := rfl
@[simp] theorem popTurn_memROM : (popTurn s).memROM = s.memROM := rfl
@[simp] theorem popTurn_prog : (popTurn s).prog = s.prog := rfl
@[simp] theorem popTurn_sched : (popTurn s).sched = (comingTurns s).tail := rfl
@[simp] theorem popTurn_turnCount : (popTurn s).turnCount = if s.sched.isEmpty then s.turnCount + 1 else s.turnCount := rfl
end popTurn

section afterChoice
variable (s : State)
@[simp] theorem afterChoice_cp : (afterChoice s).cp = s.cp := by unfold afterChoice; split <;> rfl
@[simp] theorem afterChoice_result : (afterChoice s).result = s.result := by unfold afterChoice; split <;> rfl
@[simp] theorem afterChoice_run : (afterChoice s).run = s.run := by unfold afterChoice; split <;> rfl
@[simp] theorem afterChoice_irqPend : (afterChoice s).irqPend = s.irqPend := by unfold afterChoice; split <;> rfl
@[simp] theorem afterChoice_videoActive : (afterChoice s).videoActive = s.videoActive := by unfold afterChoice; split <;> rfl
@[simp] theorem afterChoice_phase : (afterChoice s).phase = s.phase := by unfold afterChoice; split <;> rfl
@[simp] theorem afterChoice_tickOwned : (afterChoice s).tickOwned = s.tickOwned := by unfold afterChoice; split <;> rfl
@[simp] theorem afterChoice_cmdFault : (afterChoice s).cmdFault = s.cmdFault := by unfold afterChoice; split <;> rfl
@[simp] theorem afterChoice_cause : (afterChoice s).cause = s.cause := by unfold afterChoice; split <;> rfl
@[simp] theorem afterChoice_srcSel : (afterChoice s).srcSel = s.srcSel := by unfold afterChoice; split <;> rfl
@[simp] theorem afterChoice_fontBase : (afterChoice s).fontBase = s.fontBase := by unfold afterChoice; split <;> rfl
@[simp] theorem afterChoice_latcomp : (afterChoice s).latcomp = s.latcomp := by unfold afterChoice; split <;> rfl
@[simp] theorem afterChoice_hcnt : (afterChoice s).hcnt = s.hcnt := by unfold afterChoice; split <;> rfl
@[simp] theorem afterChoice_vcnt : (afterChoice s).vcnt = s.vcnt := by unfold afterChoice; split <;> rfl
@[simp] theorem afterChoice_frameCount : (afterChoice s).frameCount = s.frameCount := by unfold afterChoice; split <;> rfl
@[simp] theorem afterChoice_scan : (afterChoice s).scan = s.scan := by unfold afterChoice; split <;> rfl
@[simp] theorem afterChoice_firstFree : (afterChoice s).firstFree = s.firstFree := by unfold afterChoice; split <;> rfl
@[simp] theorem afterChoice_nextFree : (afterChoice s).nextFree = s.nextFree := by unfold afterChoice; split <;> rfl
@[simp] theorem afterChoice_memTP : (afterChoice s).memTP = s.memTP := by unfold afterChoice; split <;> rfl
@[simp] theorem afterChoice_memCP : (afterChoice s).memCP = s.memCP := by unfold afterChoice; split <;> rfl
@[simp] theorem afterChoice_memRAMF : (afterChoice s).memRAMF = s.memRAMF := by unfold afterChoice; split <;> rfl
@[simp] theorem afterChoice_linebuf : (afterChoice s).linebuf = s.linebuf := by unfold afterChoice; split <;> rfl
@[simp] theorem afterChoice_lineActive : (afterChoice s).lineActive = s.lineActive := by unfold afterChoice; split <;> rfl
@[simp] theorem afterChoice_lineSrc : (afterChoice s).lineSrc = s.lineSrc := by unfold afterChoice; split <;> rfl
@[simp] theorem afterChoice_lineLatcomp : (afterChoice s).lineLatcomp = s.lineLatcomp := by unfold afterChoice; split <;> rfl
@[simp] theorem afterChoice_cur : (afterChoice s).cur = s.cur := by unfold afterChoice; split <;> rfl
@[simp] theorem afterChoice_out : (afterChoice s).out = s.out := by unfold afterChoice; split <;> rfl
@[simp] theorem afterChoice_cfg : (afterChoice s).cfg = s.cfg := by unfold afterChoice; split <;> rfl
@[simp] theorem afterChoice_memROM : (afterChoice s).memROM = s.memROM := by unfold afterChoice; split <;> rfl
@[simp] theorem afterChoice_prog : (afterChoice s).prog = s.prog := by unfold afterChoice; split <;> rfl
end afterChoice

section lineService
variable (s : State)
@[simp] theorem lineService_cp : (lineService s).cp = s.cp := by unfold lineService; split <;> rfl
@[simp] theorem lineService_result : (lineService s).result = s.result := by unfold lineService; split <;> rfl
@[simp] theorem lineService_run : (lineService s).run = s.run := by unfold lineService; split <;> rfl
@[simp] theorem lineService_irqPend : (lineService s).irqPend = false := rfl
@[simp] theorem lineService_tickOwned : (lineService s).tickOwned = s.tickOwned := by unfold lineService; split <;> rfl
@[simp] theorem lineService_cmdFault : (lineService s).cmdFault = s.cmdFault := by unfold lineService; split <;> rfl
@[simp] theorem lineService_cause : (lineService s).cause = s.cause := by unfold lineService; split <;> rfl
@[simp] theorem lineService_srcSel : (lineService s).srcSel = s.srcSel := by unfold lineService; split <;> rfl
@[simp] theorem lineService_fontBase : (lineService s).fontBase = s.fontBase := by unfold lineService; split <;> rfl
@[simp] theorem lineService_latcomp : (lineService s).latcomp = s.latcomp := by unfold lineService; split <;> rfl
@[simp] theorem lineService_hcnt : (lineService s).hcnt = s.hcnt := by unfold lineService; split <;> rfl
@[simp] theorem lineService_vcnt : (lineService s).vcnt = s.vcnt := by unfold lineService; split <;> rfl
@[simp] theorem lineService_firstFree : (lineService s).firstFree = s.firstFree := by unfold lineService; split <;> rfl
@[simp] theorem lineService_nextFree : (lineService s).nextFree = s.nextFree := by unfold lineService; split <;> rfl
@[simp] theorem lineService_memTP : (lineService s).memTP = s.memTP := by unfold lineService; split <;> rfl
@[simp] theorem lineService_memCP : (lineService s).memCP = s.memCP := by unfold lineService; split <;> rfl
@[simp] theorem lineService_memRAMF : (lineService s).memRAMF = s.memRAMF := by unfold lineService; split <;> rfl
@[simp] theorem lineService_lineSrc : (lineService s).lineSrc = s.srcSel := by unfold lineService; split <;> rfl
@[simp] theorem lineService_lineLatcomp : (lineService s).lineLatcomp = s.latcomp := by unfold lineService; split <;> rfl
@[simp] theorem lineService_cur : (lineService s).cur = s.cur := by unfold lineService; split <;> rfl
@[simp] theorem lineService_cfg : (lineService s).cfg = s.cfg := by unfold lineService; split <;> rfl
@[simp] theorem lineService_memROM : (lineService s).memROM = s.memROM := by unfold lineService; split <;> rfl
@[simp] theorem lineService_prog : (lineService s).prog = s.prog := by unfold lineService; split <;> rfl
@[simp] theorem lineService_sched : (lineService s).sched = s.sched := by unfold lineService; split <;> rfl
@[simp] theorem lineService_turnCount : (lineService s).turnCount = s.turnCount := by unfold lineService; split <;> rfl
end lineService

end Sys2Proof.Machine
end

