-- ==== Sys2Proof/Laws/Ops.lean ====
section
/-! SUPPORT. What the shared operations and the step of a command can do, said once: what no command writes, what the commands
on the memories leave besides, that a step retires the command or keeps it in flight, that the memories keep their form and the
allocator its range. -/

namespace Sys2Proof.Machine

/-- What no command writes: the parameters, the frame counter, OUT, the fault and the model's own fields. -/
structure SameOutside (s t : State) : Prop where
  cfg : t.cfg = s.cfg
  memROM : t.memROM = s.memROM
  prog : t.prog = s.prog
  frameCount : t.frameCount = s.frameCount
  out : t.out = s.out
  cmdFault : t.cmdFault = s.cmdFault
  cause : t.cause = s.cause
  lineSrc : t.lineSrc = s.lineSrc
  lineLatcomp : t.lineLatcomp = s.lineLatcomp
  sched : t.sched = s.sched
  turnCount : t.turnCount = s.turnCount

/-- What the commands leave that are neither START nor STOP: the timers and the line. -/
structure SameTimers (s t : State) : Prop where
  run : t.run = s.run
  irqPend : t.irqPend = s.irqPend
  videoActive : t.videoActive = s.videoActive
  phase : t.phase = s.phase
  hcnt : t.hcnt = s.hcnt
  vcnt : t.vcnt = s.vcnt
  scan : t.scan = s.scan
  linebuf : t.linebuf = s.linebuf
  lineActive : t.lineActive = s.lineActive

/-- What the commands on the memories leave besides: the bitmap source and TICK_OWNED. -/
structure SameSource (s t : State) : Prop where
  tickOwned : t.tickOwned = s.tickOwned
  srcSel : t.srcSel = s.srcSel
  fontBase : t.fontBase = s.fontBase
  latcomp : t.latcomp = s.latcomp

/-- The timers in their held-reset state with the line blank (40 R122). -/
structure AtZero (t : State) : Prop where
  hcnt : t.hcnt = 0
  vcnt : t.vcnt = 0
  irqPend : t.irqPend = false
  videoActive : t.videoActive = false
  linebuf : t.linebuf = zeroLine
  lineActive : t.lineActive = false

/-- A lifecycle command (40_sync_timing.md part 2). Every other command works on the memories and the allocator. -/
def isLifecycle : Instr → Bool
  | .start _ _ => true
  | .stop => true
  | .setsrc _ _ => true
  | .waitf _ => true
  | .getframe => true
  | _ => false

/-- No step of a command touches what lies outside the foreground (60 R272). -/
theorem exec_sameOutside {i : Instr} {s t : State} (h : exec i s = .next t) : SameOutside s t := by
  cases i <;>
    simp only [exec, execStart, execStop, execSetsrc, execWaitf, execGetframe, execAcquire, execResetpool, execSetfirstfree,
      execSettile, execGettile, execSetcolor, execGetcolor, execFillcolor, execFillscr, execSetpixel, execDrawbmp,
      execDrawbmp8, execCleargraph, execCopyfont, accessLoop, drawStep, draw8Step, drawFrom, drawPixelStep, paintFrom,
      cellsFrom, cellWriteStep, rowsFrom, rowWriteStep, goOn, setPixelStep, settle, clearScreen, clearPool, fillScreen, fillRect, copyGlyph] at h <;>
    (repeat' split at h) <;> cases h <;> constructor <;> rfl

/-- No step of a command on the memories touches the timers or the line. -/
theorem exec_sameTimers {i : Instr} {s t : State} (hi : isLifecycle i = false) (h : exec i s = .next t) : SameTimers s t := by
  cases i <;> (try cases hi) <;>
    simp only [exec, execAcquire, execResetpool, execSetfirstfree, execSettile, execGettile, execSetcolor, execGetcolor,
      execFillcolor, execFillscr, execSetpixel, execDrawbmp, execDrawbmp8, execCleargraph, execCopyfont, accessLoop, drawStep,
      draw8Step, drawFrom, drawPixelStep, paintFrom, cellsFrom, cellWriteStep, rowsFrom, rowWriteStep, goOn, setPixelStep,
      settle, clearScreen, clearPool, fillScreen, fillRect, copyGlyph] at h <;>
    (repeat' split at h) <;> cases h <;> constructor <;> rfl

/-- No step of a command on the memories touches the bitmap source. -/
theorem exec_sameSource {i : Instr} {s t : State} (hi : isLifecycle i = false) (h : exec i s = .next t) : SameSource s t := by
  cases i <;> (try cases hi) <;>
    simp only [exec, execAcquire, execResetpool, execSetfirstfree, execSettile, execGettile, execSetcolor, execGetcolor,
      execFillcolor, execFillscr, execSetpixel, execDrawbmp, execDrawbmp8, execCleargraph, execCopyfont, accessLoop, drawStep,
      draw8Step, drawFrom, drawPixelStep, paintFrom, cellsFrom, cellWriteStep, rowsFrom, rowWriteStep, goOn, setPixelStep,
      settle, clearScreen, clearPool, fillScreen, fillRect, copyGlyph] at h <;>
    (repeat' split at h) <;> cases h <;> constructor <;> rfl

/-- What a step of a command can do to the timers (40 R130, R134): nothing; hold them (STOP); or, from held timers, start them
at zero with SCAN and PHASE cleared (START). -/
theorem exec_timers {i : Instr} {s t : State} (h : exec i s = .next t) :
    SameTimers s t ∨ AtZero t ∧ t.run = false ∨ AtZero t ∧ s.run = false ∧ t.run = true ∧ t.scan = 0 ∧ t.phase = false := by
  rcases hl : isLifecycle i with _ | _
  · exact .inl (exec_sameTimers hl h)
  · cases i <;> (try cases hl) <;> simp only [exec, execStart, execStop, execSetsrc, execWaitf, execGetframe] at h
    · split at h
      · cases h
      · rename_i hr
        split at h <;> cases h
        · exact .inl (by constructor <;> rfl)
        · exact .inr (.inr ⟨by constructor <;> rfl, by simpa using hr, rfl, rfl, rfl⟩)
    · cases h
      exact .inr (.inl ⟨by constructor <;> rfl, rfl⟩)
    all_goals (repeat' split at h) <;> cases h <;> exact .inl (by constructor <;> rfl)

/-- A step of a command retires it, with cp past it, or keeps it in flight, with cp at it (10 R21, 60 R275). -/
theorem exec_retires_or_holds {i : Instr} {s t : State} (h : exec i s = .next t) :
    t.cur = none ∧ t.cp = s.cp + i.len ∨ ∃ p, t.cur = some { instr := i, pos := p } ∧ t.cp = s.cp := by
  cases i <;>
    simp only [exec, execStart, execStop, execSetsrc, execWaitf, execGetframe, execAcquire, execResetpool, execSetfirstfree,
      execSettile, execGettile, execSetcolor, execGetcolor, execFillcolor, execFillscr, execSetpixel, execDrawbmp,
      execDrawbmp8, execCleargraph, execCopyfont, accessLoop, drawStep, draw8Step, drawFrom, drawPixelStep, paintFrom,
      cellsFrom, cellWriteStep, rowsFrom, rowWriteStep, goOn, setPixelStep, settle, clearScreen, clearPool, fillScreen, fillRect, copyGlyph] at h <;>
    (repeat' split at h) <;> cases h <;> first
      | exact .inl ⟨rfl, rfl⟩
      | exact .inr ⟨_, rfl, rfl⟩

/-! ### The memories keep their form -/

/-- The three memories that commands write are in canonical form and inside their sizes (20 R60, R76). -/
structure RamOk (s : State) : Prop where
  tp : Memory.WF Config.cells s.memTP
  cpl : Memory.WF Config.cells s.memCP
  ramf : Memory.WF Config.ramfSize s.memRAMF

theorem writeTP_RamOk {s : State} (h : RamOk s) {a : Nat} (ha : a < Config.cells) (v : Byte) : RamOk (writeTP a v s) :=
  ⟨write_WF v h.tp ha, h.cpl, h.ramf⟩

theorem writeCP_RamOk {s : State} (h : RamOk s) {a : Nat} (ha : a < Config.cells) (v : Byte) : RamOk (writeCP a v s) :=
  ⟨h.tp, write_WF v h.cpl ha, h.ramf⟩

theorem writeRAMF_RamOk {s : State} (h : RamOk s) {a : Nat} (ha : a < Config.ramfSize) (v : Byte) : RamOk (writeRAMF a v s) :=
  ⟨h.tp, h.cpl, write_WF v h.ramf ha⟩

theorem acquireWrite_RamOk {s : State} (h : RamOk s) {c : Nat} (hc : c < Config.cells) : RamOk (acquireWrite c s) :=
  ⟨write_WF _ h.tp hc, h.cpl, h.ramf⟩

theorem takeSlot_RamOk {s : State} (h : RamOk s) : RamOk (takeSlot s) := ⟨h.tp, h.cpl, h.ramf⟩

theorem settle_RamOk {s : State} (fresh : Bool) (h : RamOk s) : RamOk (settle fresh s) := by
  cases fresh
  · exact h
  · exact takeSlot_RamOk h

theorem retire_RamOk {s : State} (i : Instr) (h : RamOk s) : RamOk (retire i s) := ⟨h.tp, h.cpl, h.ramf⟩

theorem hold_RamOk {s : State} (i : Instr) (p : Pos) (h : RamOk s) : RamOk (hold i p s) := ⟨h.tp, h.cpl, h.ramf⟩

theorem goOn_RamOk {s : State} (i : Instr) (p : Option Pos) (h : RamOk s) : RamOk (goOn i p s) := by
  cases p
  · exact retire_RamOk i h
  · exact hold_RamOk i _ h

theorem setResult_RamOk {s : State} (v : Word) (h : RamOk s) : RamOk (setResult v s) := ⟨h.tp, h.cpl, h.ramf⟩

theorem rewindPool_RamOk {s : State} (h : RamOk s) : RamOk (rewindPool s) := ⟨h.tp, h.cpl, h.ramf⟩

theorem setPixelStep_RamOk {s : State} (h : RamOk s) (x y : Nat) (on : Bool) (p : PixPos) :
    RamOk (setPixelStep x y on p s).1 := by
  cases p <;> simp only [setPixelStep]
  · split <;> exact h
  · exact acquireWrite_RamOk h (pixelCell_lt x y)
  · exact settle_RamOk _ h
  · exact writeRAMF_RamOk h (pixelRow_lt _ y) _

theorem accessLoop_RamOk {s : State} (h : RamOk s) {i : Instr} {total : Nat} {access : Nat → State → State}
    {finish : State → State} (ha : ∀ k, k < total → RamOk (access k s)) (hf : ∀ u, RamOk u → RamOk (finish u)) :
    RamOk (accessLoop i total access finish s) := by
  simp only [accessLoop]
  split
  · split
    · exact hold_RamOk _ _ (ha _ ‹_›)
    · exact retire_RamOk _ (hf _ (ha _ ‹_›))
  · exact retire_RamOk _ (hf _ h)

theorem fillRect_RamOk {s : State} (h : RamOk s) (cx cy w : Nat) (color : Byte) (k : Nat) :
    RamOk (fillRect cx cy w color k s) := writeCP_RamOk h (cell_lt _ _) _

theorem clearPool_RamOk {s : State} (h : RamOk s) {k : Nat} (hk : k < poolBytes s) : RamOk (clearPool k s) :=
  writeRAMF_RamOk h (by simp only [poolBytes] at hk; omega) _

theorem fillScreen_RamOk {s : State} (h : RamOk s) (tile color : Byte) {k : Nat} (hk : k < 2 * Config.cells) :
    RamOk (fillScreen tile color k s) := by
  simp only [fillScreen]
  split
  · exact writeTP_RamOk h ‹_› _
  · exact writeCP_RamOk h (by omega) _

theorem clearScreen_RamOk {s : State} (h : RamOk s) (color : Byte) {k : Nat} (hk : k < poolBytes s + 2 * Config.cells) :
    RamOk (clearScreen color k s) := by
  simp only [clearScreen]
  split
  · exact clearPool_RamOk h ‹_›
  · split
    · exact fillScreen_RamOk (rewindPool_RamOk h) 0 color (by decide)
    · exact fillScreen_RamOk h 0 color (by omega)

theorem copyGlyph_RamOk {s : State} (h : RamOk s) (fi : Byte) (src : Word) (ri : Byte) {k : Nat} (hk : k < 8) :
    RamOk (copyGlyph fi src ri k s) := writeRAMF_RamOk h (slotRow_lt _ hk) _

theorem paintFrom_RamOk {s : State} (h : RamOk s) (i : Instr) (d : Sprite) (k : Nat) : RamOk (paintFrom i d k s) := by
  unfold paintFrom
  split
  · exact hold_RamOk _ _ (fillRect_RamOk h _ _ _ _ _)
  · exact retire_RamOk _ h

theorem drawPixelStep_RamOk {s : State} (h : RamOk s) (i : Instr) (d : Sprite) (q : Nat) (p : PixPos) :
    RamOk (drawPixelStep i d q p s) := hold_RamOk _ _ (setPixelStep_RamOk h _ _ _ _)

theorem drawFrom_RamOk {s : State} (h : RamOk s) (i : Instr) (d : Sprite) (q : Nat) : RamOk (drawFrom i d q s) := by
  unfold drawFrom
  split
  · exact drawPixelStep_RamOk h _ _ _ _
  · exact paintFrom_RamOk h _ _ _

theorem drawStep_RamOk {s : State} (h : RamOk s) (i : Instr) (d : Sprite) : RamOk (drawStep i d s) := by
  unfold drawStep
  split
  · exact drawPixelStep_RamOk h _ _ _ _
  · exact drawFrom_RamOk h _ _ _
  · exact paintFrom_RamOk h _ _ _
  · exact drawFrom_RamOk h _ _ _

theorem cellAt_lt (d : Sprite) (key : Nat × Nat) : d.cellAt key < Config.cells := cell_lt _ _

theorem rowAddr_lt (d : Sprite) (tiles : Tiles) (q : Nat) : d.rowAddr tiles q < Config.ramfSize :=
  slotRow_lt _ (Nat.mod_lt _ (by decide))

theorem rowsFrom_RamOk {s : State} (h : RamOk s) (i : Instr) (d : Sprite) (q : Nat) (tiles : Tiles) :
    RamOk (rowsFrom i d q tiles s) := by
  unfold rowsFrom
  split
  · exact hold_RamOk _ _ h
  · exact paintFrom_RamOk h _ _ _

theorem cellsFrom_RamOk {s : State} (h : RamOk s) (i : Instr) (d : Sprite) (q : Nat) (tiles : Tiles) :
    RamOk (cellsFrom i d q tiles s) := by
  unfold cellsFrom
  split
  · split <;> exact hold_RamOk _ _ h
  · exact rowsFrom_RamOk h _ _ _ _

theorem draw8Step_RamOk {s : State} (h : RamOk s) (i : Instr) (d : Sprite) : RamOk (draw8Step i d s) := by
  unfold draw8Step
  split
  · exact cellsFrom_RamOk (settle_RamOk _ h) _ _ _ _
  · exact hold_RamOk _ _ (acquireWrite_RamOk h (cellAt_lt _ _))
  · exact rowsFrom_RamOk h _ _ _ _
  · exact hold_RamOk _ _ (writeRAMF_RamOk h (rowAddr_lt _ _ _) _)
  · exact paintFrom_RamOk h _ _ _
  · exact cellsFrom_RamOk h _ _ _ _

/-- Every step of a command keeps the memories in canonical form and inside their sizes (20 R76). -/
theorem exec_RamOk {i : Instr} {s t : State} (hs : RamOk s) (h : exec i s = .next t) : RamOk t := by
  cases i <;> simp only [exec] at h
  case start alt base =>
    simp only [execStart] at h
    (repeat' split at h) <;> cases h <;> exact ⟨hs.tp, hs.cpl, hs.ramf⟩
  case stop => cases h; exact ⟨hs.tp, hs.cpl, hs.ramf⟩
  case setsrc alt base =>
    simp only [execSetsrc] at h
    split at h <;> cases h <;> exact ⟨hs.tp, hs.cpl, hs.ramf⟩
  case waitf n =>
    simp only [execWaitf] at h
    (repeat' split at h) <;> cases h <;> exact ⟨hs.tp, hs.cpl, hs.ramf⟩
  case getframe => cases h; exact ⟨hs.tp, hs.cpl, hs.ramf⟩
  case acquire cx cy =>
    simp only [execAcquire] at h
    (repeat' split at h) <;> cases h
    · exact retire_RamOk _ (setResult_RamOk _ (takeSlot_RamOk (acquireWrite_RamOk hs (cell_lt _ _))))
    · exact hold_RamOk _ _ hs
    · exact retire_RamOk _ (setResult_RamOk _ hs)
  case resetpool =>
    cases h
    exact accessLoop_RamOk hs (fun k hk => clearPool_RamOk hs hk) fun u hu => rewindPool_RamOk hu
  case setfirstfree n =>
    simp only [execSetfirstfree] at h
    split at h <;> cases h <;> exact ⟨hs.tp, hs.cpl, hs.ramf⟩
  case settile cx cy val => cases h; exact retire_RamOk _ (writeTP_RamOk hs (cell_lt _ _) _)
  case gettile cx cy => cases h; exact retire_RamOk _ (setResult_RamOk _ hs)
  case setcolor cx cy val => cases h; exact retire_RamOk _ (writeCP_RamOk hs (cell_lt _ _) _)
  case getcolor cx cy => cases h; exact retire_RamOk _ (setResult_RamOk _ hs)
  case fillcolor cx cy w h' color =>
    cases h
    exact accessLoop_RamOk hs (fun k _ => fillRect_RamOk hs _ _ _ _ _) fun u hu => hu
  case fillscr tile color =>
    cases h
    exact accessLoop_RamOk hs (fun k hk => fillScreen_RamOk hs _ _ hk) fun u hu => hu
  case setpixel x y on =>
    cases h
    exact goOn_RamOk _ _ (setPixelStep_RamOk hs _ _ _ _)
  case drawbmp x y w h' base frame on paint color =>
    cases h
    split
    · exact retire_RamOk _ hs
    · exact drawStep_RamOk hs _ _
  case drawbmp8 x y w h' base frame on paint color =>
    cases h
    split
    · exact retire_RamOk _ hs
    · exact draw8Step_RamOk hs _ _
  case cleargraph color =>
    cases h
    exact accessLoop_RamOk hs (fun k hk => clearScreen_RamOk hs _ hk) fun u hu => hu
  case copyfont fi src ri =>
    cases h
    split
    · exact retire_RamOk _ hs
    · exact accessLoop_RamOk hs (fun k hk => copyGlyph_RamOk hs _ _ _ hk) fun u hu => hu

/-! ### The allocator keeps its range -/

/-- 1 <= FIRSTFREE <= NEXTFREE (10 R50(a)). -/
def AllocOk (s : State) : Prop := 1 ≤ s.firstFree.toNat ∧ s.firstFree.toNat ≤ s.nextFree.toNat

/-- The slot after NEXTFREE, from 255 on FIRSTFREE, stays in the range (42 R190). -/
theorem nextSlot_range {ff nf : Byte} (h : ff.toNat ≤ nf.toNat) : ff.toNat ≤ (if nf = 255 then ff else nf + 1).toNat := by
  split
  · exact le_rfl
  · rename_i hne
    have h1 : nf.toNat ≠ 255 := fun h' => hne (BitVec.eq_of_toNat_eq (by simpa using h'))
    have h2 := nf.isLt
    have : (nf + 1).toNat = nf.toNat + 1 := by simp only [BitVec.toNat_add]; simp; omega
    omega

theorem takeSlot_AllocOk {s : State} (h : AllocOk s) : AllocOk (takeSlot s) := ⟨h.1, nextSlot_range h.2⟩

theorem settle_AllocOk {s : State} (fresh : Bool) (h : AllocOk s) : AllocOk (settle fresh s) := by
  cases fresh
  · exact h
  · exact takeSlot_AllocOk h

/-- Every step of a command keeps the allocator registers in their range (10 R50(a)). -/
theorem exec_AllocOk {i : Instr} {s t : State} (hs : AllocOk s) (h : exec i s = .next t) : AllocOk t := by
  cases i <;>
    simp only [exec, execStart, execStop, execSetsrc, execWaitf, execGetframe, execAcquire, execResetpool, execSetfirstfree,
      execSettile, execGettile, execSetcolor, execGetcolor, execFillcolor, execFillscr, execSetpixel, execDrawbmp,
      execDrawbmp8, execCleargraph, execCopyfont, accessLoop, drawStep, draw8Step, drawFrom, drawPixelStep, paintFrom,
      cellsFrom, cellWriteStep, rowsFrom, rowWriteStep, goOn, setPixelStep, settle, clearScreen, clearPool, fillScreen, fillRect, copyGlyph] at h <;>
    (repeat' split at h) <;> cases h <;> first
      | exact hs
      | exact ⟨hs.1, nextSlot_range hs.2⟩
      | exact ⟨hs.1, le_rfl⟩
      | skip
  rename_i n hn
  have : n.toNat ≠ 0 := fun h => hn (BitVec.eq_of_toNat_eq (by simpa using h))
  exact ⟨show 1 ≤ n.toNat by omega, show n.toNat ≤ n.toNat from le_rfl⟩

/-! ### The allocation -/

/-- The cell that Acquire has written holds the slot that was next (42 R190). -/
theorem acquireWrite_read {s : State} (h : Memory.WF Config.cells s.memTP) (c a : Nat) :
    (acquireWrite c s).memTP.read a = if c = a then s.nextFree else s.memTP.read a := read_write h c a _

/-- The bit of pixel p of a row byte after the read-modify-write: the pixel's own is set or cleared, the others stay (44 R230). -/
theorem maskByte_rowBit (on : Bool) (b : Byte) {q p : Nat} (hq : q < 8) (hp : p < 8) :
    rowBit (maskByte on b (0x80#8 >>> q)) p = if p = q then on else rowBit b p := by
  have hm : ∀ q < 8, ∀ p < 8, (0x80#8 >>> q).getLsbD (7 - p) = decide (p = q) := by decide
  have hm' : ∀ q < 8, ∀ p < 8, (~~~(0x80#8 >>> q)).getLsbD (7 - p) = !decide (p = q) := by decide
  cases on <;> simp only [maskByte, rowBit, if_true, Bool.false_eq_true, if_false, BitVec.getLsbD_or, BitVec.getLsbD_and,
    hm q hq p hp, hm' q hq p hp] <;> by_cases hpq : p = q <;> simp [hpq]

end Sys2Proof.Machine
end

