-- ==== Sys2Proof/Laws/InFlight.lean ====
section
/-! SUPPORT. The position of the command in flight: what it depends on, and that every step of a command leads to a position of
its pseudocode with its latched values true. -/

namespace Sys2Proof.Machine

/-! ### What a position depends on -/

/-- The tiles look at TP only. -/
theorem TilesOk_congr {d : Sprite} {tiles : Tiles} {s t : State} (tp : t.memTP = s.memTP) (h : TilesOk d tiles s) :
    TilesOk d tiles t := ⟨h.nodup, h.inBox, by rw [tp]; exact h.held⟩

/-- The position looks at TP, RAMF, ROM and FIRSTFREE only. -/
theorem PosOk_congr {c : InFlight} {s t : State} (tp : t.memTP = s.memTP) (ramf : t.memRAMF = s.memRAMF)
    (rom : t.memROM = s.memROM) (ff : t.firstFree = s.firstFree) (h : c.PosOk s) : c.PosOk t := by
  have pix : ∀ x y p, PixPos.Ok x y p s → PixPos.Ok x y p t := fun x y p h => by
    cases p
    · trivial
    · exact (congrArg (Memory.read · _) tp).trans h
    · exact ⟨h.1, (congrArg (Memory.read · _) tp).trans h.2⟩
    · exact ⟨h.1, (congrArg (Memory.read · _) tp).trans h.2.1, (congrArg (Memory.read · _) ramf).trans h.2.2⟩
  obtain ⟨i, p⟩ := c
  cases i <;> cases p <;> simp only [InFlight.PosOk] at h ⊢ <;>
    first
      | exact h
      | (rw [tp]; exact h)
      | (simp only [poolBytes, ff]; exact h)
      | exact ⟨h.1, h.2.1, pix _ _ _ h.2.2⟩
      | (rw [rom]; exact ⟨h.1, h.2.1, h.2.2.1, h.2.2.2.1, pix _ _ _ h.2.2.2.2⟩)
      | exact ⟨h.1, h.2.1, h.2.2.1, TilesOk_congr tp h.2.2.2⟩
      | (rw [rom, tp]; exact ⟨h.1, h.2.1, h.2.2.1, TilesOk_congr tp h.2.2.2.1, h.2.2.2.2⟩)
      | (rw [ramf]; exact ⟨h.1, h.2.1, h.2.2.1, TilesOk_congr tp h.2.2.2.1, h.2.2.2.2⟩)

/-! ### SetPixel -/

theorem nextFree_ne_zero {s : State} (h : AllocOk s) : s.nextFree ≠ 0 := fun h0 => by
  have := h.1.trans h.2
  rw [h0] at this
  simp at this

/-- A step of SetPixel leads to a position after the first, with its values true. -/
theorem setPixelStep_ok {s : State} (hm : RamOk s) (ha : AllocOk s) {x y : Nat} {on : Bool} {p p' : PixPos}
    (hp : p.Ok x y s) (h : (setPixelStep x y on p s).2 = some p') :
    p' ≠ .acquire ∧ p'.Ok x y (setPixelStep x y on p s).1 := by
  cases p <;> simp only [setPixelStep] at h ⊢
  · split at h <;> cases h
    · rename_i h0
      rw [if_pos h0]
      exact ⟨by simp, h0⟩
    · rename_i h0
      rw [if_neg h0]
      exact ⟨by simp, h0, rfl⟩
  · cases h
    refine ⟨by simp, nextFree_ne_zero ha, ?_⟩
    rw [acquireWrite_read hm.tp, if_pos rfl]
  · cases h
    exact ⟨by simp, hp.1, by rw [settle_memTP]; exact hp.2, by rw [settle_memRAMF]⟩
  · cases h

/-- SetPixel does not touch ROM. -/
@[simp] theorem setPixelStep_memROM (x y : Nat) (on : Bool) (p : PixPos) (s : State) :
    (setPixelStep x y on p s).1.memROM = s.memROM := by
  cases p <;> simp only [setPixelStep, settle_memROM, acquireWrite_memROM, writeRAMF_memROM]
  split <;> rfl

/-! ### The tiles of DRAWBMP8 -/

/-- With no tile acquired yet. -/
theorem TilesOk_nil (d : Sprite) (s : State) : TilesOk d [] s := ⟨by simp, by simp, by simp⟩

theorem tileAt_none {tiles : Tiles} {key : Nat × Nat} : tileAt tiles key = none ↔ ∀ e ∈ tiles, e.1 ≠ key := by
  simp only [tileAt, List.lookup_eq_none_iff]
  exact forall₂_congr fun e _ => by rw [bne_iff_ne, ne_comm]

theorem tileAt_mem {tiles : Tiles} {key : Nat × Nat} {t : Byte} (h : tileAt tiles key = some t) : (key, t) ∈ tiles := by
  obtain ⟨l₁, l₂, rfl, -⟩ := List.lookup_eq_some_iff.1 h
  simp

/-- A number of phase A calls Acquire where its mask byte has a 1 bit and its cell has no tile (44 R242). -/
theorem needsTile_iff {d : Sprite} {rom : Memory} {tiles : Tiles} {q : Nat} : d.needsTile rom tiles q = true ↔
    d.mask rom (q % d.nc) (q / d.nc) ≠ 0 ∧ tileAt tiles (d.cellKey q) = none := by
  rw [Sprite.needsTile, Bool.and_eq_true, bne_iff_ne, Option.isNone_iff_eq_none]

/-- A number of phase B has a row to write where T is set and its sprite row lands in the cell (44 R242). -/
theorem hasRow_iff {d : Sprite} {tiles : Tiles} {q : Nat} : d.hasRow tiles q = true ↔
    (∃ t, tileAt tiles (q / 8 % d.nc, q / 8 / d.nc) = some t) ∧ d.cellRow (q % 8) = q / 8 / d.nc := by
  rw [Sprite.hasRow, Bool.and_eq_true, beq_iff_eq, Option.isSome_iff_exists]

/-- The keys of phase A lie under the sprite. -/
theorem cellKey_lt (d : Sprite) {q : Nat} (hq : q < 8 * d.nc) : (d.cellKey q).1 < d.nc ∧ (d.cellKey q).2 < 2 :=
  ⟨Nat.mod_lt _ d.nc_pos, d.cellRow_lt (Nat.div_lt_of_lt_mul (by rw [Nat.mul_comm]; exact hq))⟩

/-- The cells under a sprite of at most 16 columns are different cells (20 R61). -/
theorem cellAt_inj {d : Sprite} (hw : d.w ≤ 16) {a b : Nat × Nat} (ha : a.1 < d.nc ∧ a.2 < 2) (hb : b.1 < d.nc ∧ b.2 < 2)
    (h : d.cellAt a = d.cellAt b) : a = b := by
  have hn := d.nc_le hw
  obtain ⟨h1, h2⟩ := cell_inj h
  rw [Prod.ext_iff]
  omega

/-- One more tile, the one its cell holds now. -/
theorem TilesOk_snoc {d : Sprite} {tiles : Tiles} {s t : State} (h : TilesOk d tiles s) {key : Nat × Nat} {v : Byte}
    (hnone : tileAt tiles key = none) (hk : key.1 < d.nc ∧ key.2 < 2) (hv : v ≠ 0) (hnew : t.memTP.read (d.cellAt key) = v)
    (hold : ∀ e ∈ tiles, t.memTP.read (d.cellAt e.1) = s.memTP.read (d.cellAt e.1)) :
    TilesOk d (tiles ++ [(key, v)]) t where
  nodup := by
    rw [List.map_append, List.nodup_append]
    refine ⟨h.nodup, by simp, ?_⟩
    simp only [List.map_cons, List.map_nil, List.mem_map, List.mem_singleton]
    rintro _ ⟨e, he, rfl⟩ _ rfl
    exact tileAt_none.1 hnone e he
  inBox e he := by
    rcases List.mem_append.1 he with he | he
    · exact h.inBox e he
    · obtain rfl := List.mem_singleton.1 he
      exact hk
  held e he := by
    rcases List.mem_append.1 he with he | he
    · rw [hold e he]
      exact h.held e he
    · obtain rfl := List.mem_singleton.1 he
      exact ⟨hv, hnew⟩

/-! ### Every step leads to a position of the pseudocode -/

/-- The command goes on, if at all, at the position given. -/
theorem goOn_cur (i : Instr) (p : Option Pos) (s : State) :
    (goOn i p s).cur = p.map fun p => { instr := i, pos := p } := by
  cases p <;> rfl

theorem goOn_PosOk {i : Instr} {p : Option Pos} {s : State} {c : InFlight} (h : (goOn i p s).cur = some c)
    (hp : ∀ q, p = some q → InFlight.PosOk { instr := i, pos := q } s) : c.PosOk (goOn i p s) := by
  rw [goOn_cur] at h
  rcases p with _ | q <;> cases h
  exact PosOk_congr (s := s) rfl rfl rfl rfl (hp q rfl)

theorem hold_PosOk {i : Instr} {p : Pos} {s : State} {c : InFlight} (h : (hold i p s).cur = some c)
    (hp : InFlight.PosOk { instr := i, pos := p } s) : c.PosOk (hold i p s) := by
  cases h
  exact PosOk_congr (s := s) rfl rfl rfl rfl hp

theorem retire_PosOk {i : Instr} {s : State} {c : InFlight} (h : (retire i s).cur = some c) : c.PosOk (retire i s) := by
  cases h

/-- A step of an access loop leads to the next number, if at all. -/
theorem accessLoop_PosOk {i : Instr} {total : Nat} {access : Nat → State → State} {finish : State → State} {s : State}
    {c : InFlight} (h : (accessLoop i total access finish s).cur = some c)
    (hp : ∀ k, k + 1 < total → InFlight.PosOk { instr := i, pos := .index (k + 1) } (access k s)) :
    c.PosOk (accessLoop i total access finish s) := by
  simp only [accessLoop] at h ⊢
  split
  · rename_i h0
    rw [if_pos h0] at h
    split
    · rename_i h1
      rw [if_pos h1] at h
      exact hold_PosOk h (hp _ h1)
    · rename_i h1
      rw [if_neg h1] at h
      cases h
  · rename_i h0
    rw [if_neg h0] at h
    cases h

/-- From a cell of Paint on the command goes on with the next one, if at all. -/
theorem paintFrom_PosOk {i : Instr} {d : Sprite} {k : Nat} {s : State} {c : InFlight} (h : (paintFrom i d k s).cur = some c)
    (hp : d.paint = true → k < d.nc * d.nr → InFlight.PosOk { instr := i, pos := .paint (k + 1) } s) :
    c.PosOk (paintFrom i d k s) := by
  unfold paintFrom at h ⊢
  split
  · rename_i hk
    rw [if_pos hk] at h
    exact hold_PosOk h (PosOk_congr (s := s) rfl rfl rfl rfl (hp hk.1 hk.2))
  · rename_i hk
    rw [if_neg hk] at h
    exact retire_PosOk h

section
variable {x y w h : BitVec 16} {base : Word} {frame : Byte} {on paint : Bool} {color : Byte} {s : State}

/-- DRAWBMP from a cell of Paint on (44 R237). -/
theorem drawbmp_paint_PosOk (hn : nullSprite w h base = false) {k : Nat} {c : InFlight}
    (hcur : (paintFrom (.drawbmp x y w h base frame on paint color) (spriteOf x y w h base frame on paint color) k s).cur =
      some c) :
    c.PosOk (paintFrom (.drawbmp x y w h base frame on paint color) (spriteOf x y w h base frame on paint color) k s) :=
  paintFrom_PosOk hcur fun hp hk => ⟨hn, hp, Nat.succ_pos _, hk⟩

/-- An access of the SetPixel call of a pixel of DRAWBMP (44 R236). -/
theorem drawPixelStep_PosOk (hm : RamOk s) (ha : AllocOk s) (hn : nullSprite w h base = false) {q : Nat} {p : PixPos}
    (hq : q < w.toNat * h.toNat) (hb : (spriteOf x y w h base frame on paint color).bitAt s.memROM q = true)
    (hok : p.Ok (x.toNat + q % w.toNat) (y.toNat + q / w.toNat) s) {c : InFlight}
    (hcur : (drawPixelStep (.drawbmp x y w h base frame on paint color) (spriteOf x y w h base frame on paint color) q p
      s).cur = some c) :
    c.PosOk (drawPixelStep (.drawbmp x y w h base frame on paint color) (spriteOf x y w h base frame on paint color) q p s) := by
  refine hold_PosOk hcur ?_
  have hok' := fun p' => setPixelStep_ok (p' := p') (on := on) hm ha hok
  have hrom := setPixelStep_memROM (x.toNat + q % w.toNat) (y.toNat + q / w.toNat) on p s
  show InFlight.PosOk
    { instr := _, pos := (setPixelStep (x.toNat + q % w.toNat) (y.toNat + q / w.toNat) on p s).2.elim _ _ }
    (setPixelStep (x.toNat + q % w.toNat) (y.toNat + q / w.toNat) on p s).1
  generalize setPixelStep (x.toNat + q % w.toNat) (y.toNat + q / w.toNat) on p s = r at hok' hrom ⊢
  obtain ⟨t, _ | p'⟩ := r
  · exact ⟨hn, Nat.succ_pos _, hq⟩
  · exact ⟨hn, hq, by rw [hrom]; exact hb, hok' p' rfl⟩

/-- DRAWBMP from a pixel number on (44 R236). -/
theorem drawFrom_PosOk (hm : RamOk s) (ha : AllocOk s) (hn : nullSprite w h base = false) {q : Nat} {c : InFlight}
    (hcur : (drawFrom (.drawbmp x y w h base frame on paint color) (spriteOf x y w h base frame on paint color) q s).cur =
      some c) :
    c.PosOk (drawFrom (.drawbmp x y w h base frame on paint color) (spriteOf x y w h base frame on paint color) q s) := by
  unfold drawFrom at hcur ⊢
  split
  · rename_i q' hq
    simp only [hq] at hcur
    exact drawPixelStep_PosOk (p := .acquire) hm ha hn (findFrom_lt hq) (findFrom_some hq).2.2.1 trivial hcur
  · rename_i hq
    simp only [hq] at hcur
    exact drawbmp_paint_PosOk hn hcur

/-- A step of DRAWBMP leads to a position of its pseudocode, if at all. -/
theorem drawStep_PosOk (hm : RamOk s) (ha : AllocOk s) (hn : nullSprite w h base = false)
    (hc : ∀ c, s.cur = some c → c.instr = .drawbmp x y w h base frame on paint color ∧ c.PosOk s) {c : InFlight}
    (hcur : (drawStep (.drawbmp x y w h base frame on paint color) (spriteOf x y w h base frame on paint color) s).cur = some c) :
    c.PosOk (drawStep (.drawbmp x y w h base frame on paint color) (spriteOf x y w h base frame on paint color) s) := by
  unfold drawStep at hcur ⊢
  split at hcur
  · rename_i q p he
    obtain ⟨rfl, -, hq, hb, -, hok⟩ := hc _ he
    exact drawPixelStep_PosOk hm ha hn hq hb hok hcur
  · exact drawFrom_PosOk hm ha hn hcur
  · exact drawbmp_paint_PosOk hn hcur
  · exact drawFrom_PosOk hm ha hn hcur

/-- DRAWBMP8 from a cell of Paint on (44 R237). -/
theorem drawbmp8_paint_PosOk (hr : inRestriction w h base) {k : Nat} {c : InFlight}
    (hcur : (paintFrom (.drawbmp8 x y w h base frame on paint color) (spriteOf x y w h base frame on paint color) k s).cur =
      some c) :
    c.PosOk (paintFrom (.drawbmp8 x y w h base frame on paint color) (spriteOf x y w h base frame on paint color) k s) :=
  paintFrom_PosOk hcur fun hp hk => ⟨hr, hp, Nat.succ_pos _, hk⟩

/-- DRAWBMP8 from a number of phase B on (44 R242). -/
theorem rowsFrom_PosOk (hr : inRestriction w h base) {q : Nat} {tiles : Tiles}
    (ht : TilesOk (spriteOf x y w h base frame on paint color) tiles s) {c : InFlight}
    (hcur : (rowsFrom (.drawbmp8 x y w h base frame on paint color) (spriteOf x y w h base frame on paint color) q tiles s).cur =
      some c) :
    c.PosOk (rowsFrom (.drawbmp8 x y w h base frame on paint color) (spriteOf x y w h base frame on paint color) q tiles s) := by
  unfold rowsFrom at hcur ⊢
  split
  · rename_i q' hq
    simp only [hq] at hcur
    exact hold_PosOk hcur ⟨hr, findFrom_lt hq, (findFrom_some hq).2.2.1, ht, rfl⟩
  · rename_i hq
    simp only [hq] at hcur
    exact drawbmp8_paint_PosOk hr hcur

/-- DRAWBMP8 from a number of phase A on (44 R242). -/
theorem cellsFrom_PosOk (hr : inRestriction w h base) {q : Nat} {tiles : Tiles}
    (ht : TilesOk (spriteOf x y w h base frame on paint color) tiles s) {c : InFlight}
    (hcur : (cellsFrom (.drawbmp8 x y w h base frame on paint color) (spriteOf x y w h base frame on paint color) q tiles s).cur =
      some c) :
    c.PosOk (cellsFrom (.drawbmp8 x y w h base frame on paint color) (spriteOf x y w h base frame on paint color) q tiles s) := by
  unfold cellsFrom at hcur ⊢
  split
  · rename_i q' hq
    simp only [hq] at hcur
    have hlt := findFrom_lt hq
    have hneed := (findFrom_some hq).2.2.1
    split
    · rename_i h0
      rw [if_pos h0] at hcur
      exact hold_PosOk hcur ⟨hr, hlt, hneed, ht, h0⟩
    · rename_i h0
      rw [if_neg h0] at hcur
      exact hold_PosOk hcur ⟨hr, Nat.succ_pos _, hlt,
        TilesOk_snoc ht (needsTile_iff.1 hneed).2 (cellKey_lt _ hlt) h0 rfl fun e _ => rfl⟩
  · rename_i hq
    simp only [hq] at hcur
    exact rowsFrom_PosOk hr ht hcur

/-- A step of DRAWBMP8 leads to a position of its pseudocode, if at all. -/
theorem draw8Step_PosOk (hm : RamOk s) (ha : AllocOk s) (hr : inRestriction w h base)
    (hc : ∀ c, s.cur = some c → c.instr = .drawbmp8 x y w h base frame on paint color ∧ c.PosOk s) {c : InFlight}
    (hcur : (draw8Step (.drawbmp8 x y w h base frame on paint color) (spriteOf x y w h base frame on paint color) s).cur =
      some c) :
    c.PosOk (draw8Step (.drawbmp8 x y w h base frame on paint color) (spriteOf x y w h base frame on paint color) s) := by
  unfold draw8Step at hcur ⊢
  split at hcur
  · rename_i he
    obtain ⟨rfl, -, -, -, ht⟩ := hc _ he
    exact cellsFrom_PosOk hr (TilesOk_congr (settle_memTP _ _) ht) hcur
  · rename_i q tiles he
    obtain ⟨rfl, -, hq, hneed, ht, h0⟩ := hc _ he
    refine hold_PosOk hcur ⟨hr, Nat.succ_pos _, hq, TilesOk_snoc ht (needsTile_iff.1 hneed).2 (cellKey_lt _ hq)
      (nextFree_ne_zero ha) ?_ fun e he => ?_⟩
    · rw [acquireWrite_read hm.tp, if_pos rfl]
    · rw [acquireWrite_read hm.tp, if_neg fun heq => ?_]
      exact tileAt_none.1 (needsTile_iff.1 hneed).2 e he (cellAt_inj hr.2.2.2 (cellKey_lt _ hq) (ht.inBox e he) heq).symm
  · rename_i he
    obtain ⟨rfl, -, -, -, ht⟩ := hc _ he
    exact rowsFrom_PosOk hr ht hcur
  · rename_i he
    obtain ⟨rfl, -, hq, -, ht, -⟩ := hc _ he
    exact hold_PosOk hcur ⟨hr, Nat.succ_pos _, hq, TilesOk_congr (s := s) rfl ht⟩
  · exact drawbmp8_paint_PosOk hr hcur
  · exact cellsFrom_PosOk hr (TilesOk_nil _ _) hcur

end

/-- A step of a command leads to a position of its pseudocode with the latched values true, if at all (10 R44). -/
theorem exec_PosOk {i : Instr} {s t : State} (hm : RamOk s) (ha : AllocOk s)
    (hc : ∀ c, s.cur = some c → c.instr = i ∧ c.PosOk s) (h : exec i s = .next t) {c : InFlight} (hcur : t.cur = some c) :
    c.PosOk t := by
  cases i <;> simp only [exec] at h
  case start alt base =>
    simp only [execStart] at h
    (repeat' split at h) <;> cases h <;> cases hcur
  case stop => cases h; cases hcur
  case setsrc alt base =>
    simp only [execSetsrc] at h
    split at h <;> cases h <;> cases hcur
  case waitf n =>
    simp only [execWaitf] at h
    (repeat' split at h) <;> cases h <;> cases hcur
    trivial
  case getframe => cases h; cases hcur
  case acquire cx cy =>
    simp only [execAcquire] at h
    (repeat' split at h) <;> cases h
    · cases hcur
    · exact hold_PosOk hcur ‹_›
    · cases hcur
  case resetpool =>
    cases h
    exact accessLoop_PosOk hcur fun k hk => ⟨by omega, hk⟩
  case setfirstfree n =>
    simp only [execSetfirstfree] at h
    split at h <;> cases h <;> cases hcur
  case settile cx cy val => cases h; cases hcur
  case gettile cx cy => cases h; cases hcur
  case setcolor cx cy val => cases h; cases hcur
  case getcolor cx cy => cases h; cases hcur
  case fillcolor cx cy w h' color =>
    cases h
    exact accessLoop_PosOk hcur fun k hk => ⟨by omega, hk⟩
  case fillscr tile color =>
    cases h
    exact accessLoop_PosOk hcur fun k hk => ⟨by omega, hk⟩
  case setpixel x y on =>
    cases h
    refine goOn_PosOk hcur fun p hp => ?_
    rw [Option.map_eq_some_iff] at hp
    obtain ⟨p', hs, rfl⟩ := hp
    refine ⟨rfl, setPixelStep_ok hm ha ?_ hs⟩
    unfold pixelPos
    split
    · rename_i hcur
      obtain ⟨hi, hp⟩ := hc _ hcur
      cases hi
      exact hp.2.2
    · trivial
  case drawbmp x y w h' base frame on paint color =>
    cases h
    rcases hn : nullSprite w h' base with _ | _
    · simp only [hn, Bool.false_eq_true, if_false] at hcur ⊢
      exact drawStep_PosOk hm ha hn hc hcur
    · simp only [hn, if_true] at hcur
      cases hcur
  case drawbmp8 x y w h' base frame on paint color =>
    cases h
    split at hcur
    · cases hcur
    · rename_i hn
      rw [if_neg hn]
      simp only [nullSprite, Bool.or_eq_true, decide_eq_true_eq, not_or, not_not, not_lt] at hn
      exact draw8Step_PosOk hm ha ⟨hn.1.1.1.1, hn.1.1.2, hn.1.2, hn.2⟩ hc hcur
  case cleargraph color =>
    cases h
    refine accessLoop_PosOk hcur fun k hk => ⟨by omega, ?_⟩
    have : (clearScreen color k s).firstFree = s.firstFree := by
      simp only [clearScreen, clearPool, fillScreen]
      repeat' split
      all_goals rfl
    simp only [poolBytes, this]
    exact hk
  case copyfont fi src ri =>
    cases h
    split at hcur
    · cases hcur
    · rename_i hn
      rw [if_neg hn]
      exact accessLoop_PosOk hcur fun k hk => ⟨hn, by omega, hk⟩

end Sys2Proof.Machine
end

