-- ==== Sys2Proof/Laws/Runs.lean ====
section
/-! SUPPORT. Commands run without interruption: that such a run is determined by its start, that a command of a fixed number of
accesses runs through its loop, and what a loop of writes leaves in a memory. -/

namespace Sys2Proof.Machine

/-! ### Runs -/

/-- A command that retires at once. -/
theorem RunsIn.one {i : Instr} {s t : State} (h : exec i s = .next t) (done : t.cur = none) : RunsIn i 1 s t := .last h done

/-- The run of a command is determined by the state it starts in (60 R275). -/
theorem RunsIn.unique {i : Instr} {n m : Nat} {s t u : State} (h : RunsIn i n s t) (k : RunsIn i m s u) : n = m ∧ t = u := by
  induction h generalizing m u with
  | last h done =>
    cases k with
    | last h' _ => rw [h] at h'; exact ⟨rfl, by cases h'; rfl⟩
    | more h' c flying _ _ =>
      rw [h] at h'
      cases h'
      rw [done] at flying
      cases flying
  | more h c flying same rest ih =>
    cases k with
    | last h' done =>
      rw [h] at h'
      cases h'
      rw [done] at flying
      cases flying
    | more h' _ _ _ rest' =>
      rw [h] at h'
      cases h'
      obtain ⟨rfl, rfl⟩ := ih rest'
      exact ⟨rfl, rfl⟩

/-- A command ends its run retired, with cp past it (10 R21). -/
theorem RunsIn.retired {i : Instr} {n : Nat} {s t : State} (h : RunsIn i n s t) : t.cur = none ∧ t.cp = s.cp + i.len := by
  induction h with
  | last h done =>
    obtain ⟨_, hcp⟩ | ⟨p, hc, _⟩ := exec_retires_or_holds h
    · exact ⟨done, hcp⟩
    · rw [done] at hc; cases hc
  | more h c flying _ _ ih =>
    obtain ⟨hc, _⟩ | ⟨p, _, hcp⟩ := exec_retires_or_holds h
    · rw [flying] at hc; cases hc
    · exact ⟨ih.1, ih.2.trans (by rw [hcp])⟩

/-- What holds of a state and every step of the command keeps, holds where the command has retired. -/
theorem RunsIn.keeps {i : Instr} {n : Nat} {s t : State} (P : State → Prop) (step : ∀ u v, P u → exec i u = .next v → P v)
    (hs : P s) (h : RunsIn i n s t) : P t := by
  induction h with
  | last h _ => exact step _ _ hs h
  | more h _ _ _ _ ih => exact ih (step _ _ hs h)

/-- The step of a run that keeps the command in flight. -/
theorem RunsIn.step {i : Instr} {n : Nat} {s t u : State} {p : Pos} (h : exec i s = .next (hold i p u))
    (rest : RunsIn i n (hold i p u) t) : RunsIn i (n + 1) s t := .more h _ rfl rfl rest

/-! ### Loops of accesses -/

theorem loop_zero {σ : Type} (body : Nat → σ → σ) (s : σ) : loop 0 body s = s := rfl

theorem loop_succ {σ : Type} (n : Nat) (body : Nat → σ → σ) (s : σ) : loop (n + 1) body s = body n (loop n body s) := by
  simp [loop, List.range_succ]

/-- What the body of a loop keeps, the loop keeps. -/
theorem loop_keeps {σ : Type} (P : σ → Prop) {n : Nat} {body : Nat → σ → σ} (h : ∀ k s, k < n → P s → P (body k s)) {s : σ}
    (hs : P s) : P (loop n body s) := by
  induction n with
  | zero => exact hs
  | succ n ih =>
    rw [loop_succ]
    exact h n _ (by omega) (ih fun k s hk => h k s (by omega))

/-- A nest of two loops is one loop over the numbers r * cols + k. -/
theorem nest_eq_loop {σ : Type} (rows cols : Nat) (body : Nat → Nat → σ → σ) (s : σ) :
    nest rows cols body s = loop (rows * cols) (fun q => body (q / cols) (q % cols)) s := by
  rcases Nat.eq_zero_or_pos cols with rfl | hc
  · induction rows with
    | zero => rfl
    | succ r ih => simp [nest, loop]
  · have inner : ∀ r n, n ≤ cols → ∀ s : σ, (List.range n).foldl (fun s k => body r k s) (loop (r * cols)
        (fun q => body (q / cols) (q % cols)) s) = loop (r * cols + n) (fun q => body (q / cols) (q % cols)) s := by
      intro r n hn s
      induction n with
      | zero => rfl
      | succ n ih =>
        have hd : (r * cols + n) / cols = r := by
          rw [Nat.add_comm, Nat.add_mul_div_right _ _ hc, Nat.div_eq_of_lt (by omega)]; omega
        have hm : (r * cols + n) % cols = n := by
          rw [Nat.add_comm, Nat.add_mul_mod_self_right, Nat.mod_eq_of_lt (by omega)]
        rw [List.range_succ, List.foldl_append, ih (by omega), ← Nat.add_assoc, loop_succ, hd, hm]
        rfl
    induction rows with
    | zero => simp [nest, loop]
    | succ r ih =>
      rw [nest, List.range_succ, List.foldl_append]
      rw [nest] at ih
      rw [ih]
      simpa [Nat.succ_mul] using inner r cols le_rfl s

/-- A step of an access loop looks at the position in CUR only to know how many accesses were made. -/
theorem accessLoop_runsIn {i : Instr} {total : Nat} {access : Nat → State → State} {finish : State → State} (P : State → Prop)
    (hexec : ∀ u, P u → exec i u = .next (accessLoop i total access finish u))
    (hP : ∀ k u, P u → P (hold i (.index (k + 1)) (access k u)))
    (ha : ∀ k p u, access k (hold i p u) = hold i p (access k u))
    (hf : ∀ p u, retire i (finish (hold i p u)) = retire i (finish u)) {s : State} (hs : P s) (hcur : s.cur = none) :
    RunsIn i (max total 1) s (retire i (finish (loop total access s))) := by
  rcases Nat.eq_zero_or_pos total with rfl | ht
  · refine .last ?_ rfl
    rw [hexec s hs]
    simp [accessLoop, loop]
  have go : ∀ m k u, k + (m + 1) = total → indexPos u = k → P u →
      (∀ v, v = loop k access s → (∀ p, hold i p u = hold i p v) ∧
        (∀ j, hold i (.index (j + 1)) (access j u) = hold i (.index (j + 1)) (access j v)) ∧
        (∀ j, retire i (finish (access j u)) = retire i (finish (access j v)))) →
      RunsIn i (m + 1) u (retire i (finish (loop total access s))) := by
    intro m
    induction m with
    | zero =>
      intro k u hk hu hPu heq
      refine .last ?_ rfl
      obtain ⟨-, -, h3⟩ := heq _ rfl
      rw [hexec u hPu]
      simp only [accessLoop, hu]
      rw [if_pos (by omega), if_neg (by omega), h3, ← loop_succ k access s, hk]
    | succ m ih =>
      intro k u hk hu hPu heq
      obtain ⟨h1, h2, -⟩ := heq _ rfl
      refine RunsIn.step (u := access k (loop k access s)) (p := .index (k + 1)) ?_ (ih (k + 1) _ (by omega) rfl ?_ ?_)
      · rw [hexec u hPu]
        simp only [accessLoop, hu]
        rw [if_pos (by omega), if_pos (by omega), h2]
      · rw [← h2]
        exact hP k u hPu
      · rintro v rfl
        rw [loop_succ]
        refine ⟨fun p => rfl, fun j => ?_, fun j => ?_⟩
        · rw [ha]; rfl
        · rw [ha, hf]
  have := go (total - 1) 0 s (by omega) (by simp [indexPos, hcur]) hs fun v hv => by
    rw [hv, loop_zero]
    exact ⟨fun _ => rfl, fun _ => rfl, fun _ => rfl⟩
  rwa [show max total 1 = total - 1 + 1 by omega]

/-! ### What a loop of writes leaves -/

section
variable {n : Nat} {f : Nat → Nat} {g : Nat → Byte} {s : State}

/-- A loop of writes to CP writes nothing but CP. -/
theorem loop_writeCP_frame (n : Nat) (f : Nat → Nat) (g : Nat → Byte) (s : State) :
    loop n (fun k s => writeCP (f k) (g k) s) s =
      { s with memCP := (loop n (fun k s => writeCP (f k) (g k) s) s).memCP } := by
  induction n with
  | zero => rfl
  | succ n ih => rw [loop_succ, ih]; rfl

/-- A loop of writes to TP writes nothing but TP. -/
theorem loop_writeTP_frame (n : Nat) (f : Nat → Nat) (g : Nat → Byte) (s : State) :
    loop n (fun k s => writeTP (f k) (g k) s) s =
      { s with memTP := (loop n (fun k s => writeTP (f k) (g k) s) s).memTP } := by
  induction n with
  | zero => rfl
  | succ n ih => rw [loop_succ, ih]; rfl

/-- A loop of writes to RAMF writes nothing but RAMF. -/
theorem loop_writeRAMF_frame (n : Nat) (f : Nat → Nat) (g : Nat → Byte) (s : State) :
    loop n (fun k s => writeRAMF (f k) (g k) s) s =
      { s with memRAMF := (loop n (fun k s => writeRAMF (f k) (g k) s) s).memRAMF } := by
  induction n with
  | zero => rfl
  | succ n ih => rw [loop_succ, ih]; rfl

/-- A loop of writes of bytes that depend on the address alone: what was written where it wrote, the old byte elsewhere. -/
theorem loop_write_read {size : Nat} {m : Memory} (hm : Memory.WF size m) (hf : ∀ k < n, f k < size)
    (hg : ∀ j < n, ∀ k < n, f j = f k → g j = g k) :
    Memory.WF size (loop n (fun k m => Memory.write m (f k) (g k)) m) ∧
    (∀ k < n, (loop n (fun k m => Memory.write m (f k) (g k)) m).read (f k) = g k) ∧
    (∀ a, (∀ k < n, f k ≠ a) → (loop n (fun k m => Memory.write m (f k) (g k)) m).read a = m.read a) := by
  induction n with
  | zero => exact ⟨hm, by simp, fun _ _ => rfl⟩
  | succ n ih =>
    obtain ⟨h1, h2, h3⟩ := ih (fun k hk => hf k (by omega)) fun j hj k hk => hg j (by omega) k (by omega)
    refine ⟨by rw [loop_succ]; exact write_WF _ h1 (hf n (by omega)), fun k hk => ?_, fun a ha => ?_⟩
    · rw [loop_succ, read_write h1]
      split
      · exact hg n (by omega) k hk ‹_›
      · refine h2 k ?_
        have : k ≠ n := by rintro rfl; exact ‹¬ _› rfl
        omega
    · rw [loop_succ, read_write h1, if_neg (ha n (by omega))]
      exact h3 a fun k hk => ha k (by omega)

theorem loop_writeCP_mem : (loop n (fun k s => writeCP (f k) (g k) s) s).memCP =
    loop n (fun k m => Memory.write m (f k) (g k)) s.memCP := by
  induction n with
  | zero => rfl
  | succ n ih => rw [loop_succ, loop_succ, ← ih]; rfl

theorem loop_writeTP_mem : (loop n (fun k s => writeTP (f k) (g k) s) s).memTP =
    loop n (fun k m => Memory.write m (f k) (g k)) s.memTP := by
  induction n with
  | zero => rfl
  | succ n ih => rw [loop_succ, loop_succ, ← ih]; rfl

theorem loop_writeRAMF_mem : (loop n (fun k s => writeRAMF (f k) (g k) s) s).memRAMF =
    loop n (fun k m => Memory.write m (f k) (g k)) s.memRAMF := by
  induction n with
  | zero => rfl
  | succ n ih => rw [loop_succ, loop_succ, ← ih]; rfl

end

end Sys2Proof.Machine
end

