-- ==== Sys2Proof/Laws/Blit.lean ====
section
/-! SUPPORT. The blit commands run without interruption: from each position of a command in flight, to the state that the rest
of its pseudocode computes. -/

namespace Sys2Proof.Machine

/-! ### Runs that a step has begun -/

/-- The command, whose step has led to `u`, has retired there in `t`, or is in flight and runs from there to `t`. -/
def RunsOn (i : Instr) (u t : State) : Prop :=
  (u = t ∧ t.cur = none) ∨ ∃ (p : Pos) (v : State) (n : Nat), u = hold i p v ∧ RunsIn i n u t

theorem RunsOn.done (i : Instr) (s : State) : RunsOn i (retire i s) (retire i s) := .inl ⟨rfl, rfl⟩

/-- A step, and the run from where it leads. -/
theorem RunsOn.start {i : Instr} {s u t : State} (h : exec i s = .next u) (rest : RunsOn i u t) : ∃ n, RunsIn i n s t := by
  obtain ⟨rfl, hc⟩ | ⟨p, v, n, rfl, hr⟩ := rest
  · exact ⟨1, .last h hc⟩
  · exact ⟨n + 1, RunsIn.step h hr⟩

/-- The next step of a command in flight, and the run from where it leads. -/
theorem RunsOn.held {i : Instr} {p : Pos} {v u t : State} (h : exec i (hold i p v) = .next u) (rest : RunsOn i u t) :
    RunsOn i (hold i p v) t :=
  (RunsOn.start h rest).elim fun n hn => .inr ⟨p, v, n, rfl, hn⟩

/-- The numbers from `q` on, `n` of them, one after the other. -/
def loopFrom {σ : Type} (body : Nat → σ → σ) : Nat → Nat → σ → σ
  | 0, _, s => s
  | n + 1, q, s => loopFrom body n (q + 1) (body q s)

/-- The loop from 0 is the loop. -/
theorem loopFrom_zero {σ : Type} (body : Nat → σ → σ) (n : Nat) (s : σ) : loopFrom body n 0 s = loop n body s := by
  have snoc : ∀ n q (s : σ), loopFrom body (n + 1) q s = body (q + n) (loopFrom body n q s) := by
    intro n
    induction n with
    | zero => intro q s; rfl
    | succ n ih => intro q s; rw [loopFrom, ih, loopFrom, Nat.add_assoc, Nat.add_comm 1]
  induction n with
  | zero => rfl
  | succ n ih => rw [snoc, ih, loop_succ, Nat.zero_add]

/-! ### What a step does not look at -/

theorem settle_hold (fresh : Bool) (i : Instr) (p : Pos) (s : State) :
    settle fresh (hold i p s) = hold i p (settle fresh s) := by
  cases fresh <;> rfl

/-- An access of SetPixel does not look at CUR. -/
theorem setPixelStep_hold (x y : Nat) (on : Bool) (p : PixPos) (i : Instr) (q : Pos) (s : State) :
    setPixelStep x y on p (hold i q s) = (hold i q (setPixelStep x y on p s).1, (setPixelStep x y on p s).2) := by
  cases p
  · by_cases h0 : s.memTP.read (pixelCell x y) = 0
    · have h1 : (hold i q s).memTP.read (pixelCell x y) = 0 := h0
      simp only [setPixelStep, if_pos h0, if_pos h1]
    · have h1 : ¬(hold i q s).memTP.read (pixelCell x y) = 0 := h0
      simp only [setPixelStep, if_neg h0, if_neg h1]
      rfl
  · rfl
  · exact Prod.ext (settle_hold _ _ _ _) rfl
  · rfl

section
variable (i : Instr) (d : Sprite) (k q : Nat) (tiles : Tiles) (p : Pos) (s : State)

theorem paintFrom_hold : paintFrom i d k (hold i p s) = paintFrom i d k s := by
  unfold paintFrom
  split <;> rfl

theorem drawPixelStep_hold (pp : PixPos) : drawPixelStep i d q pp (hold i p s) = drawPixelStep i d q pp s := by
  simp only [drawPixelStep, setPixelStep_hold]
  rfl

theorem drawFrom_hold : drawFrom i d q (hold i p s) = drawFrom i d q s := by
  unfold drawFrom
  rw [hold_memROM]
  split
  · exact drawPixelStep_hold _ _ _ _ _ _
  · exact paintFrom_hold _ _ _ _ _

theorem rowsFrom_hold : rowsFrom i d q tiles (hold i p s) = rowsFrom i d q tiles s := by
  unfold rowsFrom
  split
  · rfl
  · exact paintFrom_hold _ _ _ _ _

theorem cellsFrom_hold : cellsFrom i d q tiles (hold i p s) = cellsFrom i d q tiles s := by
  unfold cellsFrom
  rw [hold_memROM]
  split
  · rfl
  · exact rowsFrom_hold _ _ _ _ _ _

end

/-! ### SetPixel -/

@[simp] theorem atomicSetPixel_memROM (x y : Nat) (on : Bool) (s : State) : (atomicSetPixel x y on s).memROM = s.memROM := by
  simp only [atomicSetPixel, atomicAcquire, writeRAMF_memROM]
  split <;> rfl

/-- The accesses of one SetPixel call, three or four, come to the pseudocode of the call (44 R230): `step` is one of them, `pos`
where the command is kept inside the call, and `done` what follows its last access. -/
theorem setPixel_runsOn {i : Instr} {x y : Nat} {on : Bool} {pos : PixPos → Pos} {step : PixPos → State → State}
    {done : State → State} (hexec : ∀ p s, exec i (hold i (pos p) s) = .next (step p s))
    (hstep : ∀ p s, step p s =
      (setPixelStep x y on p s).2.elim (done (setPixelStep x y on p s).1) fun p' => hold i (pos p') (setPixelStep x y on p s).1)
    {s t : State} (rest : RunsOn i (done (atomicSetPixel x y on s)) t) : RunsOn i (step .acquire s) t := by
  have rmw : ∀ (u : State) (tile : Byte) (fresh : Bool),
      RunsOn i (done (writeRAMF (pixelRow tile y) (maskByte on (u.memRAMF.read (pixelRow tile y)) (pixelMask x))
        (settle fresh u))) t → RunsOn i (hold i (pos (.rmwRead tile fresh)) u) t := by
    intro u tile fresh h
    refine RunsOn.held (hexec _ _) ?_
    rw [hstep]
    refine RunsOn.held (hexec _ _) ?_
    rw [hstep]
    exact h
  rw [hstep]
  by_cases h0 : s.memTP.read (pixelCell x y) = 0
  · simp only [setPixelStep, if_pos h0]
    refine RunsOn.held (hexec _ _) ?_
    rw [hstep]
    refine rmw (acquireWrite (pixelCell x y) s) _ _ ?_
    simp only [atomicSetPixel, atomicAcquire, if_pos h0] at rest
    exact rest
  · simp only [setPixelStep, if_neg h0]
    refine rmw s _ _ ?_
    simp only [atomicSetPixel, atomicAcquire, if_neg h0] at rest
    exact rest

/-- SETPIXEL, started where no command is in flight, runs to the pseudocode of its call (44 R230). -/
theorem setpixel_runsIn (x y : BitVec 16) (on : Bool) {s : State} (hcur : s.cur = none) :
    ∃ n, RunsIn (.setpixel x y on) n s (retire (.setpixel x y on) (atomicSetPixel x.toNat y.toNat on s)) := by
  let i : Instr := .setpixel x y on
  let r := fun p u => setPixelStep x.toNat y.toNat on p u
  let step := fun p u => goOn i ((r p u).2.map (.pixel 0)) (r p u).1
  have hstep : ∀ p u, step p u = (r p u).2.elim (retire i (r p u).1) fun p' => hold i (.pixel 0 p') (r p u).1 := fun p u => by
    show goOn i _ _ = _
    generalize (r p u).2 = o
    cases o <;> rfl
  refine RunsOn.start (u := step .acquire s) ?_
    (setPixel_runsOn (pos := .pixel 0) (done := retire i) (fun p u => ?_) hstep (RunsOn.done i _))
  · show execSetpixel x y on s = _
    simp only [execSetpixel, pixelPos, hcur]
    rfl
  · show Host.Outcome.next (goOn i ((r p (hold i (.pixel 0 p) u)).2.map (.pixel 0)) (r p (hold i (.pixel 0 p) u)).1) = _
    rw [show r p (hold i (.pixel 0 p) u) = _ from setPixelStep_hold _ _ _ _ _ _ _, hstep]
    show _ = Host.Outcome.next ((setPixelStep x.toNat y.toNat on p u).2.elim _ _)
    generalize (setPixelStep x.toNat y.toNat on p u).2 = o
    cases o <;> rfl

/-! ### Paint -/

/-- Paint, as a loop over the cells of the bounding box (44 R237). -/
theorem atomicPaint_eq (d : Sprite) (s : State) :
    atomicPaint d s = loop (d.nc * d.nr) (fillRect d.cx0 d.cy0 d.nc d.color) s := by
  rw [atomicPaint, nest_eq_loop, Nat.mul_comm]
  rfl

/-- Paint from cell number k on (44 R237). -/
theorem paintFrom_runsOn {i : Instr} {d : Sprite} (hp : d.paint = true)
    (step : ∀ k s, exec i (hold i (.paint k) s) = .next (paintFrom i d k s)) (n k : Nat) (hk : k + n = d.nc * d.nr)
    (s : State) :
    RunsOn i (paintFrom i d k s) (retire i (loopFrom (fillRect d.cx0 d.cy0 d.nc d.color) n k s)) := by
  induction n generalizing k s with
  | zero =>
    rw [paintFrom, if_neg (by omega)]
    exact RunsOn.done _ _
  | succ n ih =>
    rw [paintFrom, if_pos ⟨hp, by omega⟩]
    exact RunsOn.held (step _ _) (by rw [paintFrom]; exact ih (k + 1) (by omega) _)

/-- What follows the pixels (44 R236, R242). -/
theorem afterPixels_runsOn {i : Instr} {d : Sprite} (step : ∀ k s, exec i (hold i (.paint k) s) = .next (paintFrom i d k s))
    (s : State) : RunsOn i (paintFrom i d 0 s) (retire i (atomicPaintIf d s)) := by
  rcases hp : d.paint with _ | _
  · rw [paintFrom, if_neg (by simp [hp]), atomicPaintIf, hp]
    exact RunsOn.done _ _
  · have := paintFrom_runsOn hp step (d.nc * d.nr) 0 (Nat.zero_add _) s
    rw [loopFrom_zero, ← atomicPaint_eq] at this
    rwa [atomicPaintIf, if_pos hp]

/-! ### DRAWBMP -/

/-- The body of DRAWBMP's loop for pixel number q (44 R236). -/
def drawPixel (d : Sprite) (q : Nat) (s : State) : State :=
  if d.bitAt s.memROM q then atomicSetPixel (d.x + q % d.w) (d.y + q / d.w) d.on s else s

/-- DRAWBMP's pixels, as a loop over their numbers (44 R236). -/
theorem atomicDraw_eq (d : Sprite) (s : State) :
    atomicDraw d s = atomicPaintIf d (loop (d.h * d.w) (drawPixel d) s) := by
  rw [atomicDraw, nest_eq_loop]
  rfl

section
variable {x y w h : BitVec 16} {base : Word} {frame : Byte} {on paint : Bool} {color : Byte}

/-- DRAWBMP of a valid geometry makes a step of its own (44 R236). -/
theorem drawbmp_eq (hn : nullSprite w h base = false) (s : State) :
    let d := spriteOf x y w h base frame on paint color
    let i : Instr := .drawbmp x y w h base frame on paint color
    exec i s = .next (drawStep i d s) := by
  intro d i
  show execDrawbmp x y w h base frame on paint color s = _
  rw [execDrawbmp, hn, if_neg (by simp)]

/-- DRAWBMP from pixel number q on runs through the rest of its pixels and its paint (44 R236). -/
theorem drawFrom_runsOn (hn : nullSprite w h base = false) (n q : Nat) (hq : q + n = w.toNat * h.toNat) (s : State) :
    let d := spriteOf x y w h base frame on paint color
    let i : Instr := .drawbmp x y w h base frame on paint color
    RunsOn i (drawFrom i d q s) (retire i (atomicPaintIf d (loopFrom (drawPixel d) n q s))) := by
  intro d i
  have hsize : d.w * d.h = w.toNat * h.toNat := rfl
  induction n generalizing q s with
  | zero =>
    rw [drawFrom, show d.w * d.h - q = 0 by omega]
    exact afterPixels_runsOn (fun k u => (drawbmp_eq hn _).trans (congrArg _ (paintFrom_hold i d k (.paint k) u))) s
  | succ n ih =>
    rcases hb : d.bitAt s.memROM q with _ | _
    · have e : drawFrom i d q s = drawFrom i d (q + 1) s := by
        rw [drawFrom, drawFrom, show d.w * d.h - q = n + 1 by omega, findFrom_skip hb,
          show d.w * d.h - (q + 1) = n by omega]
      rw [e, loopFrom, drawPixel, hb, if_neg (by simp)]
      exact ih (q + 1) (by omega) s
    · have e : drawFrom i d q s = drawPixelStep i d q .acquire s := by
        rw [drawFrom, show d.w * d.h - q = n + 1 by omega, findFrom_hit hb]
      rw [e, loopFrom, drawPixel, hb, if_pos rfl]
      refine setPixel_runsOn (x := d.x + q % d.w) (y := d.y + q / d.w) (on := d.on) (pos := .pixel q)
        (step := fun p u => drawPixelStep i d q p u) (done := hold i (.scan (q + 1)))
        (fun p u => (drawbmp_eq hn _).trans (congrArg _ (drawPixelStep_hold i d q (.pixel q p) u p))) (fun p u => ?_) ?_
      · show hold i (Option.elim _ _ _) _ = _
        generalize (setPixelStep (d.x + q % d.w) (d.y + q / d.w) d.on p u).2 = o
        cases o <;> rfl
      · exact RunsOn.held ((drawbmp_eq hn _).trans (congrArg _ (drawFrom_hold i d (q + 1) (.scan (q + 1)) _)))
          (ih (q + 1) (by omega) _)

end

/-! ### DRAWBMP8 -/

/-- The body of phase A for number q = j * nc + k (44 R242). -/
def phaseABody (d : Sprite) (q : Nat) (st : State × Tiles) : State × Tiles :=
  if d.needsTile st.1.memROM st.2 q then
    ((atomicAcquire (d.cellAt (d.cellKey q)) st.1).1,
      st.2 ++ [(d.cellKey q, (atomicAcquire (d.cellAt (d.cellKey q)) st.1).2)])
  else st

theorem atomicPhaseA_eq (d : Sprite) (s : State) : atomicPhaseA d s = loop (8 * d.nc) (phaseABody d) (s, []) := by
  rw [atomicPhaseA, nest_eq_loop]
  congr 1
  funext q st
  simp only [phaseABody, needsTile_iff]
  rfl

/-- The body of phase B for number q = (r * nc + k) * 8 + j (44 R242). -/
def phaseBBody (d : Sprite) (tiles : Tiles) (q : Nat) (s : State) : State :=
  if d.hasRow tiles q then
    writeRAMF (d.rowAddr tiles q)
      (maskByte d.on (s.memRAMF.read (d.rowAddr tiles q)) (d.mask s.memROM (q / 8 % d.nc) (q % 8))) s
  else s

theorem loop_id {σ : Type} (n : Nat) {body : Nat → σ → σ} (h : ∀ k s, body k s = s) (s : σ) : loop n body s = s := by
  induction n with
  | zero => rfl
  | succ n ih => rw [loop_succ, h, ih]

theorem loop_congr {σ : Type} {n : Nat} {f g : Nat → σ → σ} (h : ∀ k s, k < n → f k s = g k s) (s : σ) :
    loop n f s = loop n g s := by
  induction n with
  | zero => rfl
  | succ n ih => rw [loop_succ, loop_succ, ih fun k s hk => h k s (by omega), h n _ (by omega)]

theorem atomicPhaseB_eq (d : Sprite) (tiles : Tiles) (s : State) :
    atomicPhaseB d tiles s = loop (2 * d.nc * 8) (phaseBBody d tiles) s := by
  rw [atomicPhaseB, nest_eq_loop,
    ← nest_eq_loop (2 * d.nc) 8 (fun m j => phaseBBody d tiles (m * 8 + j)) s |>.trans (loop_congr (fun q s _ => by
      show phaseBBody d tiles (q / 8 * 8 + q % 8) s = _
      rw [Nat.div_add_mod']) s)]
  show _ = loop (2 * d.nc) (fun m s => loop 8 (fun j s => phaseBBody d tiles (m * 8 + j) s) s) s
  refine loop_congr (fun m s hm => ?_) s
  have hdiv : ∀ j < 8, (m * 8 + j) / 8 = m := fun j hj => by omega
  have hmod : ∀ j < 8, (m * 8 + j) % 8 = j := fun j hj => by omega
  rcases ht : tileAt tiles (m % d.nc, m / d.nc) with _ | tile
  · refine (Eq.trans (loop_congr (fun j s hj => ?_) s) (loop_id 8 (fun _ s => rfl) s)).symm
    rw [phaseBBody, if_neg]
    rw [Sprite.hasRow, hdiv j hj, ht]
    simp
  · show atomicCellPass d tile (m % d.nc) (m / d.nc) s = _
    unfold atomicCellPass
    refine loop_congr (fun j s hj => ?_) s
    rw [phaseBBody, Sprite.hasRow, Sprite.rowAddr, hdiv j hj, hmod j hj, ht]
    by_cases hr : d.cellRow j = m / d.nc <;> simp [hr]

section
variable {x y w h : BitVec 16} {base : Word} {frame : Byte} {on paint : Bool} {color : Byte}

/-- DRAWBMP8 inside its restriction makes a step of its own (44 R242). -/
theorem drawbmp8_eq (hr : inRestriction w h base) (s : State) :
    let d := spriteOf x y w h base frame on paint color
    let i : Instr := .drawbmp8 x y w h base frame on paint color
    exec i s = .next (draw8Step i d s) := by
  intro d i
  obtain ⟨h1, h2, h3, h4⟩ := hr
  show execDrawbmp8 x y w h base frame on paint color s = _
  rw [execDrawbmp8, if_neg]
  simp only [nullSprite, Bool.or_eq_true, decide_eq_true_eq, h1, h2, h3, or_false, false_or]
  simp [h4]

/-- Phase B from number q on runs through the rest of its bytes and the paint (44 R242). -/
theorem rowsFrom_runsOn (hr : inRestriction w h base) (tiles : Tiles) (n q : Nat)
    (hq : q + n = 2 * (spriteOf x y w h base frame on paint color).nc * 8) (s : State) :
    let d := spriteOf x y w h base frame on paint color
    let i : Instr := .drawbmp8 x y w h base frame on paint color
    RunsOn i (rowsFrom i d q tiles s) (retire i (atomicPaintIf d (loopFrom (phaseBBody d tiles) n q s))) := by
  intro d i
  change q + n = 2 * d.nc * 8 at hq
  induction n generalizing q s with
  | zero =>
    rw [rowsFrom, show 2 * d.nc * 8 - q = 0 by omega]
    exact afterPixels_runsOn (fun k u => (drawbmp8_eq hr _).trans (congrArg _ (paintFrom_hold i d k (.paint k) u))) s
  | succ n ih =>
    rcases hb : d.hasRow tiles q with _ | _
    · have e : rowsFrom i d q tiles s = rowsFrom i d (q + 1) tiles s := by
        rw [rowsFrom, rowsFrom, show 2 * d.nc * 8 - q = n + 1 by omega, findFrom_skip hb,
          show 2 * d.nc * 8 - (q + 1) = n by omega]
      rw [e, loopFrom, phaseBBody, hb, if_neg (by simp)]
      exact ih (q + 1) s (by omega)
    · rw [rowsFrom, show 2 * d.nc * 8 - q = n + 1 by omega, findFrom_hit hb, loopFrom, phaseBBody, hb, if_pos rfl]
      refine RunsOn.held (drawbmp8_eq hr _) (RunsOn.held (drawbmp8_eq hr _) ?_)
      show RunsOn i (rowsFrom i d (q + 1) tiles (hold i _ (writeRAMF _ _ (hold i _ s)))) _
      rw [rowsFrom_hold, show ∀ a v p, writeRAMF a v (hold i p s) = hold i p (writeRAMF a v s) from fun _ _ _ => rfl,
        rowsFrom_hold]
      exact ih (q + 1) _ (by omega)

@[simp] theorem atomicAcquire_memROM (c : Nat) (s : State) : (atomicAcquire c s).1.memROM = s.memROM := by
  simp only [atomicAcquire]
  split <;> rfl

/-- Phase A from number q on runs through the rest of its cells, phase B and the paint (44 R242). -/
theorem cellsFrom_runsOn (hr : inRestriction w h base) (n q : Nat)
    (hq : q + n = 8 * (spriteOf x y w h base frame on paint color).nc) (tiles : Tiles) (s : State) :
    let d := spriteOf x y w h base frame on paint color
    let i : Instr := .drawbmp8 x y w h base frame on paint color
    let a := loopFrom (phaseABody d) n q (s, tiles)
    RunsOn i (cellsFrom i d q tiles s) (retire i (atomicPaintIf d (atomicPhaseB d a.2 a.1))) := by
  intro d i
  change q + n = 8 * d.nc at hq
  induction n generalizing q s tiles with
  | zero =>
    intro a
    rw [cellsFrom, show 8 * d.nc - q = 0 by omega]
    have := rowsFrom_runsOn (x := x) (y := y) (frame := frame) (on := on) (paint := paint) (color := color) hr tiles
      (2 * d.nc * 8) 0 (Nat.zero_add _) s
    change RunsOn i (rowsFrom i d 0 tiles s) (retire i (atomicPaintIf d (loopFrom (phaseBBody d tiles) _ 0 s))) at this
    rwa [loopFrom_zero, ← atomicPhaseB_eq] at this
  | succ n ih =>
    intro a
    let c := d.cellAt (d.cellKey q)
    rcases hb : d.needsTile s.memROM tiles q with _ | _
    · have e : cellsFrom i d q tiles s = cellsFrom i d (q + 1) tiles s := by
        rw [cellsFrom, cellsFrom, show 8 * d.nc - q = n + 1 by omega, findFrom_skip hb,
          show 8 * d.nc - (q + 1) = n by omega]
      have hbody : phaseABody d q (s, tiles) = (s, tiles) := if_neg (by rw [hb]; simp)
      simp only [a, loopFrom, hbody, e]
      exact ih (q + 1) tiles s (by omega)
    · have hbody : phaseABody d q (s, tiles) = ((atomicAcquire c s).1, tiles ++ [(d.cellKey q, (atomicAcquire c s).2)]) :=
        if_pos hb
      have next := ih (q + 1) (tiles ++ [(d.cellKey q, (atomicAcquire c s).2)]) (atomicAcquire c s).1 (by omega)
      simp only [a, loopFrom, hbody]
      rw [cellsFrom, show 8 * d.nc - q = n + 1 by omega, findFrom_hit hb]
      by_cases h0 : s.memTP.read c = 0
      · have ha : atomicAcquire c s = (takeSlot (acquireWrite c s), s.nextFree) := if_pos h0
        rw [ha] at next ⊢
        simp only [c] at h0
        simp only [h0, if_true]
        refine RunsOn.held (drawbmp8_eq hr _) (RunsOn.held (drawbmp8_eq hr _) ?_)
        show RunsOn i (cellsFrom i d (q + 1) _ (settle true (hold i _ (acquireWrite _ (hold i _ s))))) _
        rw [settle_hold, cellsFrom_hold,
          show ∀ b p, acquireWrite b (hold i p s) = hold i p (acquireWrite b s) from fun _ _ => rfl, settle_hold, cellsFrom_hold]
        exact next
      · have ha : atomicAcquire c s = (s, s.memTP.read c) := if_neg h0
        rw [ha] at next ⊢
        simp only [c] at h0
        simp only [h0, if_false]
        refine RunsOn.held (drawbmp8_eq hr _) ?_
        show RunsOn i (cellsFrom i d (q + 1) _ (settle false (hold i _ s))) _
        rw [settle_hold, cellsFrom_hold]
        exact next

end

end Sys2Proof.Machine
end

