-- ==== Sys2Proof/Laws/Decode.lean ====
section
/-! SUPPORT. What a successful decoding says about the words. -/

namespace Sys2Proof

/-- Every row of the opcode map builds commands of the row's opcode and length (30 R96, R99). -/
theorem build_row {r : OpRow} (h : r ∈ opcodeMap) (w0 w1 w2 w3 : Word) :
    (r.build w0 w1 w2 w3).opcode = r.op ∧ (r.build w0 w1 w2 w3).len = r.len := by
  simp only [opcodeMap, List.cons_append, List.nil_append, List.mem_cons, List.not_mem_nil, or_false] at h
  rcases h with rfl | rfl | rfl | rfl | rfl | rfl | rfl | rfl | rfl | rfl | rfl | rfl | rfl | rfl | rfl | rfl | rfl | rfl | rfl <;>
    exact ⟨rfl, rfl⟩

/-- The row that the decoder finds is a row of the map, with the opcode it was asked for. -/
theorem opRow_some {op : Byte} {r : OpRow} (h : opRow op = some r) : r ∈ opcodeMap ∧ r.op = op :=
  ⟨List.mem_of_find?_eq_some h, by simpa using List.find?_some h⟩

/-- A decoded command comes from the row of its opcode, fits into the words there are, and has every must-be-zero bit 0
(30 R92). -/
theorem decode_ok {ws : List Word} {i : Instr} (h : decode ws = .ok i) :
    ∃ w0 rest r, ws = w0 :: rest ∧ opRow (opField w0) = some r ∧ r.len ≤ rest.length + 1 ∧ w0 &&& r.zero0 = 0 ∧
      rest.getD 0 0 &&& r.zero1 = 0 ∧ i = r.build w0 (rest.getD 0 0) (rest.getD 1 0) (rest.getD 2 0) := by
  unfold decode at h
  split at h
  · cases h
  · rename_i w0 rest
    split at h
    · cases h
    · rename_i r hr
      split at h
      · cases h
      · split at h
        · cases h
        · rename_i hl hz
          rw [not_or, not_not, not_not] at hz
          cases h
          exact ⟨w0, rest, r, rfl, hr, by omega, hz.1, hz.2, rfl⟩

/-- A decoded command fits into the words there are (30 R92, check 2). -/
theorem decode_len_le {ws : List Word} {i : Instr} (h : decode ws = .ok i) : i.len ≤ ws.length := by
  obtain ⟨w0, rest, r, rfl, hr, hl, -, -, rfl⟩ := decode_ok h
  rw [(build_row (opRow_some hr).1 _ _ _ _).2, List.length_cons]
  exact hl

theorem len_pos (i : Instr) : 0 < i.len := by cases i <;> exact Nat.succ_pos _

end Sys2Proof
end

