-- ==== Sys2Proof/Laws/PerInstr.lean ====
section
/-! SUPPORT. Laws made one command at a time. EncodeLen: a command's encoding has the command's length, and its first word
carries the command's opcode in its upper byte (30 R91, R96, R99). -/

namespace Sys2Proof

/-- The opcode byte of a word of four byte fields (30 R91). -/
theorem opField_byteWord (op a b c : Byte) : opField (byteWord op a b c) = op := by
  simp only [opField, byteWord]
  ext i hi
  simp only [BitVec.getElem_extractLsb', BitVec.getLsbD_append]
  simp [show ¬(24 + i < 8) by omega, show ¬(24 + i - 8 < 8) by omega, show ¬(24 + i - 8 - 8 < 8) by omega,
    show 24 + i - 8 - 8 - 8 = i by omega, BitVec.getLsbD_eq_getElem hi]

namespace Laws.EncodeLen

/-- The encoding has the length of the command and starts with its opcode. -/
def Statement (i : Instr) : Prop := (encode i).length = i.len ∧ opField ((encode i).getD 0 0) = i.opcode

theorem start (alt : Bool) (base : Word) : Statement (.start alt base) := ⟨rfl, opField_byteWord _ _ _ _⟩

theorem stop : Statement .stop := ⟨rfl, opField_byteWord _ _ _ _⟩

theorem setsrc (alt : Bool) (base : Word) : Statement (.setsrc alt base) := ⟨rfl, opField_byteWord _ _ _ _⟩

theorem waitf (n : BitVec 16) : Statement (.waitf n) := by
  refine ⟨rfl, ?_⟩
  simp only [encode, List.getD_cons_zero, opField, halfWord, Instr.opcode]
  ext i hi
  simp only [BitVec.getElem_extractLsb', BitVec.getLsbD_append]
  rw [if_neg (by omega)]
  clear n
  revert i
  decide

theorem getframe : Statement .getframe := ⟨rfl, opField_byteWord _ _ _ _⟩

theorem acquire (cx cy : Byte) : Statement (.acquire cx cy) := ⟨rfl, opField_byteWord _ _ _ _⟩

theorem resetpool : Statement .resetpool := ⟨rfl, opField_byteWord _ _ _ _⟩

theorem setfirstfree (n : Byte) : Statement (.setfirstfree n) := ⟨rfl, opField_byteWord _ _ _ _⟩

theorem settile (cx cy val : Byte) : Statement (.settile cx cy val) := ⟨rfl, opField_byteWord _ _ _ _⟩

theorem gettile (cx cy : Byte) : Statement (.gettile cx cy) := ⟨rfl, opField_byteWord _ _ _ _⟩

theorem setcolor (cx cy val : Byte) : Statement (.setcolor cx cy val) := ⟨rfl, opField_byteWord _ _ _ _⟩

theorem getcolor (cx cy : Byte) : Statement (.getcolor cx cy) := ⟨rfl, opField_byteWord _ _ _ _⟩

theorem fillcolor (cx cy w h color : Byte) : Statement (.fillcolor cx cy w h color) := ⟨rfl, opField_byteWord _ _ _ _⟩

theorem fillscr (tile color : Byte) : Statement (.fillscr tile color) := ⟨rfl, opField_byteWord _ _ _ _⟩

theorem setpixel (x y : BitVec 16) (on : Bool) : Statement (.setpixel x y on) := ⟨rfl, opField_byteWord _ _ _ _⟩

theorem drawbmp (x y w h : BitVec 16) (base : Word) (frame : Byte) (on paint : Bool) (color : Byte) : Statement (.drawbmp x y w h base frame on paint color) := ⟨rfl, opField_byteWord _ _ _ _⟩

theorem drawbmp8 (x y w h : BitVec 16) (base : Word) (frame : Byte) (on paint : Bool) (color : Byte) : Statement (.drawbmp8 x y w h base frame on paint color) := ⟨rfl, opField_byteWord _ _ _ _⟩

theorem cleargraph (color : Byte) : Statement (.cleargraph color) := ⟨rfl, opField_byteWord _ _ _ _⟩

theorem copyfont (fi : Byte) (src : Word) (ri : Byte) : Statement (.copyfont fi src ri) := ⟨rfl, opField_byteWord _ _ _ _⟩

end Laws.EncodeLen

end Sys2Proof
end

