-- ==== Sys2Proof/Laws/Step.lean ====
section
/-! SUPPORT. What a step of the engine can be, said once: every later proof about `step` goes by these cases. -/

namespace Sys2Proof.Machine

/-- Taking a choice from the schedule changes nothing but the schedule (60 R274). -/
theorem popTurn_eq (s : State) : popTurn s = { s with sched := (popTurn s).sched, turnCount := (popTurn s).turnCount } := rfl

@[simp] theorem fetch_popTurn (s : State) : fetch (popTurn s) = fetch s := by simp [fetch]

theorem nextTurn_cons {s : State} {t : Turn} {rest : List Turn} (h : s.sched = t :: rest) : nextTurn s = t := by
  simp [nextTurn, comingTurns, h]

theorem popTurn_cons {s : State} {t : Turn} {rest : List Turn} (h : s.sched = t :: rest) :
    popTurn s = { s with sched := rest } := by
  simp [popTurn, comingTurns, h]

/-- There is always a coming choice (60 R274). -/
theorem comingTurns_ne_nil (s : State) : comingTurns s ≠ [] := by
  unfold comingTurns
  split <;> simp_all

/-- What the step of the sequencer can be (60 R275, R282): on with the command in flight, the start of the next one, or a
command fault. -/
theorem cmdStep_cases {u t : State} (h : cmdStep u = .next t) :
    (∃ c, u.cur = some c ∧ exec c.instr u = .next t) ∨
    (u.cur = none ∧ ∃ i, fetch u = .ok i ∧ exec i u = .next t) ∨
    (u.cur = none ∧ ∃ e, fetch u = .error e ∧ t = raiseCmdFault e.cause u) := by
  unfold cmdStep at h
  split at h
  · exact .inl ⟨_, ‹_›, h⟩
  · split at h
    · exact .inr (.inl ⟨‹_›, _, ‹_›, h⟩)
    · cases h
      exact .inr (.inr ⟨‹_›, _, ‹_›, rfl⟩)

/-- Who moves (60 R271 to R274): REN while an interrupt is pending; otherwise TMR or CMD, whichever alone can, or the schedule's
choice where both can; nobody where neither can. -/
theorem mover_cases (s : State) :
    (s.irqPend = true ∧ mover s = some .ren) ∨
    (s.irqPend = false ∧
      (s.run = true ∧ cmdEnabled s = true ∧ choiceOpen s = true ∧
          (nextTurn s = .tmr ∧ mover s = some .tmr ∨ nextTurn s = .cmd ∧ mover s = some .cmd) ∨
        s.run = true ∧ cmdEnabled s = false ∧ choiceOpen s = false ∧ mover s = some .tmr ∨
        s.run = false ∧ cmdEnabled s = true ∧ choiceOpen s = false ∧ mover s = some .cmd ∨
        s.run = false ∧ cmdEnabled s = false ∧ choiceOpen s = false ∧ mover s = none)) := by
  unfold mover choiceOpen tickEnabled
  rcases hi : s.irqPend with _ | _ <;> rcases hr : s.run with _ | _ <;> rcases hc : cmdEnabled s with _ | _ <;>
    rcases hn : nextTurn s with _ | _ <;> simp

/-- What a step of the engine can be (60 R271 to R274): a line service, a tick, or a step of the sequencer; a choice is taken
from the schedule where the timers run and both of them could move. -/
theorem step_cases {s t : State} (h : step s = .next t) :
    (s.irqPend = true ∧ t = lineService s) ∨
    (s.irqPend = false ∧ s.run = true ∧
      (cmdEnabled s = false ∧ t = tick s ∨ cmdEnabled s = true ∧ nextTurn s = .tmr ∧ t = tick (popTurn s))) ∨
    (s.irqPend = false ∧ cmdEnabled s = true ∧
      (s.run = false ∧ cmdStep s = .next t ∨ s.run = true ∧ nextTurn s = .cmd ∧ cmdStep (popTurn s) = .next t)) := by
  unfold step nextStep at h
  obtain ⟨hi, hm⟩ | ⟨hi, ⟨hr, hc, ho, ⟨hn, hm⟩ | ⟨hn, hm⟩⟩ | ⟨hr, hc, ho, hm⟩ | ⟨hr, hc, ho, hm⟩ | ⟨hr, hc, ho, hm⟩⟩ := mover_cases s <;>
    simp only [afterChoice, *, if_true, Bool.false_eq_true, if_false] at h
  · cases h
    exact .inl ⟨hi, rfl⟩
  · cases h
    exact .inr (.inl ⟨hi, hr, .inr ⟨hc, hn, rfl⟩⟩)
  · exact .inr (.inr ⟨hi, hc, .inr ⟨hr, hn, h⟩⟩)
  · cases h
    exact .inr (.inl ⟨hi, hr, .inl ⟨hc, rfl⟩⟩)
  · exact .inr (.inr ⟨hi, hc, .inl ⟨hr, h⟩⟩)
  · cases h

/-- Where the sequencer has a step, no interrupt is pending and no command has faulted (60 R272). -/
theorem cmdEnabled_iff {s : State} : cmdEnabled s = true ↔
    s.irqPend = false ∧ s.cmdFault = false ∧
      ((∃ c, s.cur = some c ∧ inFlightReady c s = true) ∨ s.cur = none ∧ s.cp < s.prog.length) := by
  unfold cmdEnabled
  rcases hi : s.irqPend with _ | _ <;> rcases hf : s.cmdFault with _ | _ <;> rcases hc : s.cur with _ | c <;> simp

/-- Every step of a command in flight but step 2 of WAITF is ready (60 R272). -/
theorem inFlightReady_iff {c : InFlight} {s : State} : inFlightReady c s = true ↔
    ∀ n ws, c.instr = .waitf n → c.pos = .waiting ws → n.toNat ≤ (s.frameCount - ws).toNat := by
  obtain ⟨i, p⟩ := c
  cases i <;> cases p <;> simp [inFlightReady, waitOver]

/-- The meaning of every command but START with RUN = 1 and WAITF where it may not go on answers a next state. -/
theorem exec_next (i : Instr) (s : State) (hs : ∀ alt base, i = .start alt base → s.run = false)
    (hw : ∀ n, i = .waitf n → ∀ c ws, s.cur = some c → c.pos = .waiting ws → n.toNat ≤ (s.frameCount - ws).toNat) :
    ∃ t, exec i s = .next t := by
  cases i <;> try exact ⟨_, rfl⟩
  case start alt base =>
    simp only [exec, execStart, hs alt base rfl, Bool.false_eq_true, if_false]
    split <;> exact ⟨_, rfl⟩
  case acquire cx cy =>
    simp only [exec, execAcquire]
    split <;> exact ⟨_, rfl⟩
  case waitf n =>
    simp only [exec, execWaitf]
    split
    · have := hw n rfl _ _ ‹_› rfl
      exact ⟨_, if_pos (by simpa [waitOver] using this)⟩
    · exact ⟨_, rfl⟩

end Sys2Proof.Machine
end

