-- ==== Sys2Proof/Tests/Slice0.lean ====
section
/-! SUPPORT. The model's own tests. Expected results are those of 95_test_vectors.md (named V<n>, E<n> in the docstrings) or are
worked out by hand from the rule named. The witness_ theorems show, for each obligation with hypotheses, a concrete state and
operands that meet all of them. -/

namespace Sys2Proof.Tests
open Sys2Proof Sys2Proof.Machine

/-! ### Configurations -/

/-- TESTCFG (95 section 0). -/
def testCfg : Cfg :=
  { hTotal := 400, hSyncStart := 0, hSyncEnd := 48, hIrqAt := 60, pixTicks := 1, vTotal := 525, vSyncStart := 0, vSyncEnd := 2,
    vActStart := 35, vActEnd := 515, vEof := 515, hsyncActive := false, vsyncActive := false, latcompRom := 20, latcompRam := 24,
    fetchLatRom := 8, fetchLatRam := 4 }

theorem test_cfg_ok : testCfg.ok = true := by decide
theorem test_cfg_no_tick : { testCfg with hTotal := 0 }.ok = false := by decide
theorem test_cfg_hsync_order : { testCfg with hSyncStart := 49 }.ok = false := by decide
theorem test_cfg_hsync_end : { testCfg with hSyncEnd := 401 }.ok = false := by decide
theorem test_cfg_irq_at : { testCfg with hIrqAt := 400 }.ok = false := by decide
theorem test_cfg_pix_ticks : { testCfg with pixTicks := 0 }.ok = false := by decide
theorem test_cfg_no_line : { testCfg with vTotal := 0, vSyncEnd := 0, vActStart := 0, vActEnd := 0 }.ok = false := by decide
theorem test_cfg_vsync_order : { testCfg with vSyncStart := 3 }.ok = false := by decide
theorem test_cfg_vsync_end : { testCfg with vSyncEnd := 526 }.ok = false := by decide
theorem test_cfg_window_order : { testCfg with vActStart := 516 }.ok = false := by decide
theorem test_cfg_window_end : { testCfg with vActEnd := 526, vEof := 0 }.ok = false := by decide
theorem test_cfg_eof_line : { testCfg with vEof := 525 }.ok = false := by decide
theorem test_cfg_eof_in_window : { testCfg with vEof := 514 }.ok = false := by decide

/-! ### Words written out from 30 R93 and R96 (V1, V2, V3) -/

theorem test_decode_start : decode [0x01000000#32, 0x08004000#32] = .ok (.start false 0x08004000) := by decide
theorem test_decode_start_alt : decode [0x01010000#32, 0#32] = .ok (.start true 0) := by decide
theorem test_decode_stop : decode [0x02000000#32] = .ok .stop := by decide
theorem test_decode_setsrc : decode [0x03010000#32, 0x00001234#32] = .ok (.setsrc true 0x1234) := by decide
theorem test_decode_waitf : decode [0x04000258#32] = .ok (.waitf 600) := by decide
theorem test_decode_getframe : decode [0x05000000#32] = .ok .getframe := by decide
theorem test_decode_acquire : decode [0x101B1D00#32] = .ok (.acquire 27 29) := by decide
theorem test_decode_resetpool : decode [0x11000000#32] = .ok .resetpool := by decide
theorem test_decode_setfirstfree : decode [0x12000010#32] = .ok (.setfirstfree 16) := by decide
theorem test_decode_settile : decode [0x20030241#32] = .ok (.settile 3 2 65) := by decide
theorem test_decode_gettile : decode [0x21030200#32] = .ok (.gettile 3 2) := by decide
theorem test_decode_setcolor : decode [0x22000071#32] = .ok (.setcolor 0 0 0x71) := by decide
theorem test_decode_getcolor : decode [0x231F2000#32] = .ok (.getcolor 31 32) := by decide
theorem test_decode_fillcolor : decode [0x241A1D4F#32, 0x00000203#32] = .ok (.fillcolor 26 29 3 2 0x4F) := by decide
theorem test_decode_fillscr : decode [0x25002007#32] = .ok (.fillscr 32 7) := by decide
theorem test_decode_setpixel : decode [0x30010000#32, 0x00020009#32] = .ok (.setpixel 9 2 true) := by decide
theorem test_decode_drawbmp : decode [0x3103031F#32, 0x00320064#32, 0x00150018#32, 0x08001234#32] =
    .ok (.drawbmp 100 50 24 21 0x08001234 3 true true 0x1F) := by decide
theorem test_decode_drawbmp_paint : decode [0x31020000#32, 0#32, 0x00080008#32, 0x00001000#32] =
    .ok (.drawbmp 0 0 8 8 0x1000 0 false true 0) := by decide
theorem test_decode_drawbmp8 : decode [0x32000000#32, 0x00030005#32, 0x00080010#32, 0x00001200#32] =
    .ok (.drawbmp8 5 3 16 8 0x1200 0 false false 0) := by decide
theorem test_decode_cleargraph : decode [0x33000070#32] = .ok (.cleargraph 0x70) := by decide
theorem test_decode_copyfont : decode [0x34410003#32, 0x00002000#32] = .ok (.copyfont 65 0x2000 3) := by decide
theorem test_decode_reserved : decode [0x06000000#32] = .error .reservedOpcode := by decide
theorem test_decode_zero_bit : decode [0x01020000#32, 0#32] = .error .reservedField := by decide
theorem test_decode_zero_word1 : decode [0x24000007#32, 0x00010101#32] = .error .reservedField := by decide
theorem test_decode_cut_short_first : decode [0x01020000#32] = .error .truncated := by decide
theorem test_table_word : decodeTableWord 128 0x08001234_00150018_00320064_3103031F =
    some (.drawbmp 100 50 24 21 0x08001234 3 true true 0x1F) := by decide

/-! ### Steps -/

/-- The rows of TESTROM that the tests read (95 section 0). -/
def testRom : Memory :=
  [(0x1000, 0xFF), (0x1001, 0xFF), (0x1008, 0xAA), (0x1009, 0x55), (0x1200, 0xFF), (0x1201, 0xFF), (0x1202, 0xFF),
    (0x2208, 0x18), (0x2209, 0x3C), (0x220A, 0x66), (0x220B, 0x66), (0x220C, 0x7E), (0x220D, 0x66), (0x220E, 0x66)]

/-- The named state Z with TESTCFG and a program (95 section 0). -/
def z (prog : List Word := []) : State := State.resetWith testCfg testRom prog [] [] [] []

/-- Z after START 1, 0 (V6). -/
def running (prog : List Word := []) : State := { z prog with run := true, srcSel := true, latcomp := 24, tickOwned := true }

/-- The next state, Z where there is none. -/
def after : Host.Outcome State Fault Refusal → State
  | .next t => t
  | _ => z

/-- V6. -/
theorem test_start : let t := after (exec (.start true 0) z)
    (t.run, t.srcSel, t.latcomp, t.tickOwned, t.fontBase, t.cp) = (true, true, 24, true, 0, 2) := by decide
/-- V6: START 0, 0 changes nothing. -/
theorem test_start_null : let t := after (exec (.start false 0) z); (t.run, t.tickOwned, t.cp) = (false, false, 2) := by decide
/-- V10. -/
theorem test_stop : let t := after (exec .stop { running with hcnt := 60, vcnt := 36, scan := 1, videoActive := true })
    (t.run, t.hcnt, t.vcnt, t.scan, t.videoActive, t.tickOwned) = (false, 0, 0, 1, false, true) := by decide
/-- V11. -/
theorem test_setsrc : let t := after (exec (.setsrc false 0x2000) running)
    (t.srcSel, t.fontBase, t.latcomp) = (false, 0x2000, 20) := by decide
/-- V11: SETSRC 1, 0x1234 leaves FONT_BASE. -/
theorem test_setsrc_alt : let t := after (exec (.setsrc true 0x1234) { running with srcSel := false, fontBase := 0x2000 })
    (t.srcSel, t.fontBase, t.latcomp) = (true, 0x2000, 24) := by decide
/-- V12(c): from 0xFFFFFFFF to 0 is one frame, not two. -/
theorem test_waitf_waits : cmdEnabled { running with
    cur := some { instr := .waitf 2, pos := .waiting 0xFFFFFFFF }, frameCount := 0 } = false := by decide
/-- V12(c): it retires with FRAME = 1. -/
theorem test_waitf_retires : (after (exec (.waitf 2) { running with
    cur := some { instr := .waitf 2, pos := .waiting 0xFFFFFFFF }, frameCount := 1 })).cp = 1 := by decide
/-- V13. -/
theorem test_getframe : (after (exec .getframe { z with frameCount := 0x2A })).result = 0x2A := by decide
/-- E2 with E4's wrap: ACQUIRE 33, 37 is the cell with index 201. -/
theorem test_acquire_writes : let t := after (exec (.acquire 33 37) { z with cur := some { instr := .acquire 33 37, pos := .acqWrite } })
    (t.result, t.memTP, t.nextFree) = (1, [(201, 1)], 2) := by decide
/-- V23: from 255 NEXTFREE goes back to FIRSTFREE. -/
theorem test_acquire_wraps : (after (exec (.acquire 0 0) { z with
    firstFree := 250, nextFree := 255, cur := some { instr := .acquire 0 0, pos := .acqWrite } })).nextFree = 250 := by decide
/-- V26: the last of the 16 accesses. -/
theorem test_resetpool : let t := after (exec .resetpool { z with
      firstFree := 254, nextFree := 255,
      memRAMF := [(2031, 0xEE), (2047, 0xEE)], cur := some { instr := .resetpool, pos := .index 15 } })
    (t.memRAMF, t.nextFree, t.cp) = ([(2031, 0xEE)], 254, 1) := by decide
/-- V25. -/
theorem test_setfirstfree : let t := after (exec (.setfirstfree 16) { z with nextFree := 40 })
    (t.firstFree, t.nextFree) = (16, 16) := by decide
/-- V24. -/
theorem test_setfirstfree_zero : let t := after (exec (.setfirstfree 0) { z with firstFree := 5, nextFree := 9 })
    (t.firstFree, t.nextFree, t.cp) = (5, 9, 1) := by decide
/-- V27. -/
theorem test_settile : (after (exec (.settile 3 2 65) z)).memTP = [(59, 65)] := by decide
/-- V27: GETTILE 31, 32 is the cell (3, 2). -/
theorem test_gettile : (after (exec (.gettile 31 32) { z with memTP := [(59, 65)] })).result = 0x41 := by decide
/-- V27. -/
theorem test_setcolor : (after (exec (.setcolor 0 0 0x71) z)).memCP = [(0, 0x71)] := by decide
/-- V27. -/
theorem test_getcolor : (after (exec (.getcolor 0 0) { z with memCP := [(0, 0x71)], memTP := [(0, 2)] })).result = 0x71 := by decide
/-- V28: the third and the fourth access write CP[812] and CP[26]. -/
theorem test_fillcolor : let t := fun k => after (exec (.fillcolor 26 29 3 2 0x4F) { z with
      cur := some { instr := .fillcolor 26 29 3 2 0x4F, pos := .index k } })
    ((t 2).memCP, (t 3).memCP) = ([(812, 0x4F)], [(26, 0x4F)]) := by decide
/-- V28: with w = 0 nothing is written. -/
theorem test_fillcolor_empty : let t := after (exec (.fillcolor 0 0 0 5 0x4F) z); (t.memCP, t.cp) = ([], 2) := by decide
/-- V29: access 840 is the first of CP. -/
theorem test_fillscr : let t := after (exec (.fillscr 32 7) { z with cur := some { instr := .fillscr 32 7, pos := .index 840 } })
    (t.memTP, t.memCP) = ([], [(0, 7)]) := by decide
/-- V31: SETPIXEL 9, 2, 1 with tile 1 in the cell sets bit 0x40 of RAMF[10]. 60 R275: NEXTFREE moves on with the access after the
write of the cell. -/
theorem test_setpixel : let t := fun p => after (exec (.setpixel 9 2 true) { z with
      memTP := [(1, 1)], cur := some { instr := .setpixel 9 2 true, pos := .pixel 0 p } })
    ((t (.rmwWrite 1 0)).memRAMF, (t .tpWrite).nextFree, (t (.rmwRead 1 true)).nextFree) = ([(10, 0x40)], 1, 2) := by decide
/-- V31: SETPIXEL 0, 0, 0 on 0xEE gives 0x6E. -/
theorem test_setpixel_clear : (after (exec (.setpixel 0 0 false) { z with
    memTP := [(0, 1)], memRAMF := [(8, 0xEE)],
    cur := some { instr := .setpixel 0 0 false, pos := .pixel 0 (.rmwWrite 1 0xEE) } })).memRAMF = [(8, 0x6E)] := by decide
/-- V32: the first 1 bit of the checkerboard frame is pixel 0, whose bit in the row is bit 3; the next one is pixel 2. -/
theorem test_drawbmp : let i := Instr.drawbmp 4 4 8 8 0x1000 1 true false 0
    let t := fun p => after (exec i { z with memTP := [(0, 1)], cur := some { instr := i, pos := p } })
    ((after (exec i z)).cur, (t (.pixel 0 (.rmwWrite 1 0))).cur, (t (.pixel 0 (.rmwWrite 1 0))).memRAMF, (t (.scan 1)).cur) =
      (some { instr := i, pos := .pixel 0 .tpWrite }, some { instr := i, pos := .scan 1 }, [(12, 8)],
        some { instr := i, pos := .pixel 2 (.rmwRead 1 false) }) := by decide
/-- V38: zero width with paint = 1 paints nothing. -/
theorem test_drawbmp_null : let t := after (exec (.drawbmp 0 0 0 8 0x1000 0 true true 9) z); (t.memCP, t.cp) = ([], 4) := by decide
/-- V36: width 12 masks the low four bits of the second byte: the first row of slot 2 gets 0xF0. -/
theorem test_drawbmp8 : let i := Instr.drawbmp8 0 0 12 8 0x1200 0 true false 0
    (after (exec i { z with
      memTP := [(0, 1), (1, 2)],
      cur := some { instr := i, pos := .rowWrite 8 0 [((0, 0), 1), ((1, 0), 2)] } })).memRAMF = [(16, 0xF0)] := by decide
/-- V34: sx = 4 puts 0x0F into cell (27, 29) and 0xF0 into cell (0, 29). -/
theorem test_drawbmp8_mask : let d := spriteOf 220 236 8 8 0x1000 0 true true 0x2E
    (d.nc, d.mask testRom 0 0, d.mask testRom 1 0, cell d.cx0 d.cy0, cell (d.cx0 + 1) d.cy0) = (2, 0x0F, 0xF0, 839, 812) := by
  decide
/-- E6: with FIRSTFREE = 16, access 0 zeroes RAMF[128]; access 1920 starts TP and rewinds the pool. -/
theorem test_cleargraph : let t := fun k => after (exec (.cleargraph 0x1F) { z with
      firstFree := 16, nextFree := 19,
      memRAMF := [(127, 0xEE), (128, 0xEE)], memTP := [(0, 9)], cur := some { instr := .cleargraph 0x1F, pos := .index k } })
    ((t 0).memRAMF, (t 0).nextFree, (t 1920).memTP, (t 1920).nextFree) = ([(127, 0xEE)], 19, [], 16) := by decide
/-- V40: the second byte of glyph 65. -/
theorem test_copyfont : (after (exec (.copyfont 65 0x2000 3) { z with
    cur := some { instr := .copyfont 65 0x2000 3, pos := .index 1 } })).memRAMF = [(25, 0x3C)] := by decide
/-- V40: the address wraps modulo 2^32. -/
theorem test_copyfont_wraps : (after (exec (.copyfont 1 0xFFFFFFF8 4) { z with memROM := [(0, 0xA8)] })).memRAMF = [(32, 0xA8)] := by
  decide
/-- V7: tick 60 raises the line interrupt. -/
theorem test_tick_irq : let t := tick { running with hcnt := 59 }; (t.hcnt, t.vcnt, t.irqPend) = (60, 0, true) := by decide
/-- V7: tick 210000 wraps both counters. -/
theorem test_tick_wraps : let t := tick { running with hcnt := 399, vcnt := 524 }; (t.hcnt, t.vcnt, t.irqPend) = (0, 0, false) := by
  decide
/-- V15: the eight samples of column 0. -/
theorem test_line_samples : columnSamples { running with memTP := [(0, 1)], memCP := [(0, 0x71)], memRAMF := [(8, 0xA5)] } 0 =
    [7, 1, 7, 1, 1, 7, 1, 7] := by decide
/-- V17: from the ROM table, row 1 and sub-row 4. -/
theorem test_line_samples_rom : columnSamples { z with
    fontBase := 0x2000, scan := 12, memTP := [(28, 65)], memCP := [(28, 0x17)] } 0 = [7, 1, 1, 1, 1, 1, 1, 7] := by decide
/-- V7: the service of line 515 ends the frame. -/
theorem test_end_of_frame : let t := lineService { running with vcnt := 515, scan := 240, videoActive := true, irqPend := true }
    (t.frameCount, t.scan, t.phase, t.videoActive, t.irqPend) = (1, 0, false, false, false) := by decide
/-- V14: HSYNC is asserted (low) up to HCNT = 47. -/
theorem test_hsync : ((running : State).hsync, { running with hcnt := 47 }.hsync, { running with hcnt := 48 }.hsync, (z : State).hsync) =
    (false, false, true, true) := by decide
/-- V14: the slots of TESTCFG are HCNT 88 to 311, with either source. -/
theorem test_pixel_slots : let slot := fun (h : Nat) => { running with hcnt := h, lineSrc := true, lineLatcomp := 24 }.pixelSlot
    (slot 87, slot 88, slot 311, slot 312, { running with hcnt := 88, lineLatcomp := 20 }.pixelSlot) =
      (none, some 0, some 223, none, some 0) := by decide
/-- V3: a reserved opcode at cp. -/
theorem test_command_fault : let t := after (step (z [0x06000000#32])); (t.cmdFault, t.cause, t.cp) = (true, 1, 0) := by decide
/-- V12(d): WAITF 1 with the timers held is stuck. -/
theorem test_waitf_stuck : ∃ s : State, s.run = false ∧ s.cur = some { instr := .waitf 1, pos := .waiting 0 } ∧
    step s = .fault .waitStuck := ⟨{ z with cur := some { instr := .waitf 1, pos := .waiting 0 } }, rfl, rfl, rfl⟩

/-! ### Witnesses: states and operands that meet the hypotheses of the obligations -/

/-- The invariant with a blank line, from conditions that can be evaluated, and the command in flight. -/
theorem inv_of {s : State}
    (h : (s.cfg.ok = true ∧ Memory.WF Config.cells s.memTP ∧ Memory.WF Config.cells s.memCP ∧
        Memory.WF Config.ramfSize s.memRAMF ∧ Memory.WF Config.romSize s.memROM) ∧
      (1 ≤ s.firstFree.toNat ∧ s.firstFree.toNat ≤ s.nextFree.toNat) ∧ (s.hcnt < s.cfg.hTotal ∧ s.vcnt < s.cfg.vTotal) ∧
      (s.irqPend = true → s.hcnt = s.cfg.hIrqAt) ∧
      (s.run = false → s.hcnt = 0 ∧ s.vcnt = 0 ∧ s.irqPend = false ∧ s.videoActive = false ∧ s.lineActive = false) ∧
      (s.run = true → s.srcSel = false → s.fontBase ≠ 0) ∧
      s.videoActive = s.lineActive ∧
      ((s.cause ≠ 0 ↔ s.cmdFault = true) ∧ (s.cmdFault = true → s.cur = none)) ∧ s.cp ≤ s.prog.length)
    (hl : s.linebuf = zeroLine) (hc : ∀ c, s.cur = some c → fetch s = .ok c.instr ∧ c.PosOk s) : s.Inv := by
  obtain ⟨⟨h1, h2, h3, h4, h5⟩, h6, h7, h8, h9, h10, h11, h12, h13⟩ := h
  exact ⟨h1, ⟨h2, h3, h4, h5⟩, h6, h7, h8, h9, h10, ⟨by rw [hl, zeroLine, List.length_replicate], fun _ => hl, h11⟩, h12, h13, hc⟩

/-- No command in flight. -/
theorem idle {s : State} (h : s.cur = none) : ∀ c, s.cur = some c → fetch s = .ok c.instr ∧ c.PosOk s := fun c hc => by
  rw [h] at hc
  cases hc

theorem z_memOk : (z : State).MemOk := ⟨by decide, by decide, by decide, by decide⟩

theorem z_inv : (z : State).Inv := inv_of (by decide) rfl (idle rfl)

/-- SETTILE 3, 2, 65 from Z. -/
def oneTile : List Word := [0x20030241]

theorem oneTile_inv : (z oneTile).Inv := inv_of (by decide) rfl (idle rfl)

/-- FILLSCR 32, 7 in flight after five accesses. -/
def filling : State := { z [0x25002007#32] with cur := some { instr := .fillscr 32 7, pos := .index 5 } }

theorem filling_inv : filling.Inv := inv_of (by decide) rfl (by rintro c ⟨⟩; exact ⟨rfl, by decide, by decide⟩)

/-- WAITF 1 in flight with the timers held. -/
def waiting : State := { z [0x04000001#32] with cur := some { instr := .waitf 1, pos := .waiting 0 } }

theorem waiting_inv : waiting.Inv := inv_of (by decide) rfl (by rintro c ⟨⟩; exact ⟨rfl, trivial⟩)

theorem witness_InvariantHoldsAfterReset : testCfg.ok = true ∧ Memory.WF Config.romSize testRom ∧
    Memory.WF Config.cells [(839, 7)] ∧ Memory.WF Config.ramfSize [(2047, 0xEE)] := by decide

theorem witness_EveryStepKeepsTheInvariant : (z oneTile).Inv ∧ ∃ s', step (z oneTile) = .next s' := ⟨oneTile_inv, _, rfl⟩

theorem witness_NoStepChangesTheParameters : ∃ s', step (z oneTile) = .next s' := ⟨_, rfl⟩

theorem witness_EncodeOfDecodeIsTheWords : decode (0x20030241#32 :: [0x02000000#32]) = .ok (.settile 3 2 65) := by decide

theorem witness_DecodeChecksInOrder :
    (∀ r ∈ opcodeTable, r.1 ≠ (0x06000000 : Word).extractLsb' 24 8) ∧
    ((0x24#8, 2, 0x24000000#32, 0xFF000000#32) ∈ opcodeTable ∧ (0x24 : Byte) = (0x24000007 : Word).extractLsb' 24 8) ∧
    (([] : List Word).length + 1 < 2 ∧ 2 ≤ [0x0000FFFF#32].length + 1) ∧
    ((0x24000007 : Word) &&& 0xFF000000 = 0x24000000 ∧ ((0x0000FFFF : Word).extractLsb' 16 16 = 0)) ∧
    ¬(0x00010000 : Word).extractLsb' 16 16 = 0 := by decide

theorem witness_PendingInterruptRunsTheLineService : { running with irqPend := true }.irqPend = true := rfl

theorem witness_StepRunsTheDecodedCommand (s : State) (h : s = z oneTile ∨ s = { running oneTile with sched := [.cmd] }) :
    s.irqPend = false ∧ s.cmdFault = false ∧ s.cur = none ∧ s.cp < s.prog.length ∧
      decode (s.prog.drop s.cp) = .ok (.settile 3 2 65) := by
  rcases h with rfl | rfl <;> decide

theorem witness_StepGoesOnWithTheCommandInFlight (s : State)
    (h : s = filling ∨ s = { filling with run := true, sched := [.cmd] }) :
    s.irqPend = false ∧ s.cmdFault = false ∧ s.cur = some { instr := .fillscr 32 7, pos := .index 5 } ∧
      (∀ n ws, Instr.fillscr 32 7 = .waitf n → Pos.index 5 = .waiting ws → n.toNat ≤ (s.frameCount - ws).toNat) := by
  rcases h with rfl | rfl <;> exact ⟨rfl, rfl, rfl, nofun⟩

theorem witness_TickMayAlwaysComeNext : (running : State).run = true ∧ (running : State).irqPend = false ∧
    cmdEnabled running = false ∧ cmdEnabled { running oneTile with sched := [.tmr] } = true := by decide

theorem witness_HeldTimersStayHeld : (z oneTile).Inv ∧ (z oneTile).run = false ∧ ∃ s', step (z oneTile) = .next s' :=
  ⟨oneTile_inv, rfl, _, rfl⟩

/-- START 1, 0 again while the timers run, and CMD's turn. -/
def restarting : State := { running [0x01010000, 0] with sched := [.cmd] }

theorem witness_EngineStopsWhileRunningOnlyAtStart : ((running : State).Inv ∧ (running : State).run = true) ∧
    restarting.Inv ∧ restarting.run = true ∧ step restarting = .refused .startWhileRunning :=
  ⟨⟨inv_of (by decide) rfl (idle rfl), rfl⟩, inv_of (by decide) rfl (idle rfl), rfl, rfl⟩

/-- The timers running on beside a program that has nothing in it. -/
def onlyTimers : Nat → State
  | 0 => running
  | n + 1 => if (onlyTimers n).irqPend then lineService (onlyTimers n) else tick (onlyTimers n)

theorem witness_EveryRunIsFair : IsRun onlyTimers := fun n => by
  have h : ∀ n, (onlyTimers n).run = true ∧ (onlyTimers n).cur = none ∧ (onlyTimers n).prog = [] := fun n => by
    induction n with
    | zero => exact ⟨rfl, rfl, rfl⟩
    | succ n ih =>
      rw [onlyTimers]
      split
      · simpa using ih
      · simpa using ih
  obtain ⟨hr, hc, hp⟩ := h n
  have hcmd : cmdEnabled (onlyTimers n) = false := by
    rw [← Bool.not_eq_true, cmdEnabled_iff, hc, hp]
    simp
  rw [onlyTimers]
  obtain ⟨hi, hm⟩ | ⟨hi, ⟨-, h', -⟩ | ⟨-, -, ho, hm⟩ | ⟨h', -⟩ | ⟨h', -⟩⟩ := mover_cases (onlyTimers n)
  · rw [if_pos hi, step, nextStep, hm]
  · rw [hcmd] at h'; cases h'
  · rw [if_neg (by rw [hi]; simp), step, nextStep, hm, afterChoice, ho]
    rfl
  · rw [hr] at h'; cases h'
  · rw [hr] at h'; cases h'

theorem witness_StuckInAWaitOnlyInWaitf : waiting.Inv ∧ waiting.run = false ∧ (waiting.frameCount - 0#32).toNat < (1#16).toNat :=
  ⟨waiting_inv, rfl, by decide⟩

theorem witness_TickMovesTheCounters (h v : Nat) (hh : h = 0 ∨ h = 399) (hv : v = 0 ∨ v = 524) :
    let s := { running with hcnt := h, vcnt := v }
    s.hcnt < s.cfg.hTotal ∧ s.vcnt < s.cfg.vTotal ∧ s.irqPend = false := by
  rcases hh with rfl | rfl <;> rcases hv with rfl | rfl <;> decide

theorem witness_OneLineIsOneInterrupt : let s := { running with hcnt := 399, vcnt := 524 }
    s.hcnt < s.cfg.hTotal ∧ s.vcnt < s.cfg.vTotal ∧ s.cfg.hIrqAt < s.cfg.hTotal := by decide

theorem witness_RgbCarriesTheSampleOfItsSlot : (let s := { running with hcnt := 311, lineActive := true, lineLatcomp := 24 }
    let p0 := s.cfg.hIrqAt + (if s.lineSrc then s.cfg.fetchLatRam.toNat else s.cfg.fetchLatRom.toNat) + s.lineLatcomp.toNat
    s.linebuf.length = 224 ∧ 1 ≤ s.cfg.pixTicks ∧ p0 = 92 ∧ p0 + 219 * s.cfg.pixTicks ≤ s.hcnt ∧
      s.hcnt < p0 + 220 * s.cfg.pixTicks ∧ 91 < p0 ∧ p0 + 224 * s.cfg.pixTicks ≤ 316) ∧
    ∃ t, exec (.setsrc false 0x2000) running = .next t := ⟨⟨rfl, by decide⟩, _, rfl⟩

theorem witness_ActiveLine (v : Nat) (h : v = 35 ∨ v = 514) : let s := { running with vcnt := v, irqPend := true }
    s.cfg.vActStart ≤ s.vcnt ∧ s.vcnt < s.cfg.vActEnd := by rcases h with rfl | rfl <;> decide

theorem witness_BlankLineAndEndOfFrame (v : Nat) (h : v = 34 ∨ v = 515 ∨ v = 516) :
    let s := { running with vcnt := v, irqPend := true }
    ¬(s.cfg.vActStart ≤ s.vcnt ∧ s.vcnt < s.cfg.vActEnd) := by rcases h with rfl | rfl | rfl <;> decide

theorem witness_OnlyTheEndOfFrameMovesFrame : let s := { running with vcnt := 515, irqPend := true }
    step s = .next (lineService s) ∧ (lineService s).frameCount ≠ s.frameCount := ⟨rfl, by decide⟩

theorem witness_OutGrowsByOneEventPerService : (∃ s', step (z oneTile) = .next s') ∧
    ∃ s', step { running with irqPend := true } = .next s' := ⟨⟨_, rfl⟩, _, rfl⟩

/-- TESTCFG with the line interrupt of line 35 pending. -/
def line35 : State := { running with vcnt := 35, hcnt := 60, irqPend := true }

theorem line35_inv : line35.Inv := inv_of (by decide) rfl (idle rfl)

theorem line35_beam : line35.BeamOk := fun _ => by decide

theorem witness_EveryStepKeepsTheBeam : line35.Inv ∧ line35.cfg.vActEnd = line35.cfg.vActStart + 480 ∧
    (0 < line35.cfg.hIrqAt ∨ 0 < line35.cfg.vActStart) ∧ line35.BeamOk ∧ ∃ s', step line35 = .next s' :=
  ⟨line35_inv, rfl, by decide, line35_beam, _, rfl⟩

theorem witness_PhysicalLineShowsItsLogicalLine : line35.Inv ∧ line35.BeamOk ∧
    line35.cfg.vActEnd = line35.cfg.vActStart + 480 ∧ line35.irqPend = true ∧ line35.cfg.vActStart ≤ line35.vcnt ∧
    line35.vcnt < line35.cfg.vActEnd := ⟨line35_inv, line35_beam, rfl, rfl, by decide, by decide⟩

theorem witness_MeaninglessWordRaisesCmdFault (w : Word) (e : DecodeError)
    (h : (w, e) = (0xFFFFFFFF, .reservedOpcode) ∨ (w, e) = (0x02000001, .reservedField) ∨ (w, e) = (0x01010000, .truncated)) :
    ∀ s ∈ [z [w], { running [w] with sched := [.cmd] }],
      s.irqPend = false ∧ s.cmdFault = false ∧ s.cur = none ∧ s.cp < s.prog.length ∧ decode (s.prog.drop s.cp) = .error e := by
  rcases h with h | h | h <;> cases h <;> decide

theorem witness_FaultedSequencerStaysHalted : let s := { running with cmdFault := true, cause := 1 }
    s.cmdFault = true ∧ ∃ s', step s = .next s' := ⟨rfl, _, rfl⟩

theorem witness_StartTakesTheTimersOutOfReset : (z : State).run = false := rfl

theorem witness_StartWhileRunningIsRefused : (running : State).run = true := rfl

theorem witness_StopHoldsTheTimers : (z : State).Inv ∧ (z : State).run = false := ⟨z_inv, rfl⟩

theorem witness_SetsrcSelectsTheSource : (false = false ∧ (0 : Word) = 0) ∧ ¬(false = false ∧ (0x2000 : Word) = 0) ∧
    ¬(true = false ∧ (0 : Word) = 0) := by decide

theorem witness_WaitfWaitsForNFrames : (z : State).cur = none ∧
    (waiting.cur = some { instr := .waitf 1, pos := .waiting 0 } ∧ waiting.irqPend = false ∧ waiting.cmdFault = false) ∧
    ¬(1#16).toNat ≤ (waiting.frameCount.toNat + 2 ^ 32 - (0#32).toNat) % 2 ^ 32 ∧
    (1#16).toNat ≤ ((1#32).toNat + 2 ^ 32 - (0#32).toNat) % 2 ^ 32 := by decide

theorem witness_AcquireGivesTheCellASlot : (z : State).MemOk ∧ (z : State).cur = none ∧ (z : State).memTP.read (29 * 28 + 27) = 0 ∧
    { z with memTP := [(839, 5)] }.memTP.read (29 * 28 + 27) ≠ 0 := ⟨z_memOk, rfl, by decide, by decide⟩

/-- Z with tile 5 in the cell (27, 29). -/
def tiled : State := { z with memTP := [(839, 5)] }

theorem tiled_inv : tiled.Inv := inv_of (by decide) rfl (idle rfl)

/-- ACQUIRE 27, 29 from Z, in flight after its read. -/
def acquiring : State := { z [0x101B1D00#32] with cur := some { instr := .acquire 27 29, pos := .acqWrite } }

theorem acquiring_inv : acquiring.Inv := inv_of (by decide) rfl (by rintro c ⟨⟩; exact ⟨rfl, rfl⟩)

theorem witness_AllocatingNeverStoresTileZero : (acquiring.Inv ∧ allocates (.acquire 27 29) = true ∧
      acquiring.cur = some { instr := .acquire 27 29, pos := .acqWrite } ∧
      exec (.acquire 27 29) acquiring = .next (after (exec (.acquire 27 29) acquiring)) ∧
      (after (exec (.acquire 27 29) acquiring)).memTP.read 839 ≠ acquiring.memTP.read 839) ∧
    tiled.Inv ∧ tiled.cur = none ∧ ∃ n t, RunsIn (.acquire 27 29) n tiled t :=
  ⟨⟨acquiring_inv, rfl, rfl, rfl, by decide⟩, tiled_inv, rfl, 1, _, .last rfl rfl⟩

theorem witness_AcquireIsIdempotent : tiled.Inv ∧ tiled.cur = none ∧ (∃ n t, RunsIn (.acquire 27 29) n tiled t) ∧
    (55#8).toNat % 28 = (27#8).toNat % 28 ∧ (59#8).toNat % 30 = (29#8).toNat % 30 :=
  ⟨tiled_inv, rfl, ⟨1, _, .last rfl rfl⟩, by decide, by decide⟩

theorem witness_AcquireHandsOutEachSlotOnce : let s := { z with firstFree := 254, nextFree := 254 }
    s.MemOk ∧ s.cur = none ∧ s.nextFree = s.firstFree ∧ 1 ≤ s.firstFree.toNat ∧
    ([(27#8, 29#8), (0#8, 30#8)].map fun c => c.2.toNat % 30 * 28 + c.1.toNat % 28).Nodup ∧
    (∀ c ∈ [(27#8, 29#8), (0#8, 30#8)], s.memTP.read (c.2.toNat % 30 * 28 + c.1.toNat % 28) = 0) ∧
    [(27#8, 29#8), (0#8, 30#8)].length ≤ 256 - s.firstFree.toNat :=
  ⟨⟨by decide, by decide, by decide, by decide⟩, rfl, rfl, by decide, by simp, fun _ _ => rfl, by decide⟩

/-- What several obligations ask of the state: memories in form and no command in flight. -/
theorem witness_MemOkIdle : (z : State).MemOk ∧ (z : State).cur = none := ⟨z_memOk, rfl⟩

theorem witness_SetfirstfreeWritesBothRegisters : (0 : Byte) = 0 ∧ (255 : Byte) ≠ 0 := by decide

theorem witness_FillcolorPaintsTheRegion : (z : State).MemOk ∧ (z : State).cur = none ∧ ((0 : Byte) = 0 ∨ (5 : Byte) = 0) ∧
    (255 : Byte) ≠ 0 := ⟨z_memOk, rfl, by decide, by decide⟩

theorem witness_SetpixelWrapsCoordinates : (z : State).cur = none ∧ (224#16).toNat % 224 = (0#16).toNat % 224 ∧
    (65520#16).toNat % 240 = (0#16).toNat % 240 := by decide

theorem witness_BlitNoOpsDoNothing : ((0 : BitVec 16) = 0 ∨ (8 : BitVec 16) = 0 ∨ (0x1000 : Word) = 0) ∧
    ((8 : BitVec 16) ≠ 8 ∨ 16 < (17 : BitVec 16).toNat) := by decide

theorem witness_EmptyFrameOnlyPaints : (z : State).MemOk ∧ (z : State).cur = none ∧ (1 : BitVec 16) ≠ 0 ∧ (0x3000 : Word) ≠ 0 ∧
    (∀ i j, i < (1#16).toNat → j < (1#16).toNat →
      let stride := ((1#16).toNat + 7) / 8
      let fb := ((0x3000#32).toNat + (0#8).toNat * (1#16).toNat * stride) % 2 ^ 32
      ((z : State).memROM.read ((fb + j * stride + i / 8) % 2 ^ 32)).getLsbD (7 - i % 8) = false) :=
  ⟨z_memOk, rfl, by decide, by decide, fun i j hi hj => by
    obtain rfl : i = 0 := Nat.lt_one_iff.1 hi
    obtain rfl : j = 0 := Nat.lt_one_iff.1 hj
    decide⟩

theorem witness_FastAndGenericBlitAgree (w : BitVec 16) (h : w = 1 ∨ w = 16) : (z : State).Inv ∧ (z : State).cur = none ∧
    (8 : BitVec 16) = 8 ∧ 1 ≤ w.toNat ∧ w.toNat ≤ 16 ∧ (0x1000 : Word) ≠ 0 := by
  refine ⟨z_inv, rfl, rfl, ?_⟩
  rcases h with rfl | rfl <;> decide

theorem witness_CopyfontCopiesOneSlot : (z : State).MemOk ∧ (z : State).cur = none ∧ (0x2000 : Word) ≠ 0 :=
  ⟨z_memOk, rfl, by decide⟩

theorem witness_EveryCommandStarts : (z : State).cur = none ∧ ∀ alt base, Instr.start true 0 = .start alt base → (z : State).run = false :=
  ⟨rfl, fun _ _ _ => rfl⟩

theorem witness_EveryCommandInFlightGoesOn : filling.Inv ∧ filling.cur = some { instr := .fillscr 32 7, pos := .index 5 } ∧
    cmdEnabled filling = true := ⟨filling_inv, rfl, by decide⟩

theorem witness_EveryCommandButWaitfRetires : filling.Inv ∧ filling.cur = some { instr := .fillscr 32 7, pos := .index 5 } ∧
    ∀ n, Instr.fillscr 32 7 ≠ .waitf n := ⟨filling_inv, rfl, nofun⟩

theorem witness_UninterruptedCommandsFollowTheirPseudocode : (z : State).cur = none ∧
    (∀ alt base, Instr.waitf 0 = .start alt base → (z : State).run = false) ∧ ∀ n, Instr.waitf 0 = .waitf n → n = 0 :=
  ⟨rfl, nofun, fun _ h => by cases h; rfl⟩

theorem witness_TimersAndRendererLeaveTheForeground :
    (line35.irqPend = true ∧ ∃ s', step line35 = .next s') ∧ (cmdEnabled running = false ∧ ∃ s', step running = .next s') ∧
    let s := { running oneTile with sched := [.tmr] }
    s.run = true ∧ nextTurn s = .tmr ∧ cmdEnabled s = true ∧ ∃ s', step s = .next s' :=
  ⟨⟨rfl, _, rfl⟩, ⟨by decide, _, rfl⟩, rfl, rfl, by decide, _, rfl⟩

/-- WAITF 0, then SETTILE 3, 2, 65. -/
def waitThenTile : List Word := [0x04000000, 0x20030241]

theorem witness_ResultsDoNotDependOnTheSchedule : NoGetframe waitThenTile ∧
    (∃ t, core.run 3 (State.resetWith testCfg [] waitThenTile [] [] [] []) = .next t ∧ t.finished) ∧
    ∃ t, core.run 3 (State.resetWith testCfg [] waitThenTile [.tmr] [] [] []) = .next t ∧ t.finished :=
  ⟨by unfold NoGetframe; decide, ⟨_, rfl, rfl, rfl, rfl⟩, _, rfl, rfl, rfl, rfl⟩

/-- COPYFONT 65, 0x2000, 0 in flight after one access: the next writes RAMF[1]. -/
def copying : State := { z [0x34410000#32, 0x2000#32] with cur := some { instr := .copyfont 65 0x2000 0, pos := .index 1 } }

theorem copying_inv : copying.Inv := inv_of (by decide) rfl (by rintro c ⟨⟩; exact ⟨rfl, by decide, by decide, by decide⟩)

theorem witness_OnlyCopyfontWritesSlotZero : copying.Inv ∧ step copying = .next (after (step copying)) ∧ 1 < 8 ∧
    (after (step copying)).memRAMF.read 1 ≠ copying.memRAMF.read 1 := ⟨copying_inv, rfl, by decide, by decide⟩

theorem witness_FetchWordIsWhatRunsNext : decodeTableWord 32 0x20030241 = some (.settile 3 2 65) := by decide

end Sys2Proof.Tests
end

section
/-! The parameters `cfg`, `rom` and `prog` (00 R8, R10): no agent's step writes them. -/

namespace Sys2Proof.Machine

/-- `t` has the parameters of `s`: the timing record, the read-only memory and the program (00 R8, R10; 10 R51). -/
def SameParameters (s t : State) : Prop := t.cfg = s.cfg ∧ t.memROM = s.memROM ∧ t.prog = s.prog

/-- The parameters are part of what no command writes (60 R272). -/
theorem SameOutside.sameParameters {s t : State} (h : SameOutside s t) : SameParameters s t := ⟨h.cfg, h.memROM, h.prog⟩

theorem lineService_sameParameters (s : State) : SameParameters s (lineService s) := by simp [SameParameters]

theorem tick_sameParameters (s : State) : SameParameters s (tick s) := by simp [SameParameters]

/-- A choice taken from the schedule can be dropped from the start of a step that keeps the parameters. -/
theorem SameParameters.of_popTurn {s t : State} (h : SameParameters (popTurn s) t) : SameParameters s t := by
  simpa [SameParameters] using h

theorem cmdStep_sameParameters {s t : State} (h : cmdStep s = .next t) : SameParameters s t := by
  obtain ⟨c, -, hexec⟩ | ⟨-, i, -, hexec⟩ | ⟨-, e, -, rfl⟩ := cmdStep_cases h
  · exact (exec_sameOutside hexec).sameParameters
  · exact (exec_sameOutside hexec).sameParameters
  · simp [SameParameters]

/-- Whichever agent moves, its step keeps the parameters (10 R51, 60 R300). -/
theorem step_sameParameters {s t : State} (h : step s = .next t) : SameParameters s t := by
  obtain ⟨-, rfl⟩ | ⟨-, -, ⟨-, rfl⟩ | ⟨-, -, rfl⟩⟩ | ⟨-, -, ⟨-, hcmd⟩ | ⟨-, -, hcmd⟩⟩ := step_cases h
  · exact lineService_sameParameters s
  · exact tick_sameParameters s
  · exact (tick_sameParameters (popTurn s)).of_popTurn
  · exact cmdStep_sameParameters hcmd
  · exact (cmdStep_sameParameters hcmd).of_popTurn

/-- Settles O4: a step is a line service, a tick or a step of the command sequencer, and none of them writes a parameter. -/
theorem noStepChangesTheParameters : Obligations.NoStepChangesTheParameters :=
  fun _ _ h => step_sameParameters h

end Sys2Proof.Machine
end

section
/-! The output ports (10 R46 to R48): what HSYNC, VSYNC and RGB carry. -/

namespace Sys2Proof.Machine

/-- A port that carries its active level when asserted and the opposite level otherwise shows whether it is asserted. -/
theorem level_eq_active_iff (asserted active : Bool) : (if asserted then active else !active) = active ↔ asserted = true := by
  cases asserted <;> simp

theorem hsyncAsserted_iff {s : State} :
    s.hsyncAsserted = true ↔ s.run = true ∧ s.cfg.hSyncStart ≤ s.hcnt ∧ s.hcnt < s.cfg.hSyncEnd := by
  simp [State.hsyncAsserted, and_assoc]

theorem vsyncAsserted_iff {s : State} :
    s.vsyncAsserted = true ↔ s.run = true ∧ s.cfg.vSyncStart ≤ s.vcnt ∧ s.vcnt < s.cfg.vSyncEnd := by
  simp [State.vsyncAsserted, and_assoc]

/-- Settles O19: each sync port carries its active level exactly when asserted, and it is asserted exactly in its window. -/
theorem syncOutputsFollowTheWindows : Obligations.SyncOutputsFollowTheWindows := fun _ =>
  ⟨(level_eq_active_iff _ _).trans hsyncAsserted_iff, (level_eq_active_iff _ _).trans vsyncAsserted_iff⟩

/-- Inside the ticks of slot k, below 224, the beam is in pixel slot k (70 R327). -/
theorem pixelSlot_eq_some {s : State} {k : Nat} (hk : k < Config.pixW)
    (lower : s.firstPixelTick + k * s.cfg.pixTicks ≤ s.hcnt)
    (upper : s.hcnt < s.firstPixelTick + (k + 1) * s.cfg.pixTicks) : s.pixelSlot = some k := by
  have inside : s.hcnt < s.firstPixelTick + Config.pixW * s.cfg.pixTicks :=
    upper.trans_le (Nat.add_le_add_left (Nat.mul_le_mul_right _ hk) _)
  have quotient : (s.hcnt - s.firstPixelTick) / s.cfg.pixTicks = k :=
    Nat.div_eq_of_lt_le (Nat.le_sub_of_add_le' lower) (Nat.sub_lt_left_of_lt_add (Nat.le_of_add_right_le lower) upper)
  rw [State.pixelSlot, if_pos ⟨Nat.le_of_add_right_le lower, inside⟩, quotient]

/-- Before the first tick of slot 0 and from the end of slot 223 on, the beam is in no pixel slot (70 R327). -/
theorem pixelSlot_eq_none {s : State}
    (h : s.hcnt < s.firstPixelTick ∨ s.firstPixelTick + Config.pixW * s.cfg.pixTicks ≤ s.hcnt) : s.pixelSlot = none :=
  if_neg (by omega)

/-- RGB in pixel slot k of an active line is the sample LINEBUF[k] (10 R48). -/
theorem rgb_of_pixelSlot {s : State} {k : Nat} (hr : s.run = true) (ha : s.lineActive = true) (hk : s.pixelSlot = some k) :
    s.rgb = s.linebuf.getD k 0 := by
  simp [State.rgb, hr, ha, hk]

/-- RGB is 0 with the timers held, on a line that is not active, and outside the pixel slots (10 R48). -/
theorem rgb_eq_zero {s : State} (h : s.run = false ∨ s.lineActive = false ∨ s.pixelSlot = none) : s.rgb = 0 := by
  rcases h with h | h | h <;> simp [State.rgb, h]

theorem rgb_retire (i : Instr) (s : State) : (retire i s).rgb = s.rgb := rfl

/-- The pixel slots are placed by the source of the line's service, so RGB does not see a new selection (70 R323(b)). -/
theorem rgb_selectSource (alt : Bool) (base : Word) (s : State) : (selectSource alt base s).rgb = s.rgb := rfl

theorem setsrc_rgb {alt : Bool} {base : Word} {s t : State} (h : exec (.setsrc alt base) s = .next t) : t.rgb = s.rgb := by
  cases h
  rw [rgb_retire]
  split
  · rfl
  · exact rgb_selectSource alt base s

/-- Settles O20: the slot of HCNT names the sample of LINEBUF, and SETSRC writes nothing that RGB is made of. -/
theorem rgbCarriesTheSampleOfItsSlot : Obligations.RgbCarriesTheSampleOfItsSlot := by
  refine ⟨fun s _ hlen => ⟨fun k hk hr ha lower upper => ?_, fun h => ?_⟩, fun _ _ _ _ h => setsrc_rgb h⟩
  · rw [rgb_of_pixelSlot hr ha (pixelSlot_eq_some hk lower upper), List.getD_eq_getElem _ _ (hlen ▸ hk)]
    exact List.getElem?_eq_getElem (hlen ▸ hk)
  · exact rgb_eq_zero (h.imp_right (Or.imp_right pixelSlot_eq_none))

end Sys2Proof.Machine
end

section
/-! What the line service writes, and that nothing else writes FRAME and OUT (10 R33, R45; 41 R160 to R168). -/

namespace Sys2Proof.Machine

theorem inWindow_iff {c : Cfg} {v : Nat} : inWindow c v = true ↔ c.vActStart ≤ v ∧ v < c.vActEnd := by
  simp [inWindow]

theorem atEof_iff {c : Cfg} {v : Nat} : atEof c v = true ↔ v = c.vEof := decide_eq_true_iff

@[simp] theorem zeroLine_length : zeroLine.length = Config.pixW := List.length_replicate

@[simp] theorem columnSamples_length (s : State) (c : Nat) : (columnSamples s c).length = 8 := by simp [columnSamples]

/-- 28 columns of 8 samples are 224 samples (41 R165). -/
@[simp] theorem lineSamples_length (s : State) : (lineSamples s).length = Config.pixW := by
  simp [lineSamples, List.length_flatMap, Config.gridW, Config.pixW]

/-- The event that the line service appends to OUT (10 R45, 41 R165, R168). -/
def serviceEvent (s : State) : LineEvent :=
  if inWindow s.cfg s.vcnt then
    { frame := s.frameCount, v := s.vcnt, active := true, row := tileRow s, sub := subRow s, latcomp := s.latcomp,
      samples := lineSamples s }
  else
    { frame := s.frameCount, v := s.vcnt, active := false, row := 0, sub := 0, latcomp := s.latcomp, samples := zeroLine }

@[simp] theorem serviceEvent_frame (s : State) : (serviceEvent s).frame = s.frameCount := by unfold serviceEvent; split <;> rfl
@[simp] theorem serviceEvent_v (s : State) : (serviceEvent s).v = s.vcnt := by unfold serviceEvent; split <;> rfl
@[simp] theorem serviceEvent_latcomp (s : State) : (serviceEvent s).latcomp = s.latcomp := by unfold serviceEvent; split <;> rfl
@[simp] theorem serviceEvent_samples_length (s : State) : (serviceEvent s).samples.length = Config.pixW := by
  unfold serviceEvent
  split <;> simp

@[simp] theorem lineService_out (s : State) : (lineService s).out = s.out ++ [serviceEvent s] := by
  unfold lineService serviceEvent
  split <;> rfl

/-- LINEBUF gets the samples of the event (41 R165, R168). -/
@[simp] theorem lineService_linebuf (s : State) : (lineService s).linebuf = (serviceEvent s).samples := by
  unfold lineService serviceEvent
  split <;> rfl

@[simp] theorem lineService_lineActive (s : State) : (lineService s).lineActive = inWindow s.cfg s.vcnt := by
  unfold lineService
  split <;> simp [*, activeLine, blankLine]

@[simp] theorem lineService_videoActive (s : State) : (lineService s).videoActive = inWindow s.cfg s.vcnt := by
  unfold lineService
  split <;> simp [*, activeLine, blankLine]

/-- FRAME counts the service of line V_EOF, where that line is blank (41 R167). -/
theorem lineService_frameCount (s : State) : (lineService s).frameCount =
    if inWindow s.cfg s.vcnt = false ∧ atEof s.cfg s.vcnt = true then s.frameCount + 1 else s.frameCount := by
  unfold lineService
  split <;> simp [*, activeLine, blankLine]

theorem cmdStep_sameOutputs {s t : State} (h : cmdStep s = .next t) : t.frameCount = s.frameCount ∧ t.out = s.out := by
  obtain ⟨c, -, hexec⟩ | ⟨-, i, -, hexec⟩ | ⟨-, e, -, rfl⟩ := cmdStep_cases h
  · exact ⟨(exec_sameOutside hexec).frameCount, (exec_sameOutside hexec).out⟩
  · exact ⟨(exec_sameOutside hexec).frameCount, (exec_sameOutside hexec).out⟩
  · simp

/-- A step is the line service, which needs a pending interrupt, or it leaves FRAME and OUT (41 R160). -/
theorem step_service_or_sameOutputs {s t : State} (h : step s = .next t) :
    s.irqPend = true ∧ t = lineService s ∨ s.irqPend = false ∧ t.frameCount = s.frameCount ∧ t.out = s.out := by
  obtain hservice | ⟨hi, -, ⟨-, rfl⟩ | ⟨-, -, rfl⟩⟩ | ⟨hi, -, ⟨-, hcmd⟩ | ⟨-, -, hcmd⟩⟩ := step_cases h
  · exact .inl hservice
  · exact .inr ⟨hi, rfl, rfl⟩
  · exact .inr ⟨hi, rfl, rfl⟩
  · exact .inr ⟨hi, cmdStep_sameOutputs hcmd⟩
  · have kept := cmdStep_sameOutputs hcmd
    exact .inr ⟨hi, kept⟩

/-- Settles O24: a step that moves FRAME is a line service, and that counts only a blank line V_EOF. -/
theorem onlyTheEndOfFrameMovesFrame : Obligations.OnlyTheEndOfFrameMovesFrame := by
  intro s s' h hne
  obtain ⟨hi, rfl⟩ | ⟨-, hframe, -⟩ := step_service_or_sameOutputs h
  · rw [lineService_frameCount] at hne ⊢
    split at hne
    · rename_i heof
      rw [if_pos heof, ← inWindow_iff, Bool.not_eq_true]
      exact ⟨hi, atEof_iff.1 heof.2, heof.1, BitVec.toNat_add _ _⟩
    · exact absurd rfl hne
  · exact absurd hframe hne

/-- Settles O25: the line service appends its one event, and every other step leaves OUT. -/
theorem outGrowsByOneEventPerService : Obligations.OutGrowsByOneEventPerService := by
  intro s s' h
  obtain ⟨hi, rfl⟩ | ⟨hi, -, hout⟩ := step_service_or_sameOutputs h
  · exact ⟨by simp [hi], fun _ => ⟨serviceEvent s, lineService_out s, serviceEvent_frame s, serviceEvent_v s,
      serviceEvent_latcomp s, serviceEvent_samples_length s⟩⟩
  · exact ⟨fun _ => hout, by simp [hi]⟩

end Sys2Proof.Machine
end
section
/-! The state after reset (10 R37, R49), and that it meets the invariant of 10 R50. -/

namespace Sys2Proof.Machine

/-- Settles O1: the state after reset is written out field by field. -/
theorem resetLeavesTheTableValues : Obligations.ResetLeavesTheTableValues := by
  intro cfg rom prog sched tp cpl ramf s
  and_intros <;> rfl

/-- The chip's configuration meets 00 R8, whatever the free value is. -/
theorem config_cfg_ok : Config.cfg.ok = true := by
  unfold Config.cfg
  split
  · assumption
  · decide

/-- A configuration that meets 00 R8 has a tick in its line and a line in its frame. -/
theorem totals_pos {c : Cfg} (h : c.ok = true) : 0 < c.hTotal ∧ 0 < c.vTotal := by
  simp only [Cfg.ok, Bool.and_eq_true, decide_eq_true_eq] at h
  omega

/-- With the timers held, nothing in flight and no fault, the state after reset meets every part of the invariant. -/
theorem resetWith_inv {cfg : Cfg} {rom tp cpl ramf : Memory} (prog : List Word) (sched : List Turn) (hcfg : cfg.ok = true)
    (hrom : Memory.WF Config.romSize rom) (htp : Memory.WF Config.cells tp) (hcpl : Memory.WF Config.cells cpl)
    (hramf : Memory.WF Config.ramfSize ramf) : (State.resetWith cfg rom prog sched tp cpl ramf).Inv where
  cfgOk := hcfg
  mem := ⟨htp, hcpl, hramf, hrom⟩
  alloc := ⟨le_rfl, le_rfl⟩
  counters := totals_pos hcfg
  pendingAt := nofun
  held _ := ⟨rfl, rfl, rfl, rfl, rfl⟩
  source := nofun
  line := ⟨zeroLine_length, fun _ => rfl, rfl⟩
  fault := ⟨by simp [State.resetWith], fun _ => rfl⟩
  cpBound := Nat.zero_le _
  inFlight := nofun

/-- Settles O2: the state after reset meets the invariant, and what the free values of the model's own reset stand for is in
form. -/
theorem invariantHoldsAfterReset : Obligations.InvariantHoldsAfterReset :=
  ⟨fun _ _ prog sched _ _ _ hcfg hrom htp hcpl hramf => resetWith_inv prog sched hcfg hrom htp hcpl hramf,
    resetWith_inv [] [] config_cfg_ok romImage_WF tpImage_WF cpImage_WF ramfImage_WF⟩

end Sys2Proof.Machine
end

section
/-! The invariant of 10 R50 is kept by every step. The timers and the renderer leave the foreground, so that only the counters
and the line are to be looked at there; a step of a command keeps each part by a lemma about that part. -/

namespace Sys2Proof.Machine

/-- The parts of the invariant about the timers and the line (10 R50(b), (c), R43; 40 R124). -/
structure TimersOk (s : State) : Prop where
  counters : s.hcnt < s.cfg.hTotal ∧ s.vcnt < s.cfg.vTotal
  pendingAt : s.irqPend = true → s.hcnt = s.cfg.hIrqAt
  held : s.run = false → s.hcnt = 0 ∧ s.vcnt = 0 ∧ s.irqPend = false ∧ s.videoActive = false ∧ s.lineActive = false
  line : s.linebuf.length = Config.pixW ∧ (s.lineActive = false → s.linebuf = zeroLine) ∧ s.videoActive = s.lineActive

theorem State.Inv.timersOk {s : State} (h : s.Inv) : TimersOk s := ⟨h.counters, h.pendingAt, h.held, h.line⟩

/-- A pending interrupt means that the timers run (10 R50(c)). -/
theorem TimersOk.run_of_irqPend {s : State} (h : TimersOk s) (hi : s.irqPend = true) : s.run = true := by
  by_contra hr
  obtain ⟨-, -, hnone, -⟩ := h.held (Bool.eq_false_of_not_eq_true hr)
  exact Bool.false_ne_true (hnone.symm.trans hi)

/-- The invariant of another state with the same foreground is a matter of the timers and the line. -/
theorem State.Inv.of_foreground {s t : State} (h : s.Inv) (hf : t.foreground = s.foreground) (ht : TimersOk t) : t.Inv := by
  cases t
  cases hf
  exact ⟨h.cfgOk, ⟨h.mem.tp, h.mem.cpl, h.mem.ramf, h.mem.rom⟩, h.alloc, ht.counters, ht.pendingAt, ht.held, h.source, ht.line,
    h.fault, h.cpBound, fun c hc => ⟨(h.inFlight c hc).1, PosOk_congr (s := s) rfl rfl rfl rfl (h.inFlight c hc).2⟩⟩

/-! ### The schedule, the tick and the line service -/

theorem popTurn_inv {s : State} (h : s.Inv) : (popTurn s).Inv :=
  h.of_foreground rfl ⟨h.counters, h.pendingAt, h.held, h.line⟩

theorem nextHcnt_lt {s : State} (h : s.hcnt < s.cfg.hTotal) : nextHcnt s < s.cfg.hTotal := by
  simp only [nextHcnt, lineEnds, decide_eq_true_eq]
  split <;> omega

theorem nextVcnt_lt {s : State} (h : s.vcnt < s.cfg.vTotal) : nextVcnt s < s.cfg.vTotal := by
  unfold nextVcnt
  split
  · split <;> omega
  · exact h

/-- A tick, with RUN = 1 and no interrupt pending, keeps the counters in range and raises the interrupt only at H_IRQ_AT
(40 R124). -/
theorem tick_timersOk {s : State} (h : TimersOk s) (hr : s.run = true) (hi : s.irqPend = false) : TimersOk (tick s) where
  counters := ⟨nextHcnt_lt h.counters.1, nextVcnt_lt h.counters.2⟩
  pendingAt := by simp [hi]
  held := by simp [hr]
  line := h.line

theorem tick_inv {s : State} (h : s.Inv) (hr : s.run = true) (hi : s.irqPend = false) : (tick s).Inv :=
  h.of_foreground rfl (tick_timersOk h.timersOk hr hi)

/-- No agent but CMD writes the foreground's part of the state (20 R81, 41 R169). -/
theorem lineService_foreground (s : State) : (lineService s).foreground = s.foreground := by simp [State.foreground]

/-- The line service leaves a whole line, blank outside the window, and takes the interrupt back (41 R160, R168). -/
theorem lineService_timersOk {s : State} (h : TimersOk s) (hi : s.irqPend = true) : TimersOk (lineService s) where
  counters := by simpa using h.counters
  pendingAt := by simp
  held := by simp [h.run_of_irqPend hi]
  line := by
    refine ⟨by simp, fun hblank => ?_, by simp⟩
    rw [lineService_lineActive] at hblank
    simp [serviceEvent, hblank]

theorem lineService_inv {s : State} (h : s.Inv) (hi : s.irqPend = true) : (lineService s).Inv :=
  h.of_foreground (lineService_foreground s) (lineService_timersOk h.timersOk hi)

/-! ### The step of a command -/

/-- What a step of a command can do to the bitmap source: it leaves SRC_SEL and FONT_BASE and does not set RUN, or it selects a
source that is not null (40 R130, R138). -/
theorem exec_source {i : Instr} {s t : State} (h : exec i s = .next t) :
    ((t.run = true → s.run = true) ∧ t.srcSel = s.srcSel ∧ t.fontBase = s.fontBase) ∨
    (t.srcSel = false → t.fontBase ≠ 0) := by
  have selected : ∀ {alt : Bool} {base : Word}, ¬nullSource alt base = true → alt = false →
      (if alt then s.fontBase else base) ≠ 0 := by simp [nullSource]
  cases i
  case start alt base =>
    simp only [exec, execStart] at h
    split at h
    · cases h
    · split at h <;> cases h
      · exact .inl ⟨id, rfl, rfl⟩
      · exact .inr (selected ‹_›)
  case stop =>
    cases h
    exact .inl ⟨nofun, rfl, rfl⟩
  case setsrc alt base =>
    simp only [exec, execSetsrc] at h
    split at h <;> cases h
    · exact .inl ⟨id, rfl, rfl⟩
    · exact .inr (selected ‹_›)
  case waitf n =>
    simp only [exec, execWaitf] at h
    (repeat' split at h) <;> cases h <;> exact .inl ⟨id, rfl, rfl⟩
  case getframe =>
    cases h
    exact .inl ⟨id, rfl, rfl⟩
  all_goals
    have ⟨_, hsel, hbase, _⟩ := exec_sameSource rfl h
    exact .inl ⟨(exec_sameTimers rfl h).run.symm.trans, hsel, hbase⟩

/-- Timers held at zero with the line blank are in order, whether they have just been stopped or started. -/
theorem AtZero.timersOk {t : State} (h : AtZero t) (hpos : 0 < t.cfg.hTotal ∧ 0 < t.cfg.vTotal) : TimersOk t where
  counters := by rwa [h.hcnt, h.vcnt]
  pendingAt := by simp [h.irqPend]
  held _ := ⟨h.hcnt, h.vcnt, h.irqPend, h.videoActive, h.lineActive⟩
  line := by simp [h.linebuf, h.videoActive, h.lineActive]

theorem SameTimers.timersOk {s t : State} (h : SameTimers s t) (hcfg : t.cfg = s.cfg) (hs : TimersOk s) : TimersOk t where
  counters := by rw [h.hcnt, h.vcnt, hcfg]; exact hs.counters
  pendingAt := by rw [h.irqPend, h.hcnt, hcfg]; exact hs.pendingAt
  held := by rw [h.run, h.hcnt, h.vcnt, h.irqPend, h.videoActive, h.lineActive]; exact hs.held
  line := by rw [h.linebuf, h.lineActive, h.videoActive]; exact hs.line

/-- A step of a command leaves the timers alone or sets them to zero. -/
theorem exec_timersOk {i : Instr} {s t : State} (hs : TimersOk s) (h : exec i s = .next t) : TimersOk t := by
  have hcfg := (exec_sameOutside h).cfg
  have hpos : 0 < t.cfg.hTotal ∧ 0 < t.cfg.vTotal := by
    rw [hcfg]
    exact ⟨Nat.zero_lt_of_lt hs.counters.1, Nat.zero_lt_of_lt hs.counters.2⟩
  obtain hsame | ⟨hzero, -⟩ | ⟨hzero, -⟩ := exec_timers h
  · exact hsame.timersOk hcfg hs
  · exact hzero.timersOk hpos
  · exact hzero.timersOk hpos

/-- The memories that commands write are among the four. -/
theorem State.MemOk.ramOk {s : State} (h : s.MemOk) : RamOk s := ⟨h.tp, h.cpl, h.ramf⟩

theorem exec_MemOk {i : Instr} {s t : State} (hs : s.MemOk) (h : exec i s = .next t) : t.MemOk := by
  have ram := exec_RamOk hs.ramOk h
  exact ⟨ram.tp, ram.cpl, ram.ramf, (exec_sameOutside h).memROM ▸ hs.rom⟩

/-- The command at cp ends inside the program (30 R92, check 2). -/
theorem fetch_len_le {s : State} {i : Instr} (h : fetch s = .ok i) : s.cp + i.len ≤ s.prog.length := by
  have hlen := decode_len_le h
  have hpos := len_pos i
  rw [List.length_drop] at hlen
  omega

/-- A step of the command at cp leaves cp inside the program: past the command, or at it with the command in flight (10 R21). -/
theorem exec_cp {i : Instr} {s t : State} (hfetch : fetch s = .ok i) (h : exec i s = .next t) :
    t.cp ≤ t.prog.length ∧ ∀ c, t.cur = some c → fetch t = .ok c.instr := by
  have hend := fetch_len_le hfetch
  rw [(exec_sameOutside h).prog]
  obtain ⟨hcur, hcp⟩ | ⟨p, hcur, hcp⟩ := exec_retires_or_holds h
  · exact ⟨hcp ▸ hend, by simp [hcur]⟩
  · refine ⟨by omega, fun c hc => ?_⟩
    rw [hcur] at hc
    cases hc
    rwa [fetch, (exec_sameOutside h).prog, hcp]

/-- A step of the command at cp, started or gone on with, keeps the invariant while no command has faulted. -/
theorem exec_inv {i : Instr} {s t : State} (hs : s.Inv) (hf : s.cmdFault = false) (hfetch : fetch s = .ok i)
    (hcur : ∀ c, s.cur = some c → c.instr = i) (h : exec i s = .next t) : t.Inv := by
  have same := exec_sameOutside h
  have timers := exec_timersOk hs.timersOk h
  have ⟨cpBound, fetched⟩ := exec_cp hfetch h
  exact
    { cfgOk := same.cfg ▸ hs.cfgOk
      mem := exec_MemOk hs.mem h
      alloc := exec_AllocOk hs.alloc h
      counters := timers.counters
      pendingAt := timers.pendingAt
      held := timers.held
      source := by
        intro hr
        obtain ⟨hrun, hsel, hbase⟩ | hset := exec_source h
        · rw [hsel, hbase]
          exact hs.source (hrun hr)
        · exact hset
      line := timers.line
      fault := by
        rw [same.cause, same.cmdFault]
        exact ⟨hs.fault.1, by simp [hf]⟩
      cpBound
      inFlight := fun c hc => ⟨fetched c hc, exec_PosOk hs.mem.ramOk hs.alloc
        (fun c hc => ⟨hcur c hc, (hs.inFlight c hc).2⟩) h hc⟩ }

theorem cause_ne_zero (e : DecodeError) : e.cause ≠ 0 := by cases e <;> decide

/-- Taking the first command fault, which happens with no command in flight, keeps the invariant (60 R282). -/
theorem raiseCmdFault_inv {s : State} (hs : s.Inv) (hf : s.cmdFault = false) (hcur : s.cur = none) (e : DecodeError) :
    (raiseCmdFault e.cause s).Inv where
  cfgOk := hs.cfgOk
  mem := ⟨hs.mem.tp, hs.mem.cpl, hs.mem.ramf, hs.mem.rom⟩
  alloc := hs.alloc
  counters := hs.counters
  pendingAt := hs.pendingAt
  held := hs.held
  source := hs.source
  line := hs.line
  fault := ⟨iff_of_true (by simpa [hf] using cause_ne_zero e) rfl, fun _ => hcur⟩
  cpBound := hs.cpBound
  inFlight := by simp [hcur]

theorem cmdStep_inv {s t : State} (hs : s.Inv) (hf : s.cmdFault = false) (h : cmdStep s = .next t) : t.Inv := by
  obtain ⟨c, hcur, hexec⟩ | ⟨hcur, i, hfetch, hexec⟩ | ⟨hcur, e, -, rfl⟩ := cmdStep_cases h
  · exact exec_inv hs hf (hs.inFlight c hcur).1 (by simp [hcur]) hexec
  · exact exec_inv hs hf hfetch (by simp [hcur]) hexec
  · exact raiseCmdFault_inv hs hf hcur e

/-- Whichever agent moves, its step keeps the invariant (10 R50). -/
theorem step_inv {s t : State} (hs : s.Inv) (h : step s = .next t) : t.Inv := by
  obtain ⟨hi, rfl⟩ | ⟨hi, hr, ⟨-, rfl⟩ | ⟨-, -, rfl⟩⟩ | ⟨-, hc, ⟨-, hcmd⟩ | ⟨-, -, hcmd⟩⟩ := step_cases h
  · exact lineService_inv hs hi
  · exact tick_inv hs hr hi
  · exact tick_inv (popTurn_inv hs) hr hi
  · exact cmdStep_inv hs (cmdEnabled_iff.1 hc).2.1 hcmd
  · exact cmdStep_inv (popTurn_inv hs) (cmdEnabled_iff.1 hc).2.1 hcmd

/-- Settles O3: a step is a line service, a tick, a command fault or a step of the command at cp, and each keeps every part of
the invariant. -/
theorem everyStepKeepsTheInvariant : Obligations.EveryStepKeepsTheInvariant := fun _ _ => step_inv

end Sys2Proof.Machine
end

section
/-! What no agent but CMD writes (20 R81; 40 R124; 41 R169): a step of the engine leaves the foreground or is a step of CMD. -/

namespace Sys2Proof.Machine

/-- A step of the engine is another agent's and leaves the foreground, or it is a step of CMD that the schedule let move, taken
from a state with the foreground of the first (60 R274). -/
theorem step_foreground_or_cmdStep {s t : State} (h : step s = .next t) :
    t.foreground = s.foreground ∨
    (s.irqPend = false ∧ cmdEnabled s = true ∧ (s.run = true → nextTurn s = .cmd)) ∧
      ∃ u, u.foreground = s.foreground ∧ cmdStep u = .next t := by
  obtain ⟨-, rfl⟩ | ⟨-, -, ⟨-, rfl⟩ | ⟨-, -, rfl⟩⟩ | ⟨hi, hc, ⟨hr, hcmd⟩ | ⟨-, hn, hcmd⟩⟩ := step_cases h
  · exact .inl (lineService_foreground s)
  · exact .inl rfl
  · exact .inl rfl
  · exact .inr ⟨⟨hi, hc, by simp [hr]⟩, s, rfl, hcmd⟩
  · exact .inr ⟨⟨hi, hc, fun _ => hn⟩, popTurn s, rfl, hcmd⟩

/-- Settles O57: where an interrupt is pending, CMD has no step or the turn is TMR's, the step is not one of CMD. -/
theorem timersAndRendererLeaveTheForeground : Obligations.TimersAndRendererLeaveTheForeground := by
  refine ⟨fun s => ⟨rfl, lineService_foreground s⟩, fun s s' h notCmd => ?_⟩
  obtain hsame | ⟨⟨hi, hc, hturn⟩, -⟩ := step_foreground_or_cmdStep h
  · exact hsame
  · rcases notCmd with hpend | hidle | ⟨hr, htmr⟩
    · simp [hi] at hpend
    · simp [hc] at hidle
    · simp [hturn hr] at htmr

end Sys2Proof.Machine
end

section
/-! The results of a program without GETFRAME do not depend on the schedule (20 R81). What ticks and line services move, and the
frame at which a WAITF began to wait, is put at fixed values in `State.timeless`. CMD's steps do not look at it, and every other
step leaves the rest, so every schedule goes through the same timeless states in the same order. -/

namespace Sys2Proof.Machine

/-! ### The state without what the schedule decides -/

/-- The position with the frame at which WAITF began to wait forgotten (40 R142). -/
def Pos.timeless : Pos → Pos
  | .waiting _ => .waiting 0
  | p => p

/-- The state with the timers held, no line served, no schedule, and FRAME so far on that every WAITF may go on. -/
def State.timeless (s : State) : State :=
  { s with
    irqPend := false, videoActive := false, phase := false, hcnt := 0, vcnt := 0, frameCount := BitVec.allOnes 32, scan := 0,
    linebuf := zeroLine, lineActive := false, lineSrc := false, lineLatcomp := 0, out := [], sched := [], turnCount := 0,
    cur := s.cur.map fun c => { c with pos := c.pos.timeless } }

@[simp] theorem timeless_memTP (s : State) : s.timeless.memTP = s.memTP := rfl
@[simp] theorem timeless_memROM (s : State) : s.timeless.memROM = s.memROM := rfl
@[simp] theorem timeless_cur (s : State) : s.timeless.cur = s.cur.map fun c => { c with pos := c.pos.timeless } := rfl

@[simp] theorem Pos.timeless_timeless (p : Pos) : p.timeless.timeless = p.timeless := by cases p <;> rfl

@[simp] theorem timeless_timeless (s : State) : s.timeless.timeless = s.timeless := by
  simp [State.timeless, Function.comp_def]

/-- The timeless state is made of the foreground alone. -/
theorem timeless_congr {s t : State} (h : t.foreground = s.foreground) : t.timeless = s.timeless := by
  cases t
  cases h
  rfl

theorem finished_timeless (s : State) : s.timeless.finished ↔ s.finished := by
  simp [State.finished, State.timeless]

/-! ### The operations do not look at what is forgotten -/

theorem hold_timeless (i : Instr) {p : Pos} (hp : p.timeless = p) (s : State) :
    hold i p s.timeless = (hold i p s).timeless := by
  simp [hold, State.timeless, hp]

theorem goOn_timeless (i : Instr) {next : Option Pos} (hp : ∀ p ∈ next, p.timeless = p) (s : State) :
    goOn i next s.timeless = (goOn i next s).timeless := by
  rcases next with _ | p
  · rfl
  · exact hold_timeless i (hp p rfl) s

theorem settle_timeless (fresh : Bool) (s : State) : settle fresh s.timeless = (settle fresh s).timeless := by
  cases fresh <;> rfl

theorem setPixelStep_timeless (x y : Nat) (on : Bool) (p : PixPos) (s : State) :
    setPixelStep x y on p s.timeless = ((setPixelStep x y on p s).1.timeless, (setPixelStep x y on p s).2) := by
  cases p with
  | acquire =>
    by_cases h0 : s.memTP.read (pixelCell x y) = 0 <;>
      simp only [setPixelStep, timeless_memTP, h0, if_true, if_false]
  | tpWrite => rfl
  | rmwRead t fresh => exact Prod.ext (settle_timeless fresh s) rfl
  | rmwWrite t b => rfl

theorem indexPos_timeless (s : State) : indexPos s.timeless = indexPos s := by
  simp only [indexPos, timeless_cur]
  rcases s.cur with _ | ⟨j, p⟩
  · rfl
  · cases p <;> rfl

theorem pixelPos_timeless (s : State) : pixelPos s.timeless = pixelPos s := by
  simp only [pixelPos, timeless_cur]
  rcases s.cur with _ | ⟨j, p⟩
  · rfl
  · cases p <;> rfl

/-- A loop of accesses, none of which looks at what is forgotten. -/
theorem accessLoop_timeless {i : Instr} {total : Nat} {access : Nat → State → State} {finish : State → State}
    (ha : ∀ k s, access k s.timeless = (access k s).timeless) (hf : ∀ s, finish s.timeless = (finish s).timeless)
    (s : State) :
    accessLoop i total access finish s.timeless = (accessLoop i total access finish s).timeless := by
  simp only [accessLoop, indexPos_timeless, ha, hf]
  split
  · split
    · exact hold_timeless i rfl _
    · rfl
  · rfl

theorem fillScreen_timeless (tile color : Byte) (k : Nat) (s : State) :
    fillScreen tile color k s.timeless = (fillScreen tile color k s).timeless := by
  unfold fillScreen
  split <;> rfl

theorem clearScreen_timeless (color : Byte) (k : Nat) (s : State) :
    clearScreen color k s.timeless = (clearScreen color k s).timeless := by
  unfold clearScreen
  rw [show poolBytes s.timeless = poolBytes s from rfl]
  split
  · rfl
  · split
    · exact fillScreen_timeless 0 color 0 (rewindPool s)
    · exact fillScreen_timeless 0 color _ s

section
variable (i : Instr) (d : Sprite) (q : Nat) (tiles : Tiles) (s : State)

theorem paintFrom_timeless : paintFrom i d q s.timeless = (paintFrom i d q s).timeless := by
  unfold paintFrom
  split <;> rfl

theorem drawPixelStep_timeless (p : PixPos) : drawPixelStep i d q p s.timeless = (drawPixelStep i d q p s).timeless := by
  simp only [drawPixelStep, setPixelStep_timeless]
  refine hold_timeless i ?_ _
  rcases (setPixelStep _ _ _ p s).2 with _ | _ <;> rfl

theorem drawFrom_timeless : drawFrom i d q s.timeless = (drawFrom i d q s).timeless := by
  unfold drawFrom
  rw [timeless_memROM]
  split
  · exact drawPixelStep_timeless i d _ s _
  · exact paintFrom_timeless i d 0 s

theorem drawStep_timeless : drawStep i d s.timeless = (drawStep i d s).timeless := by
  simp only [drawStep, timeless_cur]
  rcases s.cur with _ | ⟨j, p⟩
  · exact drawFrom_timeless i d 0 s
  · cases p with
    | pixel q p => exact drawPixelStep_timeless i d q s p
    | scan q => exact drawFrom_timeless i d q s
    | paint k => exact paintFrom_timeless i d k s
    | _ => exact drawFrom_timeless i d 0 s

theorem rowsFrom_timeless : rowsFrom i d q tiles s.timeless = (rowsFrom i d q tiles s).timeless := by
  unfold rowsFrom
  split
  · rfl
  · exact paintFrom_timeless i d 0 s

theorem cellsFrom_timeless : cellsFrom i d q tiles s.timeless = (cellsFrom i d q tiles s).timeless := by
  unfold cellsFrom
  rw [timeless_memROM]
  split
  · rw [apply_ite State.timeless]
    rfl
  · exact rowsFrom_timeless i d 0 tiles s

theorem draw8Step_timeless : draw8Step i d s.timeless = (draw8Step i d s).timeless := by
  simp only [draw8Step, timeless_cur]
  rcases s.cur with _ | ⟨j, p⟩
  · exact cellsFrom_timeless i d 0 [] s
  · cases p with
    | cells q fresh tiles =>
      exact (congrArg _ (settle_timeless fresh s)).trans (cellsFrom_timeless i d q tiles _)
    | cellWrite q tiles => rfl
    | rows q tiles => exact rowsFrom_timeless i d q tiles s
    | rowWrite q b tiles => rfl
    | paint k => exact paintFrom_timeless i d k s
    | _ => exact cellsFrom_timeless i d 0 [] s

end

/-! ### A step of CMD on the timeless state -/

/-- A command whose step is a function that does not look at what is forgotten. -/
theorem exec_timeless_of_fun {i : Instr} {f : State → State} {s t : State} (hexec : ∀ u, exec i u = .next (f u))
    (hf : f s.timeless = (f s).timeless) (h : exec i s = .next t) : exec i s.timeless = .next t.timeless := by
  rw [hexec] at h ⊢
  cases h
  rw [hf]

/-- START looks at RUN and its operands, and sets the timers to the values they have in the timeless state (40 R130). -/
theorem execStart_timeless {alt : Bool} {base : Word} {s t : State} (h : execStart alt base s = .next t) :
    execStart alt base s.timeless = .next t.timeless := by
  unfold execStart at h ⊢
  rw [show s.timeless.run = s.run from rfl]
  split at h
  · cases h
  · rw [if_neg ‹_›]
    split at h <;> cases h
    · exact if_pos ‹_›
    · exact if_neg ‹_›

theorem execSetsrc_timeless {alt : Bool} {base : Word} {s t : State} (h : execSetsrc alt base s = .next t) :
    execSetsrc alt base s.timeless = .next t.timeless := by
  cases h
  unfold execSetsrc
  split <;> rfl

theorem execAcquire_timeless {cx cy : Byte} {s t : State} (h : execAcquire cx cy s = .next t) :
    execAcquire cx cy s.timeless = .next t.timeless := by
  unfold execAcquire at h ⊢
  rw [timeless_cur]
  rcases hc : s.cur with _ | ⟨j, p⟩ <;> rw [hc] at h
  · cases h
    rw [apply_ite State.timeless]
    rfl
  · cases p with
    | acqWrite =>
      cases h
      rfl
    | _ =>
      cases h
      rw [apply_ite State.timeless]
      rfl

/-- A step of a command but GETFRAME and WAITF, which read FRAME, does not look at what is forgotten. -/
theorem exec_timeless {i : Instr} {s t : State} (hg : i ≠ .getframe) (hw : ∀ n, i ≠ .waitf n) (ht : exec i s = .next t) :
    exec i s.timeless = .next t.timeless := by
  cases i with
  | start alt base => exact execStart_timeless ht
  | setsrc alt base => exact execSetsrc_timeless ht
  | waitf n => exact absurd rfl (hw n)
  | getframe => exact absurd rfl hg
  | acquire cx cy => exact execAcquire_timeless ht
  | stop => exact exec_timeless_of_fun (fun _ => rfl) rfl ht
  | resetpool => exact exec_timeless_of_fun (fun _ => rfl) (accessLoop_timeless (fun _ _ => by rfl) (fun _ => by rfl) s) ht
  | setfirstfree n =>
    refine exec_timeless_of_fun (fun _ => rfl) ?_ ht
    split <;> rfl
  | settile cx cy val => exact exec_timeless_of_fun (fun _ => rfl) rfl ht
  | gettile cx cy => exact exec_timeless_of_fun (fun _ => rfl) rfl ht
  | setcolor cx cy val => exact exec_timeless_of_fun (fun _ => rfl) rfl ht
  | getcolor cx cy => exact exec_timeless_of_fun (fun _ => rfl) rfl ht
  | fillcolor cx cy w h color =>
    exact exec_timeless_of_fun (fun _ => rfl) (accessLoop_timeless (fun _ _ => by rfl) (fun _ => by rfl) s) ht
  | fillscr tile color =>
    exact exec_timeless_of_fun (fun _ => rfl) (accessLoop_timeless (fillScreen_timeless tile color) (fun _ => by rfl) s) ht
  | setpixel x y on =>
    refine exec_timeless_of_fun (fun _ => rfl) ?_ ht
    simp only [pixelPos_timeless, setPixelStep_timeless]
    exact goOn_timeless _ (by simp [Pos.timeless]) _
  | drawbmp x y w h base frame on paint color =>
    refine exec_timeless_of_fun (fun _ => rfl) ?_ ht
    split
    · rfl
    · exact drawStep_timeless _ _ s
  | drawbmp8 x y w h base frame on paint color =>
    refine exec_timeless_of_fun (fun _ => rfl) ?_ ht
    split
    · rfl
    · exact draw8Step_timeless _ _ s
  | cleargraph color =>
    exact exec_timeless_of_fun (fun _ => rfl) (accessLoop_timeless (clearScreen_timeless color) (fun _ => by rfl) s) ht
  | copyfont fi src ri =>
    refine exec_timeless_of_fun (fun _ => rfl) ?_ ht
    split
    · rfl
    · exact accessLoop_timeless (fun _ _ => by rfl) (fun _ => by rfl) s

/-- In the timeless state every WAITF may go on (40 R142). -/
theorem waitOver_timeless (n : BitVec 16) (s : State) : waitOver n 0 s.timeless.frameCount = true :=
  decide_eq_true (n.isLt.le.trans (by decide : 2 ^ 16 ≤ (BitVec.allOnes 32 - 0).toNat))

/-- WAITF on the timeless state retires or begins to wait where it does on the state itself (40 R142). -/
theorem execWaitf_timeless {n : BitVec 16} {s t : State} (h : execWaitf n s = .next t) :
    ∃ u, execWaitf n s.timeless = .next u ∧ u.timeless = t.timeless := by
  unfold execWaitf at h ⊢
  rw [timeless_cur]
  rcases hc : s.cur with _ | ⟨j, p⟩ <;> rw [hc] at h
  · cases h
    exact ⟨_, rfl, rfl⟩
  · cases p
    case waiting ws =>
      simp only at h
      split at h <;> cases h
      exact ⟨_, if_pos (waitOver_timeless n s), timeless_timeless (retire (.waitf n) s)⟩
    all_goals
      cases h
      exact ⟨_, rfl, rfl⟩

/-! ### The program ahead -/

/-- More fuel only finds more commands. -/
theorem mem_commandsOf_mono {i : Instr} {n m : Nat} {ws : List Word} (hnm : n ≤ m) (h : i ∈ commandsOf n ws) :
    i ∈ commandsOf m ws := by
  induction n generalizing m ws with
  | zero => simp [commandsOf] at h
  | succ n ih =>
    obtain ⟨m, rfl⟩ : ∃ k, m = k + 1 := ⟨m - 1, by omega⟩
    simp only [commandsOf] at h ⊢
    split at h
    · exact (List.mem_cons.1 h).elim (fun he => he ▸ .head _) fun h => .tail _ (ih (by omega) h)
    · simp at h

/-- The words of a program without GETFRAME begin with another command, and what follows it is without GETFRAME. -/
theorem NoGetframe.of_decode {ws : List Word} {i : Instr} (hws : NoGetframe ws) (h : decode ws = .ok i) :
    i ≠ .getframe ∧ NoGetframe (ws.drop i.len) := by
  have hlen := decode_len_le h
  have hpos := len_pos i
  obtain ⟨n, hn⟩ : ∃ n, ws.length = n + 1 := ⟨ws.length - 1, by omega⟩
  have hnot : .getframe ∉ i :: commandsOf n (ws.drop i.len) := by simpa [NoGetframe, hn, commandsOf, h] using hws
  rw [List.mem_cons, not_or] at hnot
  exact ⟨Ne.symm hnot.1, fun hmem => hnot.2 (mem_commandsOf_mono (by rw [List.length_drop]; omega) hmem)⟩

/-- cp stands at a command of a program that has no GETFRAME from there on, and CUR can only hold that command (10 R21, R44). -/
structure OnTrack (s : State) : Prop where
  ahead : NoGetframe (s.prog.drop s.cp)
  inFlight : ∀ c, s.cur = some c → fetch s = .ok c.instr

theorem OnTrack.of_foreground {s t : State} (h : OnTrack s) (hf : t.foreground = s.foreground) : OnTrack t := by
  cases t
  cases hf
  exact ⟨h.ahead, h.inFlight⟩

/-- A step of the command at cp leaves cp there or moves it past the command. -/
theorem exec_onTrack {i : Instr} {s t : State} (hs : OnTrack s) (hfetch : fetch s = .ok i) (h : exec i s = .next t) :
    OnTrack t where
  ahead := by
    rw [(exec_sameOutside h).prog]
    obtain ⟨-, hcp⟩ | ⟨-, -, hcp⟩ := exec_retires_or_holds h <;> rw [hcp]
    · rw [← List.drop_drop]
      exact (hs.ahead.of_decode hfetch).2
    · exact hs.ahead
  inFlight := (exec_cp hfetch h).2

theorem cmdStep_onTrack {s t : State} (hs : OnTrack s) (h : cmdStep s = .next t) : OnTrack t := by
  obtain ⟨c, hcur, hexec⟩ | ⟨-, i, hfetch, hexec⟩ | ⟨-, e, -, rfl⟩ := cmdStep_cases h
  · exact exec_onTrack hs (hs.inFlight c hcur) hexec
  · exact exec_onTrack hs hfetch hexec
  · exact ⟨hs.ahead, hs.inFlight⟩

/-! ### Every schedule is one run of the timeless machine -/

/-- A step of the command at cp of a program without GETFRAME, taken on the timeless state, leads to the same timeless state. -/
theorem exec_timeless_of_onTrack {i : Instr} {s t : State} (hs : OnTrack s) (hfetch : fetch s = .ok i)
    (h : exec i s = .next t) :
    ∃ u, exec i s.timeless = .next u ∧ u.timeless = t.timeless := by
  by_cases hw : ∃ n, i = .waitf n
  · obtain ⟨n, rfl⟩ := hw
    exact execWaitf_timeless h
  · exact ⟨_, exec_timeless (hs.ahead.of_decode hfetch).1 (not_exists.1 hw) h, timeless_timeless t⟩

theorem cmdStep_timeless {s t : State} (hs : OnTrack s) (h : cmdStep s = .next t) :
    ∃ u, cmdStep s.timeless = .next u ∧ u.timeless = t.timeless := by
  have hsame : fetch s.timeless = fetch s := rfl
  obtain ⟨c, hcur, hexec⟩ | ⟨hcur, i, hfetch, hexec⟩ | ⟨hcur, e, hfetch, rfl⟩ := cmdStep_cases h
  · simpa [cmdStep, hcur] using exec_timeless_of_onTrack hs (hs.inFlight c hcur) hexec
  · simpa [cmdStep, hcur, hsame, hfetch] using exec_timeless_of_onTrack hs hfetch hexec
  · refine ⟨raiseCmdFault e.cause s.timeless, ?_, timeless_timeless (raiseCmdFault e.cause s)⟩
    simp [cmdStep, hcur, hsame, hfetch]

/-- One step of the timeless machine: CMD's step on a state that has not finished, with what the schedule decides forgotten. -/
def TimelessStep (v w : State) : Prop := ¬v.finished ∧ ∃ u, cmdStep v = .next u ∧ u.timeless = w

theorem timelessStep_rightUnique : Relator.RightUnique TimelessStep := by
  rintro v w w' ⟨-, u, hu, rfl⟩ ⟨-, u', hu', rfl⟩
  cases hu.symm.trans hu'
  rfl

/-- Where CMD has a step, the program has not finished (60 R272, R276). -/
theorem not_finished_of_cmdEnabled {s : State} (h : cmdEnabled s = true) : ¬s.finished := by
  rintro ⟨hcp, hcur, -⟩
  obtain ⟨-, -, ⟨c, hc, -⟩ | ⟨-, hlt⟩⟩ := cmdEnabled_iff.1 h
  · simp [hcur] at hc
  · omega

/-- A step of the engine is no step of the timeless machine, or one. -/
theorem step_timeless {s t : State} (hs : OnTrack s) (h : step s = .next t) :
    OnTrack t ∧ (t.timeless = s.timeless ∨ TimelessStep s.timeless t.timeless) := by
  obtain hsame | ⟨⟨-, hc, -⟩, u, hu, hcmd⟩ := step_foreground_or_cmdStep h
  · exact ⟨hs.of_foreground hsame, .inl (timeless_congr hsame)⟩
  · have hon := hs.of_foreground hu
    refine ⟨cmdStep_onTrack hon hcmd, .inr ⟨mt (finished_timeless s).1 (not_finished_of_cmdEnabled hc), ?_⟩⟩
    rw [← timeless_congr hu]
    exact cmdStep_timeless hon hcmd

/-- A run of the engine is a run of the timeless machine. -/
theorem run_timeless {n : Nat} {s t : State} (hs : OnTrack s) (h : core.run n s = .next t) :
    Relation.ReflTransGen TimelessStep s.timeless t.timeless := by
  induction n generalizing s with
  | zero =>
    cases h
    exact .refl
  | succ n ih =>
    simp only [Host.Core.run] at h
    split at h
    · rename_i u hu
      obtain ⟨hon, hsame | hmove⟩ := step_timeless hs hu
      · exact hsame ▸ ih hon h
      · exact .head hmove (ih hon h)
    · cases h
    · cases h

/-- A finished timeless state has no next one. -/
theorem eq_of_finished {v w : State} (hv : v.finished) (h : Relation.ReflTransGen TimelessStep v w) : v = w := by
  obtain rfl | ⟨u, ⟨hne, -⟩, -⟩ := h.cases_head
  · rfl
  · exact absurd hv hne

/-- Two runs of the engine whose starts differ only in what the schedule decides finish in states that differ only in that. -/
theorem finished_runs_agree {n n' : Nat} {s s' t t' : State} (hs : OnTrack s) (hs' : OnTrack s')
    (hrun : core.run n s = .next t) (hfin : t.finished) (hrun' : core.run n' s' = .next t') (hfin' : t'.finished)
    (hstart : s.timeless = s'.timeless) : t.timeless = t'.timeless := by
  have hleft := run_timeless hs hrun
  have hright := run_timeless hs' hrun'
  rw [← hstart] at hright
  obtain h | h := Relation.ReflTransGen.total_of_right_unique timelessStep_rightUnique hleft hright
  · exact eq_of_finished ((finished_timeless t).2 hfin) h
  · exact (eq_of_finished ((finished_timeless t').2 hfin') h).symm

theorem resetWith_onTrack {prog : List Word} (hprog : NoGetframe prog) (cfg : Cfg) (rom tp cpl ramf : Memory)
    (sched : List Turn) : OnTrack (State.resetWith cfg rom prog sched tp cpl ramf) :=
  ⟨hprog, nofun⟩

/-- Settles O58: two schedules start from one timeless state, and the fields named are those of the timeless state. -/
theorem resultsDoNotDependOnTheSchedule : Obligations.ResultsDoNotDependOnTheSchedule := by
  intro cfg rom prog tp cpl ramf sched sched' n n' t t' hprog hrun hfin hrun' hfin'
  have agree : t.timeless = t'.timeless :=
    finished_runs_agree (resetWith_onTrack hprog ..) (resetWith_onTrack hprog ..) hrun hfin hrun' hfin' rfl
  exact ⟨(congrArg State.memTP agree :), (congrArg State.memCP agree :), (congrArg State.memRAMF agree :),
    (congrArg State.firstFree agree :), (congrArg State.nextFree agree :), (congrArg State.result agree :),
    (congrArg State.srcSel agree :), (congrArg State.fontBase agree :), (congrArg State.latcomp agree :)⟩

end Sys2Proof.Machine
end

section
/-! The fields of a command word (30 R91, R93): a word is its four bytes, or its two halfwords, and a must-be-zero mask (R96) is
a mask on each of them. -/

namespace Sys2Proof

/-! ### Four bytes -/

@[simp] theorem aField_byteWord (op a b c : Byte) : aField (byteWord op a b c) = a :=
  (BitVec.extractLsb'_append_eq_of_le (by decide)).trans
    ((BitVec.extractLsb'_append_eq_of_le (by decide)).trans BitVec.extractLsb'_append_eq_right)

@[simp] theorem bField_byteWord (op a b c : Byte) : bField (byteWord op a b c) = b :=
  (BitVec.extractLsb'_append_eq_of_le (by decide)).trans BitVec.extractLsb'_append_eq_right

@[simp] theorem cField_byteWord (op a b c : Byte) : cField (byteWord op a b c) = c :=
  BitVec.extractLsb'_append_eq_right

/-- A word is its four bytes (30 R91). -/
theorem byteWord_fields (w : Word) : byteWord (opField w) (aField w) (bField w) (cField w) = w := by
  simp only [byteWord, opField, aField, bField, cField]
  rw [BitVec.extractLsb'_append_extractLsb'_eq_extractLsb' (start₁ := 16) (start₂ := 24) rfl,
    BitVec.extractLsb'_append_extractLsb'_eq_extractLsb' (start₁ := 8) (start₂ := 16) rfl,
    BitVec.extractLsb'_append_extractLsb'_eq_extractLsb' (start₁ := 0) (start₂ := 8) rfl]
  exact BitVec.extractLsb'_eq_self

theorem word_eq_iff {w v : Word} : w = v ↔
    opField w = opField v ∧ aField w = aField v ∧ bField w = bField v ∧ cField w = cField v := by
  refine ⟨by rintro rfl; simp, fun ⟨hop, ha, hb, hc⟩ => ?_⟩
  rw [← byteWord_fields w, ← byteWord_fields v, hop, ha, hb, hc]

/-- A masked word is a matter of its four bytes, each masked. -/
theorem and_eq_iff {w m p : Word} : w &&& m = p ↔
    opField w &&& opField m = opField p ∧ aField w &&& aField m = aField p ∧ bField w &&& bField m = bField p ∧
      cField w &&& cField m = cField p := by
  simp only [word_eq_iff, opField, aField, bField, cField, BitVec.extractLsb'_and]

/-- The byte of a numeral at bit s. -/
theorem byte_ofNat {s : Nat} (hs : s ≤ 24) (n : Nat) : (BitVec.ofNat 32 n).extractLsb' s 8 = BitVec.ofNat 8 (n >>> s) := by
  ext k hk
  rw [BitVec.getElem_extractLsb', ← BitVec.getLsbD_eq_getElem, BitVec.getLsbD_ofNat, BitVec.getLsbD_ofNat,
    Nat.testBit_shiftRight]
  simp [hk, show s + k < 32 by omega]

@[simp] theorem opField_ofNat (n : Nat) : opField (BitVec.ofNat 32 n) = BitVec.ofNat 8 (n >>> 24) := byte_ofNat (by decide) n

@[simp] theorem aField_ofNat (n : Nat) : aField (BitVec.ofNat 32 n) = BitVec.ofNat 8 (n >>> 16) := byte_ofNat (by decide) n

@[simp] theorem bField_ofNat (n : Nat) : bField (BitVec.ofNat 32 n) = BitVec.ofNat 8 (n >>> 8) := byte_ofNat (by decide) n

@[simp] theorem cField_ofNat (n : Nat) : cField (BitVec.ofNat 32 n) = BitVec.ofNat 8 (n >>> 0) := byte_ofNat (by decide) n

@[simp] theorem byte_and_FF (b : Byte) : b &&& 0xFF#8 = b := BitVec.and_allOnes

/-! ### Two halfwords -/

@[simp] theorem hiHalf_halfWord (hi lo : BitVec 16) : hiHalf (halfWord hi lo) = hi := BitVec.extractLsb'_append_eq_left

@[simp] theorem loHalf_halfWord (hi lo : BitVec 16) : loHalf (halfWord hi lo) = lo := BitVec.extractLsb'_append_eq_right

/-- A word is its two halfwords (30 R93). -/
@[simp] theorem halfWord_halves (w : Word) : halfWord (hiHalf w) (loHalf w) = w :=
  (BitVec.extractLsb'_append_extractLsb'_eq_extractLsb' rfl).trans BitVec.extractLsb'_eq_self

/-- The upper halfword is the opcode byte and the byte A. -/
theorem hiHalf_eq (w : Word) : hiHalf w = opField w ++ aField w :=
  (BitVec.extractLsb'_append_extractLsb'_eq_extractLsb' (len₁ := 8) (start₁ := 16) (start₂ := 24) rfl).symm

theorem hiHalf_eq_zero_iff {w : Word} : hiHalf w = 0 ↔ opField w = 0 ∧ aField w = 0 := by
  rw [hiHalf_eq]
  refine ⟨fun h => ⟨?_, ?_⟩, fun ⟨hop, ha⟩ => ?_⟩
  · exact BitVec.extractLsb'_append_eq_left.symm.trans (congrArg (·.extractLsb' 8 8) h)
  · exact BitVec.extractLsb'_append_eq_right.symm.trans (congrArg (·.extractLsb' 0 8) h)
  · rw [hop, ha]
    rfl

/-- Where the opcode byte and the byte A are 04 and 0, the word is that of format H. -/
theorem halfWord_loHalf {w : Word} (hop : opField w = 0x04#8) (ha : aField w = 0#8) : halfWord 0x0400#16 (loHalf w) = w := by
  have h := halfWord_halves w
  rwa [hiHalf_eq, hop, ha] at h

@[simp] theorem aField_halfWord (hi lo : BitVec 16) : aField (halfWord hi lo) = hi.extractLsb' 0 8 :=
  BitVec.extractLsb'_append_eq_of_le le_rfl

/-! ### The flags of formats S, P and B -/

theorem bit16_eq (w : Word) : bit16 w = (aField w).getLsbD 0 := by simp [bit16, aField]

theorem bit17_eq (w : Word) : bit17 w = (aField w).getLsbD 1 := by simp [bit17, aField]

@[simp] theorem bit16_byteWord (b17 b16 : Bool) (op b c : Byte) : bit16 (byteWord op (flagByte b17 b16) b c) = b16 := by
  rw [bit16_eq, aField_byteWord]
  revert b17 b16
  decide

@[simp] theorem bit17_byteWord (b17 b16 : Bool) (op b c : Byte) : bit17 (byteWord op (flagByte b17 b16) b c) = b17 := by
  rw [bit17_eq, aField_byteWord]
  revert b17 b16
  decide

/-- Where all but the lowest two bits of the byte A must be 0, it is the two flags. -/
theorem flagByte_bits {w : Word} (h : aField w &&& 0xFC#8 = 0#8) : flagByte (bit17 w) (bit16 w) = aField w := by
  rw [bit16_eq, bit17_eq]
  revert h
  generalize aField w = a
  revert a
  decide

/-- Where all but the lowest bit of the byte A must be 0, it is the one flag. -/
theorem flagByte_bit16 {w : Word} (h : aField w &&& 0xFE#8 = 0#8) : flagByte false (bit16 w) = aField w := by
  rw [bit16_eq]
  revert h
  generalize aField w = a
  revert a
  decide

@[simp] theorem flagByte_and_FC (b17 b16 : Bool) : flagByte b17 b16 &&& 0xFC#8 = 0#8 := by
  revert b17 b16
  decide

@[simp] theorem flagByte_and_FE (b16 : Bool) : flagByte false b16 &&& 0xFE#8 = 0#8 := by
  revert b16
  decide

end Sys2Proof
end

section
/-! The decoder on the encoder's words and the encoder on the decoder's (30 R92, R93, R96). -/

namespace Sys2Proof.Machine

/-! ### The rows of the opcode map -/

/-- The opcodes of the map are distinct, so that a row is the one found for its opcode. -/
theorem opRow_of_mem {r : OpRow} (h : r ∈ opcodeMap) : opRow r.op = some r := by
  fin_cases h <;> rfl

theorem opRow_eq_none_iff {op : Byte} : opRow op = none ↔ ∀ r ∈ opcodeMap, r.op ≠ op := by
  simp [opRow, List.find?_eq_none]

theorem opField_zero0 : ∀ r ∈ opcodeMap, opField r.zero0 = 0 := by decide

/-- Only FILLCOLOR, of format R, has must-be-zero bits in word 1: its upper halfword (30 R93, R96). -/
theorem zero1_eq : ∀ r ∈ opcodeMap, r.zero1 = if r.op = 0x24 then 0xFFFF0000 else 0 := by decide

theorem len_le_four : ∀ r ∈ opcodeMap, r.len ≤ 4 := by decide

/-- The row as the table of 30 R96 gives it: opcode, length, fixed pattern of word 0 and its mask. -/
def tableEntry (r : OpRow) : Byte × Nat × Word × Word :=
  (r.op, r.len, byteWord r.op 0 0 0, byteWord 0xFF (aField r.zero0) (bField r.zero0) (cField r.zero0))

theorem opcodeTable_eq : opcodeTable = opcodeMap.map tableEntry := by decide

/-! ### The decoder -/

theorem decode_of_no_row {w0 : Word} {rest : List Word} (h : opRow (opField w0) = none) :
    decode (w0 :: rest) = .error .reservedOpcode := by
  simp only [decode, h]

theorem decode_of_row {w0 : Word} {rest : List Word} {r : OpRow} (h : opRow (opField w0) = some r) :
    decode (w0 :: rest) =
      if rest.length + 1 < r.len then .error .truncated
      else if w0 &&& r.zero0 = 0 ∧ rest.getD 0 0 &&& r.zero1 = 0 then
        .ok (r.build w0 (rest.getD 0 0) (rest.getD 1 0) (rest.getD 2 0))
      else .error .reservedField := by
  simp only [decode, h, ne_eq, ← not_and_or, ite_not]

/-- The words `ws` are long enough for the row, have 0 at every bit that must be 0 there, and stand for the command `i` there
(30 R92, R93). -/
structure ReadsAs (r : OpRow) (ws : List Word) (i : Instr) : Prop where
  len : r.len ≤ ws.length
  zero0 : ws.getD 0 0 &&& r.zero0 = 0
  zero1 : ws.getD 1 0 &&& r.zero1 = 0
  build : r.build (ws.getD 0 0) (ws.getD 1 0) (ws.getD 2 0) (ws.getD 3 0) = i

/-- Words whose opcode has a row where they read as a command are decoded to it (30 R92). -/
theorem ReadsAs.decode_eq {r : OpRow} {w0 : Word} {rest : List Word} {i : Instr} (h : ReadsAs r (w0 :: rest) i)
    (hr : opRow (opField w0) = some r) : decode (w0 :: rest) = .ok i := by
  obtain ⟨hlen, hz0, hz1, hbuild⟩ := h
  rw [decode_of_row hr, if_neg (Nat.not_lt.2 hlen : ¬rest.length + 1 < r.len), if_pos ⟨hz0, hz1⟩]
  exact congrArg _ hbuild

/-! ### Decoding the encoding -/

/-- The encoding of every command has the command's length and starts with its opcode (30 R91, R96, R99). -/
theorem encode_len_opcode : ∀ i : Instr, Laws.EncodeLen.Statement i
  | .start .. => Laws.EncodeLen.start ..
  | .stop => Laws.EncodeLen.stop
  | .setsrc .. => Laws.EncodeLen.setsrc ..
  | .waitf .. => Laws.EncodeLen.waitf ..
  | .getframe => Laws.EncodeLen.getframe
  | .acquire .. => Laws.EncodeLen.acquire ..
  | .resetpool => Laws.EncodeLen.resetpool
  | .setfirstfree .. => Laws.EncodeLen.setfirstfree ..
  | .settile .. => Laws.EncodeLen.settile ..
  | .gettile .. => Laws.EncodeLen.gettile ..
  | .setcolor .. => Laws.EncodeLen.setcolor ..
  | .getcolor .. => Laws.EncodeLen.getcolor ..
  | .fillcolor .. => Laws.EncodeLen.fillcolor ..
  | .fillscr .. => Laws.EncodeLen.fillscr ..
  | .setpixel .. => Laws.EncodeLen.setpixel ..
  | .drawbmp .. => Laws.EncodeLen.drawbmp ..
  | .drawbmp8 .. => Laws.EncodeLen.drawbmp8 ..
  | .cleargraph .. => Laws.EncodeLen.cleargraph ..
  | .copyfont .. => Laws.EncodeLen.copyfont ..

/-- In the row of its opcode the words of a command read as the command, whatever words follow: the must-be-zero bytes are
written as 0, and every operand is read where it was written (30 R93, R96). -/
theorem encode_readsAs (i : Instr) (rest : List Word) : ∃ r, opRow i.opcode = some r ∧ ReadsAs r (encode i ++ rest) i := by
  cases i
  all_goals
    refine ⟨_, rfl, ?len, ?zero0, ?zero1, ?build⟩
    case len => simp [encode]
    case zero0 => simp [encode, and_eq_iff, opField_byteWord]
    case zero1 => simp [encode, and_eq_iff, opField_byteWord]
    case build => simp [encode]

/-- Settles O5: the words of a command start with its opcode, and in the row of that opcode they read as the command. -/
theorem decodeOfEncodeIsTheCommand : Obligations.DecodeOfEncodeIsTheCommand := by
  intro i rest
  obtain ⟨r, hr, hreads⟩ := encode_readsAs i rest
  obtain ⟨hlen, hop⟩ := encode_len_opcode i
  obtain ⟨w0, tail, hwords⟩ := List.exists_cons_of_length_pos (hlen ▸ len_pos i)
  rw [hwords] at hop hreads ⊢
  exact hreads.decode_eq (hop ▸ hr)

/-- Settles O7: each list of words is the encoding of its command. -/
theorem writtenOutWordsDecode : Obligations.WrittenOutWordsDecode :=
  have decode_encode i : decode (encode i ++ []) = .ok i := decodeOfEncodeIsTheCommand i []
  ⟨decode_encode (.start false 0x08004000), decode_encode (.waitf 600), decode_encode (.acquire 27 29),
    decode_encode (.settile 3 2 65), decode_encode (.fillcolor 26 29 3 2 0x4F), decode_encode (.setpixel 223 239 false),
    decode_encode (.drawbmp 100 50 24 21 0x08001234 3 true true 0x1F), decode_encode (.copyfont 65 0x2000 3)⟩

/-! ### Encoding the decoded command -/

/-- Where a row's checks pass, its command encodes to the words it was built from: every byte of them is the opcode, an operand
or 0 (30 R93, R96). -/
theorem encode_build {r : OpRow} (h : r ∈ opcodeMap) {w0 w1 : Word} (w2 w3 : Word) (hop : opField w0 = r.op)
    (hz0 : w0 &&& r.zero0 = 0) (hz1 : w1 &&& r.zero1 = 0) :
    encode (r.build w0 w1 w2 w3) = [w0, w1, w2, w3].take r.len := by
  fin_cases h
  all_goals
    simp [and_eq_iff] at hop hz0 hz1
    simp [encode, word_eq_iff, hop, hz0, hz1, opField_byteWord, flagByte_bits, flagByte_bit16, halfWord_loHalf]

/-- The first words of a list, at most four, are the first of the four that the decoder reads. -/
theorem take_eq_take_getD {w0 : Word} {rest : List Word} {n : Nat} (h4 : n ≤ 4) (hn : n ≤ rest.length + 1) :
    (w0 :: rest).take n = [w0, rest.getD 0 0, rest.getD 1 0, rest.getD 2 0].take n := by
  obtain _ | ⟨w1, _ | ⟨w2, _ | ⟨w3, rest⟩⟩⟩ := rest
  all_goals
    simp only [List.length_nil, List.length_cons] at hn
    interval_cases n <;> rfl

/-- Settles O6: a decoded command was built by a row whose checks passed, and there it encodes to the words it was built from. -/
theorem encodeOfDecodeIsTheWords : Obligations.EncodeOfDecodeIsTheWords := by
  intro ws i h
  obtain ⟨w0, rest, r, rfl, hr, hlen, hz0, hz1, rfl⟩ := decode_ok h
  obtain ⟨hmem, hop⟩ := opRow_some hr
  rw [(build_row hmem ..).2, encode_build hmem _ _ hop.symm hz0 hz1, take_eq_take_getD (len_le_four r hmem) hlen]

/-! ### The order of the checks -/

/-- With the row's opcode, word 0 has the row's fixed pattern exactly where its must-be-zero bits are 0 (30 R96). -/
theorem and_mask_eq_pattern_iff {r : OpRow} (h : r ∈ opcodeMap) {w : Word} (hop : opField w = r.op) :
    w &&& byteWord 0xFF (aField r.zero0) (bField r.zero0) (cField r.zero0) = byteWord r.op 0 0 0 ↔ w &&& r.zero0 = 0 := by
  simp [and_eq_iff, opField_byteWord, opField_zero0 r h, hop]

/-- The must-be-zero bits of word 1 are the upper halfword of format R (30 R93, R96). -/
theorem and_zero1_eq_zero_iff {r : OpRow} (h : r ∈ opcodeMap) {w : Word} :
    w &&& r.zero1 = 0 ↔ (r.op = 0x24 → w.extractLsb' 16 16 = 0) := by
  change _ ↔ (_ → hiHalf w = 0)
  rw [hiHalf_eq_zero_iff, zero1_eq r h]
  split
  case isTrue h24 => simp [h24, and_eq_iff]
  case isFalse h24 => simpa using fun h => absurd h h24

/-- Settles O8: the rows of the decoder are those of the table, and it makes their checks in the order of 30 R92. -/
theorem decodeChecksInOrder : Obligations.DecodeChecksInOrder := by
  intro w0 rest
  rw [opcodeTable_eq]
  refine ⟨fun hno => decode_of_no_row (opRow_eq_none_iff.2 fun r hr => hno _ (List.mem_map_of_mem hr)), ?_⟩
  intro op len pat mask hmem hop
  obtain ⟨r, hr, hentry⟩ := List.mem_map.1 hmem
  cases hentry
  have hrow : opRow (opField w0) = some r := (congrArg opRow hop).symm.trans (opRow_of_mem hr)
  rw [decode_of_row hrow, and_mask_eq_pattern_iff hr hop.symm, ← and_zero1_eq_zero_iff hr]
  refine ⟨fun hshort => if_pos hshort, fun hlen => ?_⟩
  rw [if_neg hlen.not_gt]
  exact ⟨fun hpass => ⟨_, if_pos hpass, build_row hr ..⟩, fun hfail => if_neg hfail⟩

end Sys2Proof.Machine
end

section
/-! The held-reset state of the timers (40 R122, R123): while RUN = 0 only the sequencer moves, and its commands leave the timers
there. -/

namespace Sys2Proof.Machine

/-- With RUN = 0 the timers are held at zero and the line is blank (10 R50(c), R43). -/
theorem State.Inv.atZero {s : State} (hs : s.Inv) (hr : s.run = false) : AtZero s := by
  obtain ⟨hhcnt, hvcnt, hirq, hvideo, hactive⟩ := hs.held hr
  exact ⟨hhcnt, hvcnt, hirq, hvideo, hs.line.2.1 hactive, hactive⟩

theorem AtZero.of_sameTimers {s t : State} (hs : AtZero s) (same : SameTimers s t) : AtZero t where
  hcnt := same.hcnt.trans hs.hcnt
  vcnt := same.vcnt.trans hs.vcnt
  irqPend := same.irqPend.trans hs.irqPend
  videoActive := same.videoActive.trans hs.videoActive
  linebuf := same.linebuf.trans hs.linebuf
  lineActive := same.lineActive.trans hs.lineActive

/-- No command moves the timers away from zero: START and STOP put them there, and the others leave them (40 R130, R134). -/
theorem exec_atZero {i : Instr} {s t : State} (hs : AtZero s) (h : exec i s = .next t) : AtZero t := by
  obtain same | ⟨hzero, -⟩ | ⟨hzero, -⟩ := exec_timers h
  · exact hs.of_sameTimers same
  · exact hzero
  · exact hzero

theorem cmdStep_atZero {s t : State} (hs : AtZero s) (h : cmdStep s = .next t) : AtZero t := by
  obtain ⟨c, -, hexec⟩ | ⟨-, i, -, hexec⟩ | ⟨-, e, -, rfl⟩ := cmdStep_cases h
  · exact exec_atZero hs hexec
  · exact exec_atZero hs hexec
  · exact ⟨hs.hcnt, hs.vcnt, hs.irqPend, hs.videoActive, hs.linebuf, hs.lineActive⟩

/-- With the timers held, neither REN nor TMR can move, so that the step is one of CMD (40 R123, 60 R271). -/
theorem step_cmdStep_of_held {s t : State} (hr : s.run = false) (hi : s.irqPend = false) (h : step s = .next t) :
    cmdStep s = .next t := by
  obtain ⟨hi', -⟩ | ⟨-, hr', -⟩ | ⟨-, -, ⟨-, hcmd⟩ | ⟨hr', -⟩⟩ := step_cases h
  · simp [hi] at hi'
  · simp [hr] at hr'
  · exact hcmd
  · simp [hr] at hr'

/-- Settles O13: the step is one of CMD, whose commands leave the timers at zero and FRAME and OUT as they are. -/
theorem heldTimersStayHeld : Obligations.HeldTimersStayHeld := by
  intro s s' hs hr h
  have zero := hs.atZero hr
  have hcmd := step_cmdStep_of_held hr zero.irqPend h
  have zero' := cmdStep_atZero zero hcmd
  obtain ⟨hframe, hout⟩ := cmdStep_sameOutputs hcmd
  exact ⟨zero'.hcnt, zero'.vcnt, zero'.irqPend, hout, hframe⟩

end Sys2Proof.Machine
end

section
/-! The tick (40 R124), and the ticks of one line (40 R125, R126). -/

namespace Sys2Proof.Machine

theorem lineEnds_iff {s : State} : lineEnds s = true ↔ s.hcnt = s.cfg.hTotal - 1 := decide_eq_true_iff

theorem nextHcnt_eq (s : State) : nextHcnt s = if s.hcnt = s.cfg.hTotal - 1 then 0 else s.hcnt + 1 := by
  simp only [nextHcnt, lineEnds_iff]

theorem nextVcnt_eq (s : State) : nextVcnt s =
    if s.hcnt = s.cfg.hTotal - 1 then (if s.vcnt = s.cfg.vTotal - 1 then 0 else s.vcnt + 1) else s.vcnt := by
  simp only [nextVcnt, lineEnds_iff]

/-- The tick where it is enabled, with no interrupt pending, so that IRQ_PEND is its comparison alone (40 R123, R124). -/
theorem tick_of_irqPend_false {s : State} (hi : s.irqPend = false) :
    tick s = { s with hcnt := nextHcnt s, vcnt := nextVcnt s, irqPend := decide (nextHcnt s = s.cfg.hIrqAt) } := by
  simp only [tick, hi, Bool.false_or]

/-- Settles O17: the counters after a tick are written out, and they stay below their totals. -/
theorem tickMovesTheCounters : Obligations.TickMovesTheCounters := by
  intro s hh hv hi
  rw [← nextHcnt_eq, ← nextVcnt_eq]
  exact ⟨tick_of_irqPend_false hi, nextHcnt_lt hh, nextVcnt_lt hv⟩

/-! ### The counters after some ticks -/

/-- A counter that goes from its last value to 0 counts modulo its total. -/
theorem wrap_eq_mod {c total : Nat} (h : c < total) : (if c = total - 1 then 0 else c + 1) = (c + 1) % total := by
  split
  case isTrue hlast => rw [hlast, Nat.sub_add_cancel (Nat.one_le_of_lt h), Nat.mod_self]
  case isFalse hinner => exact (Nat.mod_eq_of_lt (by omega)).symm

/-- The last tick of a line is the one after which a multiple of H_TOTAL ticks has passed. -/
theorem mod_eq_sub_one_iff {n total : Nat} (h : 0 < total) : n % total = total - 1 ↔ total ∣ n + 1 := by
  obtain ⟨last, rfl⟩ := Nat.exists_eq_add_one.2 h
  rw [Nat.dvd_iff_mod_eq_zero, Nat.succ_mod_succ_eq_zero_iff, Nat.add_sub_cancel]

/-- Counted from the start of the line, HCNT is the number of ticks modulo H_TOTAL, and VCNT has moved on once for each whole
line, modulo V_TOTAL (40 R124, R126). -/
theorem tick_iterate_counters {s : State} (hh : s.hcnt < s.cfg.hTotal) (hv : s.vcnt < s.cfg.vTotal) (j : Nat) :
    (tick^[j] s).cfg = s.cfg ∧ (tick^[j] s).hcnt = (s.hcnt + j) % s.cfg.hTotal ∧
      (tick^[j] s).vcnt = (s.vcnt + (s.hcnt + j) / s.cfg.hTotal) % s.cfg.vTotal := by
  induction j with
  | zero => simp [Nat.mod_eq_of_lt, Nat.div_eq_of_lt, hh, hv]
  | succ j ih =>
    obtain ⟨hcfg, hhcnt, hvcnt⟩ := ih
    have hpos : 0 < s.cfg.hTotal := Nat.zero_lt_of_lt hh
    have hvpos : 0 < s.cfg.vTotal := Nat.zero_lt_of_lt hv
    rw [Function.iterate_succ_apply', tick_cfg, tick_hcnt, tick_vcnt, nextHcnt_eq, nextVcnt_eq, hcfg, hhcnt, hvcnt,
      wrap_eq_mod (Nat.mod_lt _ hpos), wrap_eq_mod (Nat.mod_lt _ hvpos), Nat.mod_add_mod, Nat.mod_add_mod, ← Nat.add_assoc,
      Nat.succ_div]
    simp only [mod_eq_sub_one_iff hpos, true_and]
    split <;> rfl

/-- Among `total` values in a row exactly one is `r` modulo `total`. -/
theorem exists_unique_add_mod_eq (a : Nat) {r total : Nat} (hr : r < total) :
    ∃ k < total, ∀ j < total, (a + j) % total = r ↔ j = k := by
  have ha : a % total < total := Nat.mod_lt a (Nat.zero_lt_of_lt hr)
  refine ⟨if a % total ≤ r then r - a % total else r + total - a % total, by split <;> omega, fun j hj => ?_⟩
  rw [Nat.add_mod_eq_ite, Nat.mod_eq_of_lt hj]
  split <;> split <;> omega

/-- From IRQ_PEND = 0 the tick raises the line interrupt exactly where it makes HCNT equal to H_IRQ_AT (40 R124). -/
theorem tick_raises_iff (s : State) :
    (tick { s with irqPend := false }).irqPend = true ↔ (tick s).hcnt = s.cfg.hIrqAt := by
  rw [tick_irqPend, Bool.false_or, decide_eq_true_iff]
  rfl

/-- Settles O18: HCNT counts the ticks modulo H_TOTAL, so that H_TOTAL of them bring it back, carry into VCNT once, and pass
H_IRQ_AT once. -/
theorem oneLineIsOneInterrupt : Obligations.OneLineIsOneInterrupt := by
  intro s hh hv hirq
  have counters := tick_iterate_counters hh hv
  obtain ⟨-, hline, hcarry⟩ := counters s.cfg.hTotal
  refine ⟨?_, ?_, ?_⟩
  · rw [hline, Nat.add_mod_right, Nat.mod_eq_of_lt hh]
  · rw [hcarry, Nat.add_div_right _ (Nat.zero_lt_of_lt hh), Nat.div_eq_of_lt hh]
  · obtain ⟨k, hk, hunique⟩ := exists_unique_add_mod_eq (s.hcnt + 1) hirq
    refine ⟨k, hk, fun j hj => ?_⟩
    have hits : (tick^[j + 1] s).hcnt = s.cfg.hIrqAt ↔ j = k := by
      rw [(counters (j + 1)).2.1, ← hunique j hj, Nat.add_right_comm, Nat.add_assoc]
    rw [tick_raises_iff, (counters j).1, ← Function.iterate_succ_apply' tick]
    exact ⟨hits, hits⟩

end Sys2Proof.Machine
end

section
/-! The lifecycle commands (40 R130 to R146): the words they are fetched as, and what their step does. -/

namespace Sys2Proof.Machine

/-- Word 0 of format S: the opcode, ALT in bit 16, and 0 in every other bit (30 R93). -/
theorem formatS_word (op : Byte) (alt : Bool) :
    (op ++ 0#7 ++ BitVec.ofBool alt ++ 0#16 : Word) = byteWord op (flagByte false alt) 0 0 := by
  have hflag : flagByte false alt = 0#7 ++ BitVec.ofBool alt := by cases alt <;> rfl
  rw [byteWord, hflag]
  ext k hk
  grind

/-- The bitmap source is unset where ALT = 0 names a null table (40 R131(a), R138). -/
theorem nullSource_iff {alt : Bool} {base : Word} : nullSource alt base = true ↔ alt = false ∧ base = 0 := by
  simp [nullSource]

/-- START with RUN = 0 retires alone where the source is unset (40 R131(a)); otherwise it selects the source and starts the timers
from zero (40 R130). -/
theorem exec_start_of_held (alt : Bool) (base : Word) {s : State} (hr : s.run = false) :
    exec (.start alt base) s = .next (retire (.start alt base)
      (if nullSource alt base then s
       else { holdTimers (selectSource alt base s) with scan := 0, phase := false, tickOwned := true, run := true })) := by
  simp only [exec, execStart, hr, Bool.false_eq_true, if_false]
  split <;> rfl

/-- Settles O30: the words are the encoding of START, and its two cases are those of `exec_start_of_held`. -/
theorem startTakesTheTimersOutOfReset : Obligations.StartTakesTheTimersOutOfReset := by
  refine ⟨fun alt base rest => ?_, fun alt base s hr => ?_⟩
  · rw [formatS_word]
    exact decodeOfEncodeIsTheCommand (.start alt base) rest
  · rw [exec_start_of_held alt base hr]
    refine ⟨fun halt hbase => ?_, fun hset => ?_⟩
    · rw [if_pos (nullSource_iff.2 ⟨halt, hbase⟩)]
      rfl
    · rw [if_neg (mt nullSource_iff.1 hset)]
      rfl

/-- Timers that are held at zero already are left as they are (40 R134). -/
theorem AtZero.holdTimers_eq {s : State} (hs : AtZero s) : holdTimers s = s := by
  cases s
  obtain ⟨rfl, rfl, rfl, rfl, rfl, rfl⟩ := hs
  rfl

theorem exec_stop (s : State) : exec .stop s = .next (retire .stop { holdTimers s with run := false }) := rfl

/-- Settles O32: STOP holds the timers, and with RUN = 0 they are held already. -/
theorem stopHoldsTheTimers : Obligations.StopHoldsTheTimers := by
  refine ⟨decodeOfEncodeIsTheCommand .stop, fun _ => rfl, fun s hs hr => ?_⟩
  rw [exec_stop, (hs.atZero hr).holdTimers_eq, ← hr]
  rfl

theorem exec_setsrc (alt : Bool) (base : Word) (s : State) :
    exec (.setsrc alt base) s =
      .next (retire (.setsrc alt base) (if nullSource alt base then s else selectSource alt base s)) := rfl

/-- Settles O33: the words are the encoding of SETSRC, which selects the source where it is not unset. -/
theorem setsrcSelectsTheSource : Obligations.SetsrcSelectsTheSource := by
  refine ⟨fun alt base rest => ?_, fun alt base s => ?_⟩
  · rw [formatS_word]
    exact decodeOfEncodeIsTheCommand (.setsrc alt base) rest
  · rw [exec_setsrc]
    refine ⟨fun halt hbase => ?_, fun hset => ?_⟩
    · rw [if_pos (nullSource_iff.2 ⟨halt, hbase⟩)]
      rfl
    · rw [if_neg (mt nullSource_iff.1 hset)]
      rfl

/-- A wait is over where FRAME has advanced by n, counted modulo 2^32 (40 R142). -/
theorem waitOver_iff {n : BitVec 16} {waitStart frame : Word} :
    waitOver n waitStart frame = true ↔ n.toNat ≤ (frame.toNat + 2 ^ 32 - waitStart.toNat) % 2 ^ 32 := by
  have hlt := waitStart.isLt
  rw [waitOver, decide_eq_true_iff, BitVec.toNat_sub, ← Nat.sub_add_comm hlt.le, Nat.add_comm (2 ^ 32)]

theorem exec_waitf_of_idle (n : BitVec 16) {s : State} (hc : s.cur = none) :
    exec (.waitf n) s = .next (hold (.waitf n) (.waiting s.frameCount) s) := by
  simp only [exec, execWaitf, hc]

theorem exec_waitf_of_waiting {n : BitVec 16} {ws : Word} {s : State} (hc : s.cur = some { instr := .waitf n, pos := .waiting ws }) :
    exec (.waitf n) s = if waitOver n ws s.frameCount then .next (retire (.waitf n) s) else .fault .waitStuck := by
  simp only [exec, execWaitf, hc]

/-- With a WAITF waiting, nothing pending and no fault, CMD has a step exactly where the wait is over (40 R142, 60 R272). -/
theorem cmdEnabled_of_waiting {n : BitVec 16} {ws : Word} {s : State} (hi : s.irqPend = false) (hf : s.cmdFault = false)
    (hc : s.cur = some { instr := .waitf n, pos := .waiting ws }) : cmdEnabled s = waitOver n ws s.frameCount := by
  simp [cmdEnabled, hi, hf, hc, inFlightReady]

/-- Settles O34: step 1 latches FRAME, and step 2 comes exactly where the wait is over. -/
theorem waitfWaitsForNFrames : Obligations.WaitfWaitsForNFrames := by
  refine ⟨fun n => decodeOfEncodeIsTheCommand (.waitf n), fun n s => ⟨fun hc => ?_, fun ws hc hi hf => ?_⟩⟩
  · exact exec_waitf_of_idle n hc
  · rw [cmdEnabled_of_waiting hi hf hc, exec_waitf_of_waiting hc, ← Nat.not_le, ← waitOver_iff, Bool.not_eq_true]
    refine ⟨fun hover => ⟨hover, ?_⟩, id⟩
    rw [if_pos hover]
    rfl

/-- Settles O35: the word is the encoding of GETFRAME, whose one step copies FRAME into RESULT. -/
theorem getframeReturnsFrame : Obligations.GetframeReturnsFrame :=
  ⟨decodeOfEncodeIsTheCommand .getframe, fun _ => rfl⟩

end Sys2Proof.Machine
end

section
/-! The line service (41 R160 to R169): its two cases as equations, what it writes, the blank line, and the samples of an active
line. -/

namespace Sys2Proof.Machine

theorem lineService_of_window {s : State} (h : s.cfg.vActStart ≤ s.vcnt ∧ s.vcnt < s.cfg.vActEnd) :
    lineService s = { activeLine s with irqPend := false } := by
  rw [lineService, if_pos (inWindow_iff.2 h)]

theorem lineService_of_blank {s : State} (h : ¬(s.cfg.vActStart ≤ s.vcnt ∧ s.vcnt < s.cfg.vActEnd)) :
    lineService s = { blankLine s with irqPend := false } := by
  rw [lineService, if_neg (mt inWindow_iff.1 h)]

/-- Settles O23: what `activeLine` and `blankLine` write is in the list. -/
theorem lineServiceWritesOnlyItsRegisters : Obligations.LineServiceWritesOnlyItsRegisters := by
  intro s
  by_cases h : s.cfg.vActStart ≤ s.vcnt ∧ s.vcnt < s.cfg.vActEnd
  · rw [lineService_of_window h]
    rfl
  · rw [lineService_of_blank h]
    rfl

/-- Settles O22: the service is `blankLine`, and it counts the frame exactly in line V_EOF. -/
theorem blankLineAndEndOfFrame : Obligations.BlankLineAndEndOfFrame := by
  intro s h
  rw [lineService_of_blank h]
  refine ⟨rfl, rfl, rfl, rfl, fun heof => ?_, fun heof => ?_⟩
  · simp [blankLine, atEof_iff.2 heof]
  · simp [blankLine, mt atEof_iff.1 heof]

/-! ### The samples of an active line -/

theorem rgbOf_foreground (a : Byte) : rgbOf (foreground a) = a.extractLsb' 4 3 := by
  ext i hi
  have hnibble : i < 4 := by omega
  simp [rgbOf, foreground, hnibble]

theorem rgbOf_background (a : Byte) : rgbOf (background a) = a.extractLsb' 0 3 :=
  BitVec.extractLsb'_extractLsb'_of_le (by decide)

/-- Bit 7 - p of the bitmap row chooses the nibble whose low three bits are the sample (41 R165). -/
theorem sampleOf_eq (a b : Byte) (p : Nat) :
    sampleOf a b p = if b.getLsbD (7 - p) then a.extractLsb' 4 3 else a.extractLsb' 0 3 := by
  rw [sampleOf, apply_ite rgbOf, rgbOf_foreground, rgbOf_background]
  rfl

/-- Entry p of block c, where the blocks in front of it are all of one width. -/
theorem getElem?_flatMap_range {α : Type} {f : Nat → List α} {width : Nat} (hf : ∀ c, (f c).length = width) {n c p : Nat}
    (hc : c < n) (hp : p < width) : ((List.range n).flatMap f)[width * c + p]? = (f c)[p]? := by
  induction n with
  | zero => omega
  | succ n ih =>
    have hlen : ((List.range n).flatMap f).length = width * n := by simp [List.length_flatMap, hf, Nat.mul_comm]
    rw [List.range_succ, List.flatMap_append, List.flatMap_singleton]
    rcases Nat.lt_succ_iff_lt_or_eq.1 hc with hlt | rfl
    · have hin : width * c + p < width * n :=
        calc width * c + p < width * (c + 1) := Nat.add_lt_add_left hp _
          _ ≤ width * n := Nat.mul_le_mul_left _ hlt
      rw [List.getElem?_append_left (hlen ▸ hin), ih hlt]
    · rw [List.getElem?_append_right (hlen ▸ Nat.le_add_right _ _), hlen, Nat.add_sub_cancel_left]

/-- Sample 8 * c + p of the line is sample p of tile column c (41 R165). -/
theorem lineSamples_getElem? (s : State) {c p : Nat} (hc : c < 28) (hp : p < 8) :
    (lineSamples s)[8 * c + p]? = some (sampleOf (s.memCP.read (tileRow s * Config.gridW + c))
      (glyphRow s (s.memTP.read (tileRow s * Config.gridW + c)) (subRow s)) p) := by
  rw [lineSamples, getElem?_flatMap_range (columnSamples_length s) hc hp]
  simp [columnSamples, hp]

/-- Settles O21: the service is `activeLine`, whose samples are known column by column. -/
theorem activeLineShowsTheTileRow : Obligations.ActiveLineShowsTheTileRow := by
  intro s hstart hend
  rw [lineService_of_window ⟨hstart, hend⟩]
  refine ⟨rfl, rfl, rfl, ?_, lineSamples s, lineSamples_length s, rfl, rfl, rfl, fun c hc p hp => ?_⟩
  · exact (apply_ite BitVec.toNat _ _ _).trans (if_congr Iff.rfl (BitVec.toNat_add _ _) rfl)
  · rw [lineSamples_getElem? s hc hp, sampleOf_eq]
    rfl

end Sys2Proof.Machine
end

section
/-! SCAN and PHASE follow the beam (41 R166, R167, R172). What `State.BeamOk` says of the next line is a statement about a line
number, `InStep`; a tick leaves the next line, and a line service moves it on by one and SCAN and PHASE with it. -/

namespace Sys2Proof.Machine

/-! ### SCAN and PHASE of a line -/

/-- Line n lies after the end of frame and before the window of the next frame (41 R167). -/
def Cleared (c : Cfg) (n : Nat) : Prop :=
  c.vEof < n ∧ n < c.vActStart ∨ c.vActEnd ≤ c.vEof ∧ (c.vEof < n ∨ n < c.vActStart)

/-- SCAN and PHASE are those with which line n is to be served: on a line of the window its logical line and which of the two
physical lines it is, and 0 between the end of frame and the window (41 R166, R167). -/
def InStep (c : Cfg) (n : Nat) (scan : Byte) (phase : Bool) : Prop :=
  (c.vActStart ≤ n → n < c.vActEnd →
    scan.toNat = (n - c.vActStart) / 2 ∧ phase = decide ((n - c.vActStart) % 2 = 1)) ∧
  (Cleared c n → scan = 0 ∧ phase = false)

theorem beamOk_iff {s : State} : s.BeamOk ↔ (s.run = true → InStep s.cfg s.nextLine s.scan s.phase) := Iff.rfl

/-- SCAN = 0 and PHASE = 0 serve the first line of the window, and every line outside it. -/
theorem InStep.of_zero {c : Cfg} {n : Nat} (h : c.vActStart ≤ n → n < c.vActEnd → n = c.vActStart) : InStep c n 0 false :=
  ⟨fun hstart hend => by simp [h hstart hend], fun _ => ⟨rfl, rfl⟩⟩

/-- A line that is neither in the window nor between the end of frame and the window is served with any SCAN and PHASE. -/
theorem InStep.of_not {c : Cfg} {n : Nat} (hwindow : ¬(c.vActStart ≤ n ∧ n < c.vActEnd)) (hcleared : ¬Cleared c n) (scan : Byte)
    (phase : Bool) : InStep c n scan phase :=
  ⟨fun hstart hend => absurd ⟨hstart, hend⟩ hwindow, fun h => absurd h hcleared⟩

/-- One service moves SCAN and PHASE from physical line d of the window to physical line d + 1 (41 R166). -/
theorem scan_phase_advance {scan : Byte} {phase : Bool} {d : Nat} (hd : d < 480) (hscan : scan.toNat = d / 2)
    (hphase : phase = decide (d % 2 = 1)) :
    (if phase then scan + 1 else scan).toNat = (d + 1) / 2 ∧ (!phase) = decide ((d + 1) % 2 = 1) := by
  have hnext : (scan + 1).toNat = d / 2 + 1 := by
    rw [BitVec.toNat_add, hscan]
    exact Nat.mod_eq_of_lt (show d / 2 + 1 < 2 ^ 8 by omega)
  rcases Nat.mod_two_eq_zero_or_one d with heven | hodd
  · have hphase : phase = false := by simp [hphase, heven]
    simp only [hphase, Bool.false_eq_true, if_false, hscan, Bool.not_false, true_eq_decide_iff]
    omega
  · have hphase : phase = true := by simp [hphase, hodd]
    simp only [hphase, if_true, hnext, Bool.not_true, false_eq_decide_iff]
    omega

/-! ### The lines of a frame -/

/-- What 00 R8 says about the line interrupt and the lines of a frame. -/
structure FrameOk (c : Cfg) : Prop where
  hIrqAt : c.hIrqAt < c.hTotal
  window : c.vActStart ≤ c.vActEnd ∧ c.vActEnd ≤ c.vTotal
  eof : c.vEof < c.vTotal ∧ (c.vEof < c.vActStart ∨ c.vActEnd ≤ c.vEof)

theorem frameOk_of_ok {c : Cfg} (h : c.ok = true) : FrameOk c := by
  simp only [Cfg.ok, Bool.and_eq_true, Bool.or_eq_true, decide_eq_true_eq] at h
  exact ⟨by omega, by omega, by omega⟩

section
variable {c : Cfg} {v : Nat}

/-- The line after v is v + 1, or line 0 after the last line. -/
theorem next_line_cases (hv : v < c.vTotal) :
    v + 1 < c.vTotal ∧ (v + 1) % c.vTotal = v + 1 ∨ v + 1 = c.vTotal ∧ (v + 1) % c.vTotal = 0 := by
  rcases Nat.lt_or_eq_of_le hv with hinner | hlast
  · exact .inl ⟨hinner, Nat.mod_eq_of_lt hinner⟩
  · exact .inr ⟨hlast, hlast ▸ Nat.mod_self _⟩

/-- After a line of the window comes line v + 1 or a line outside the window, and the end of frame is still to come: the window
does not go round from the last line to line 0, since V_EOF lies outside it. -/
theorem next_line_of_window (ok : FrameOk c) (hv : v < c.vTotal) (h : c.vActStart ≤ v ∧ v < c.vActEnd) :
    (c.vActStart ≤ (v + 1) % c.vTotal → (v + 1) % c.vTotal < c.vActEnd → (v + 1) % c.vTotal = v + 1) ∧
      ¬Cleared c ((v + 1) % c.vTotal) := by
  obtain ⟨-, hwindow, heof⟩ := ok
  unfold Cleared
  rcases next_line_cases hv with ⟨-, hn⟩ | ⟨hlast, hn⟩ <;> rw [hn] <;> omega

/-- A line of the window after one outside it is the window's first, and a line that is in the window or between the end of
frame and the window comes, after one outside the window, only from line V_EOF or from between them. -/
theorem next_line_of_blank (ok : FrameOk c) (hv : v < c.vTotal) (h : ¬(c.vActStart ≤ v ∧ v < c.vActEnd)) :
    (c.vActStart ≤ (v + 1) % c.vTotal → (v + 1) % c.vTotal < c.vActEnd → (v + 1) % c.vTotal = c.vActStart) ∧
      (c.vActStart ≤ (v + 1) % c.vTotal ∧ (v + 1) % c.vTotal < c.vActEnd ∨ Cleared c ((v + 1) % c.vTotal) →
        v = c.vEof ∨ Cleared c v) := by
  obtain ⟨-, hwindow, heof⟩ := ok
  unfold Cleared
  rcases next_line_cases hv with ⟨-, hn⟩ | ⟨hlast, hn⟩ <;> rw [hn] <;> omega

/-- The service of a line of the window keeps SCAN and PHASE in step (41 R166). -/
theorem InStep.next_of_window {scan : Byte} {phase : Bool} (hs : InStep c v scan phase) (ok : FrameOk c) (hv : v < c.vTotal)
    (hlines : c.vActEnd = c.vActStart + 480) (h : c.vActStart ≤ v ∧ v < c.vActEnd) :
    InStep c ((v + 1) % c.vTotal) (if phase then scan + 1 else scan) (!phase) := by
  obtain ⟨hnext, hnotCleared⟩ := next_line_of_window ok hv h
  refine ⟨fun hstart hend => ?_, fun hcleared => absurd hcleared hnotCleared⟩
  obtain ⟨hscan, hphase⟩ := hs.1 h.1 h.2
  rw [hnext hstart hend, Nat.sub_add_comm h.1]
  exact scan_phase_advance (by omega) hscan hphase

/-- The service of a line outside the window keeps SCAN and PHASE in step: they are cleared in line V_EOF, are 0 from then to
the window, and before line V_EOF nothing is asked of them (41 R167). -/
theorem InStep.next_of_blank {scan : Byte} {phase : Bool} (hs : InStep c v scan phase) (ok : FrameOk c) (hv : v < c.vTotal)
    (h : ¬(c.vActStart ≤ v ∧ v < c.vActEnd)) :
    InStep c ((v + 1) % c.vTotal) (if atEof c v then 0 else scan) (if atEof c v then false else phase) := by
  obtain ⟨hfirst, hfrom⟩ := next_line_of_blank ok hv h
  by_cases heof : atEof c v = true
  · rw [if_pos heof, if_pos heof]
    exact .of_zero hfirst
  · rw [if_neg heof, if_neg heof]
    by_cases hcleared : Cleared c v
    · obtain ⟨rfl, rfl⟩ := hs.2 hcleared
      exact .of_zero hfirst
    · have hnone := mt hfrom (not_or.2 ⟨mt atEof_iff.2 heof, hcleared⟩)
      exact .of_not (fun hwindow => hnone (.inl hwindow)) (fun hnext => hnone (.inr hnext)) scan phase

end

/-! ### The next line -/

theorem nextLine_of_irqPend {s : State} (hv : s.vcnt < s.cfg.vTotal) (hi : s.irqPend = true) : s.nextLine = s.vcnt := by
  rw [State.nextLine, if_pos (.inr hi), Nat.mod_eq_of_lt hv]

/-- After the service of line VCNT the next line is the one after it: the tick of its interrupt has come (40 R125). -/
theorem nextLine_lineService {s : State} (hat : s.hcnt = s.cfg.hIrqAt) :
    (lineService s).nextLine = (s.vcnt + 1) % s.cfg.vTotal := by
  simp [State.nextLine, hat]

/-- A tick leaves the next line: it raises the interrupt where it reaches H_IRQ_AT, and VCNT moves on where the line's interrupt
has gone by (40 R124, R125). -/
theorem nextLine_tick {s : State} (hv : s.vcnt < s.cfg.vTotal) (hirq : s.cfg.hIrqAt < s.cfg.hTotal) (hi : s.irqPend = false) :
    (tick s).nextLine = s.nextLine := by
  simp only [State.nextLine, tick_hcnt, tick_vcnt, tick_cfg, tick_irqPend, hi, Bool.false_or, decide_eq_true_eq,
    Bool.false_eq_true, or_false, ← Nat.le_iff_lt_or_eq, nextHcnt_eq, nextVcnt_eq]
  by_cases hend : s.hcnt = s.cfg.hTotal - 1
  · have hgone : ¬s.hcnt < s.cfg.hIrqAt := by omega
    rw [if_pos hend, if_pos hend, if_pos (Nat.zero_le _), if_neg hgone, wrap_eq_mod hv, Nat.mod_mod]
  · simp only [if_neg hend, Nat.succ_le_iff]

/-- With the timers at zero the next line is line 0, or line 1 where H_IRQ_AT = 0 gives line 0 no interrupt (40 R125). -/
theorem AtZero.nextLine_eq {s : State} (h : AtZero s) :
    s.nextLine = if 0 < s.cfg.hIrqAt then 0 else 1 % s.cfg.vTotal := by
  simp only [State.nextLine, h.hcnt, h.vcnt, h.irqPend, Bool.false_eq_true, or_false, Nat.zero_add]
  split <;> simp

/-! ### Every agent's step -/

theorem tick_beamOk {s : State} (hs : s.Inv) (hbeam : s.BeamOk) (hi : s.irqPend = false) : (tick s).BeamOk := by
  rw [beamOk_iff, nextLine_tick hs.counters.2 (frameOk_of_ok hs.cfgOk).hIrqAt hi]
  exact hbeam

theorem lineService_beamOk {s : State} (hs : s.Inv) (hlines : s.cfg.vActEnd = s.cfg.vActStart + 480) (hbeam : s.BeamOk)
    (hi : s.irqPend = true) : (lineService s).BeamOk := by
  refine beamOk_iff.2 fun _ => ?_
  have ok := frameOk_of_ok hs.cfgOk
  have hv := hs.counters.2
  have hstep : InStep s.cfg s.vcnt s.scan s.phase :=
    nextLine_of_irqPend hv hi ▸ beamOk_iff.1 hbeam (hs.timersOk.run_of_irqPend hi)
  rw [nextLine_lineService (hs.pendingAt hi), lineService_cfg]
  by_cases h : s.cfg.vActStart ≤ s.vcnt ∧ s.vcnt < s.cfg.vActEnd
  · rw [lineService_of_window h]
    exact hstep.next_of_window ok hv hlines h
  · rw [lineService_of_blank h]
    exact hstep.next_of_blank ok hv h

theorem SameTimers.beamOk {s t : State} (same : SameTimers s t) (hcfg : t.cfg = s.cfg) (hbeam : s.BeamOk) : t.BeamOk := by
  rw [beamOk_iff, State.nextLine, same.run, same.hcnt, same.vcnt, same.irqPend, same.scan, same.phase, hcfg]
  exact hbeam

/-- START puts the timers at zero with SCAN and PHASE cleared, so that the next line is not past the window's first (40 R130). -/
theorem AtZero.beamOk {t : State} (h : AtZero t) (hline0 : 0 < t.cfg.hIrqAt ∨ 0 < t.cfg.vActStart) (hscan : t.scan = 0)
    (hphase : t.phase = false) : t.BeamOk := by
  rw [beamOk_iff, hscan, hphase, h.nextLine_eq]
  refine fun _ => .of_zero ?_
  split
  · omega
  · have hle : 1 % t.cfg.vTotal ≤ 1 := Nat.mod_le _ _
    omega

theorem exec_beamOk {i : Instr} {s t : State} (hline0 : 0 < s.cfg.hIrqAt ∨ 0 < s.cfg.vActStart) (hbeam : s.BeamOk)
    (h : exec i s = .next t) : t.BeamOk := by
  have hcfg := (exec_sameOutside h).cfg
  obtain same | ⟨-, hstopped⟩ | ⟨hzero, -, -, hscan, hphase⟩ := exec_timers h
  · exact same.beamOk hcfg hbeam
  · exact fun hr => absurd hr (by simp [hstopped])
  · exact hzero.beamOk (hcfg ▸ hline0) hscan hphase

theorem cmdStep_beamOk {s t : State} (hline0 : 0 < s.cfg.hIrqAt ∨ 0 < s.cfg.vActStart) (hbeam : s.BeamOk)
    (h : cmdStep s = .next t) : t.BeamOk := by
  obtain ⟨c, -, hexec⟩ | ⟨-, i, -, hexec⟩ | ⟨-, e, -, rfl⟩ := cmdStep_cases h
  · exact exec_beamOk hline0 hbeam hexec
  · exact exec_beamOk hline0 hbeam hexec
  · exact hbeam

/-- Settles O26: a tick leaves the next line, a line service moves SCAN and PHASE on with it, and a command leaves the timers,
stops them, or starts them at zero. -/
theorem everyStepKeepsTheBeam : Obligations.EveryStepKeepsTheBeam := by
  intro s s' hs hlines hline0 hbeam h
  have hbeam' : (popTurn s).BeamOk := hbeam
  obtain ⟨hi, rfl⟩ | ⟨hi, -, ⟨-, rfl⟩ | ⟨-, -, rfl⟩⟩ | ⟨-, -, ⟨-, hcmd⟩ | ⟨-, -, hcmd⟩⟩ := step_cases h
  · exact lineService_beamOk hs hlines hbeam hi
  · exact tick_beamOk hs hbeam hi
  · exact tick_beamOk (popTurn_inv hs) hbeam' hi
  · exact cmdStep_beamOk hline0 hbeam hcmd
  · exact cmdStep_beamOk (s := popTurn s) hline0 hbeam' hcmd

/-! ### The line that is shown -/

/-- While an interrupt is pending the step is the line service (60 R273). -/
theorem step_of_irqPend {s : State} (hi : s.irqPend = true) : step s = .next (lineService s) := by
  simp [step, nextStep, mover, hi]

/-- In step with the beam, SCAN is the logical line of the window line that is being served (41 R172). -/
theorem State.BeamOk.scan_eq {s : State} (hbeam : s.BeamOk) (hs : s.Inv) (hi : s.irqPend = true)
    (h : s.cfg.vActStart ≤ s.vcnt ∧ s.vcnt < s.cfg.vActEnd) : s.scan.toNat = (s.vcnt - s.cfg.vActStart) / 2 := by
  have hstep := beamOk_iff.1 hbeam (hs.timersOk.run_of_irqPend hi)
  rw [nextLine_of_irqPend hs.counters.2 hi] at hstep
  exact (hstep.1 h.1 h.2).1

/-- Settles O27: the event shows the row of SCAN, which is the logical line, below 240. -/
theorem physicalLineShowsItsLogicalLine : Obligations.PhysicalLineShowsItsLogicalLine := by
  intro s hs hbeam hlines hi hstart hend
  have hscan := hbeam.scan_eq hs hi ⟨hstart, hend⟩
  have hrow : (s.vcnt - s.cfg.vActStart) / 2 / 8 < Config.gridH := by rw [Config.gridH]; omega
  refine ⟨serviceEvent s, lineService s, step_of_irqPend hi, lineService_out s, ?_⟩
  rw [serviceEvent, if_pos (inWindow_iff.2 ⟨hstart, hend⟩), tileRow, subRow, hscan, Nat.mod_eq_of_lt hrow]
  exact ⟨rfl, rfl, rfl⟩

end Sys2Proof.Machine
end

section
/-! The allocator commands (42 R190 to R196). An uninterrupted ACQUIRE comes to its pseudocode `atomicAcquire`; what it returns, and
that consecutive allocations hand out consecutive slots, are facts about that. Where a step of an allocating command changes TP, it
is the step of access 2 of Acquire. -/

namespace Sys2Proof.Machine

/-! ### SETFIRSTFREE -/

/-- Word 0 of format K: the opcode, the operand in byte C, and 0 in every other bit (30 R93). -/
theorem formatK_word (op n : Byte) : (op ++ 0#16 ++ n : Word) = byteWord op 0 0 n := by
  rw [byteWord]
  ext k hk
  grind

theorem exec_setfirstfree (n : Byte) (s : State) :
    exec (.setfirstfree n) s =
      .next (retire (.setfirstfree n) (if n = 0 then s else { s with firstFree := n, nextFree := n })) := rfl

/-- Settles O41: the words are the encoding of SETFIRSTFREE, and n = 0 only retires. -/
theorem setfirstfreeWritesBothRegisters : Obligations.SetfirstfreeWritesBothRegisters := by
  refine ⟨fun n rest => ?_, fun n s => ?_⟩
  · rw [formatK_word]
    exact decodeOfEncodeIsTheCommand (.setfirstfree n) rest
  · rw [exec_setfirstfree]
    refine ⟨fun h0 => ?_, fun hn => ?_⟩
    · rw [if_pos h0]
      rfl
    · rw [if_neg hn]
      rfl

/-! ### RESETPOOL -/

theorem poolBytes_eq (s : State) : poolBytes s = (256 - s.firstFree.toNat) * 8 := by
  simp only [poolBytes, Config.ramfSize]
  omega

/-- The pool reset leaves FIRSTFREE, so that it zeroes the bytes from one address on (42 R194). -/
theorem loop_clearPool (n : Nat) (s : State) :
    loop n clearPool s = loop n (fun k u => writeRAMF (s.firstFree.toNat * 8 + k) 0 u) s := by
  induction n with
  | zero => rfl
  | succ n ih =>
    rw [loop_succ, loop_succ, ih, clearPool, loop_writeRAMF_frame n (s.firstFree.toNat * 8 + ·) (fun _ => 0)]

/-- RESETPOOL, started where no command is in flight, runs one access a byte to its pseudocode (42 R194, 60 R275). -/
theorem resetpool_runsIn {s : State} (hcur : s.cur = none) :
    RunsIn .resetpool (poolBytes s) s (retire .resetpool (rewindPool (loop (poolBytes s) clearPool s))) := by
  have hpos : max (poolBytes s) 1 = poolBytes s := by
    have hlt := s.firstFree.isLt
    rw [poolBytes_eq]
    omega
  have hrun := accessLoop_runsIn (i := .resetpool) (total := poolBytes s) (access := clearPool) (finish := rewindPool)
    (fun u => poolBytes u = poolBytes s) (fun u hu => by rw [← hu]; rfl) (fun _ _ hu => hu) (fun _ _ _ => rfl)
    (fun _ _ => rfl) rfl hcur
  rwa [hpos] at hrun

/-- Settles O40: the run is that of `resetpool_runsIn`, and its loop of writes zeroes the addresses it names and no other. -/
theorem resetpoolZeroesTheDynamicRange : Obligations.ResetpoolZeroesTheDynamicRange := by
  intro s hm hcur
  have hbytes : poolBytes s = 2048 - s.firstFree.toNat * 8 := rfl
  obtain ⟨-, hin, hout⟩ := loop_write_read (n := poolBytes s) (f := (s.firstFree.toNat * 8 + ·)) (g := fun _ => 0) hm.ramf
    (fun k hk => by simp only [Config.ramfSize]; omega) (fun _ _ _ _ _ => rfl)
  rw [← loop_writeRAMF_mem] at hin hout
  rw [← poolBytes_eq]
  refine ⟨_, resetpool_runsIn hcur, fun a hfrom hto => ?_, fun a ha => ?_, ?_⟩
  · rw [retire_memRAMF, rewindPool_memRAMF, loop_clearPool]
    have hk := hin (a - s.firstFree.toNat * 8) (by omega)
    rwa [Nat.add_sub_cancel' hfrom] at hk
  · rw [retire_memRAMF, rewindPool_memRAMF, loop_clearPool]
    exact hout a fun k hk => by omega
  · rw [loop_clearPool, loop_writeRAMF_frame _ (s.firstFree.toNat * 8 + ·) (fun _ => 0)]
    rfl

/-! ### ACQUIRE -/

section
variable {cx cy : Byte} {s : State}

/-- ACQUIRE on a cell that holds a tile retires with it in its one access (42 R190, R192). -/
theorem exec_acquire_of_tile (hcur : s.cur = none) (htile : s.memTP.read (cell cx.toNat cy.toNat) ≠ 0) :
    exec (.acquire cx cy) s =
      .next (retire (.acquire cx cy) (setResult ((s.memTP.read (cell cx.toNat cy.toNat)).setWidth 32) s)) := by
  simp only [exec, execAcquire, hcur, if_neg htile]

/-- ACQUIRE on a cell that holds 0 goes on to access 2 (42 R190, R192). -/
theorem exec_acquire_of_empty (hcur : s.cur = none) (hempty : s.memTP.read (cell cx.toNat cy.toNat) = 0) :
    exec (.acquire cx cy) s = .next (hold (.acquire cx cy) .acqWrite s) := by
  simp only [exec, execAcquire, hcur, if_pos hempty]

/-- Access 2 of ACQUIRE gives the cell the slot NEXTFREE and retires (42 R190, R192). -/
theorem exec_acquire_of_acqWrite (i : Instr) :
    exec (.acquire cx cy) (hold i .acqWrite s) =
      .next (retire (.acquire cx cy)
        (setResult (s.nextFree.setWidth 32) (takeSlot (acquireWrite (cell cx.toNat cy.toNat) s)))) := rfl

/-- Settles O36: the words are the encoding of ACQUIRE; a tile is returned in one step, and an empty cell is written in a second. -/
theorem acquireGivesTheCellASlot : Obligations.AcquireGivesTheCellASlot := by
  refine ⟨fun cx cy => decodeOfEncodeIsTheCommand (.acquire cx cy), fun cx cy s hm hcur => ⟨fun htile => ?_, fun hempty => ?_⟩⟩
  · exact exec_acquire_of_tile hcur htile
  · refine ⟨_, _, exec_acquire_of_empty hcur hempty, rfl, exec_acquire_of_acqWrite _, ?_, fun a ha => ?_, rfl⟩
    · exact read_write_same hm.tp _ _
    · exact read_write_other hm.tp _ ha.symm

/-! ### What an uninterrupted ACQUIRE leaves -/

theorem atomicAcquire_of_tile {c : Nat} (htile : s.memTP.read c ≠ 0) : atomicAcquire c s = (s, s.memTP.read c) := if_neg htile

theorem atomicAcquire_of_empty {c : Nat} (hempty : s.memTP.read c = 0) :
    atomicAcquire c s = (takeSlot (acquireWrite c s), s.nextFree) := if_pos hempty

/-- Acquire returns the tile that its cell holds afterwards (42 R190). -/
theorem atomicAcquire_read (hm : Memory.WF Config.cells s.memTP) (c : Nat) :
    (atomicAcquire c s).1.memTP.read c = (atomicAcquire c s).2 := by
  by_cases h0 : s.memTP.read c = 0
  · rw [atomicAcquire_of_empty h0]
    exact read_write_same hm _ _
  · rw [atomicAcquire_of_tile h0]

/-- Acquire never returns 0 (42 R191(a)). -/
theorem atomicAcquire_ne_zero (ha : AllocOk s) (c : Nat) : (atomicAcquire c s).2 ≠ 0 := by
  by_cases h0 : s.memTP.read c = 0
  · rw [atomicAcquire_of_empty h0]
    exact nextFree_ne_zero ha
  · rwa [atomicAcquire_of_tile h0]

/-- ACQUIRE, started where no command is in flight, runs to its pseudocode (42 R192). -/
theorem acquire_runsIn (cx cy : Byte) (hcur : s.cur = none) :
    ∃ n, RunsIn (.acquire cx cy) n s (atomicCommand (.acquire cx cy) s) := by
  simp only [atomicCommand]
  by_cases h0 : s.memTP.read (cell cx.toNat cy.toNat) = 0
  · rw [atomicAcquire_of_empty h0]
    exact ⟨2, RunsIn.step (exec_acquire_of_empty hcur h0) (.last (exec_acquire_of_acqWrite _) rfl)⟩
  · rw [atomicAcquire_of_tile h0]
    exact ⟨1, .last (exec_acquire_of_tile hcur h0) rfl⟩

/-- An uninterrupted ACQUIRE can only leave what its pseudocode leaves. -/
theorem RunsIn.acquire_eq {n : Nat} {t : State} (h : RunsIn (.acquire cx cy) n s t) (hcur : s.cur = none) :
    t = atomicCommand (.acquire cx cy) s :=
  (acquire_runsIn cx cy hcur).elim fun _ h' => (h.unique h').2

/-- RESULT after ACQUIRE is the cell's tile, and that is not 0 (42 R190, R191(a)). -/
theorem RunsIn.acquire_result {n : Nat} {t : State} (h : RunsIn (.acquire cx cy) n s t) (hs : s.Inv) (hcur : s.cur = none) :
    t.result = (t.memTP.read (cell cx.toNat cy.toNat)).setWidth 32 ∧ t.memTP.read (cell cx.toNat cy.toNat) ≠ 0 := by
  rw [h.acquire_eq hcur]
  have hread : (atomicCommand (.acquire cx cy) s).memTP.read (cell cx.toNat cy.toNat) = _ := atomicAcquire_read hs.mem.tp _
  rw [hread]
  exact ⟨rfl, atomicAcquire_ne_zero hs.alloc _⟩

end

/-- Settles O38: after ACQUIRE the cell holds a tile, and RESULT is that tile already. -/
theorem acquireIsIdempotent : Obligations.AcquireIsIdempotent := by
  intro cx cy cx' cy' s t n hs hcur hrun hx hy
  obtain ⟨hresult, htile⟩ := hrun.acquire_result hs hcur
  rw [← cell_congr hx hy] at hresult htile
  rw [exec_acquire_of_tile hrun.retired.1 htile, ← hresult]
  rfl

/-! ### Consecutive allocations -/

/-- The index of the cell with the coordinates `c` (20 R61). -/
def cellIndex (c : Byte × Byte) : Nat := cell c.1.toNat c.2.toNat

/-- ACQUIRE on the cells of a list, one after the other, leads from `s` to `t` and gives them NEXTFREE and the slots after it, in
order, and no other cell a slot; NEXTFREE moves on past them, from 255 to FIRSTFREE (42 R191(c)). -/
structure HandsOut (cells : List (Byte × Byte)) (s t : State) : Prop where
  runs : RunsAll (cells.map fun c => .acquire c.1 c.2) s t
  slots : ∀ k c, cells[k]? = some c → (t.memTP.read (cellIndex c)).toNat = s.nextFree.toNat + k
  others : ∀ a, a ∉ cells.map cellIndex → t.memTP.read a = s.memTP.read a
  nextFree : t.nextFree.toNat =
    if cells.length = 256 - s.nextFree.toNat then s.firstFree.toNat else s.nextFree.toNat + cells.length

theorem HandsOut.nil (s : State) : HandsOut [] s s where
  runs := .nil s
  slots k c h := by simp at h
  others _ _ := rfl
  nextFree := by
    have hlt := s.nextFree.isLt
    rw [if_neg (by rw [List.length_nil]; omega)]
    rfl

section
variable {c : Byte × Byte} {s : State}

/-- ACQUIRE on an empty cell gives it NEXTFREE and leaves the other cells (42 R190). -/
theorem acquire_read_of_empty (hm : Memory.WF Config.cells s.memTP) (hempty : s.memTP.read (cellIndex c) = 0) (a : Nat) :
    (atomicCommand (.acquire c.1 c.2) s).memTP.read a = if cellIndex c = a then s.nextFree else s.memTP.read a := by
  show (atomicAcquire (cellIndex c) s).1.memTP.read a = _
  rw [atomicAcquire_of_empty hempty]
  exact acquireWrite_read hm _ a

/-- ACQUIRE on an empty cell moves NEXTFREE on, from 255 to FIRSTFREE (42 R190). -/
theorem acquire_nextFree_of_empty (hempty : s.memTP.read (cellIndex c) = 0) :
    (atomicCommand (.acquire c.1 c.2) s).nextFree.toNat =
      if s.nextFree.toNat = 255 then s.firstFree.toNat else s.nextFree.toNat + 1 := by
  show (atomicAcquire (cellIndex c) s).1.nextFree.toNat = _
  rw [atomicAcquire_of_empty hempty, takeSlot_nextFree, acquireWrite_nextFree, acquireWrite_firstFree]
  by_cases h : s.nextFree.toNat = 255
  · rw [if_pos h, if_pos (BitVec.eq_of_toNat_eq h)]
  · have hlt := s.nextFree.isLt
    rw [if_neg h, if_neg fun h' => h (congrArg BitVec.toNat h'), BitVec.toNat_add]
    exact Nat.mod_eq_of_lt (show s.nextFree.toNat + 1 < 2 ^ 8 by omega)

theorem acquire_firstFree (c : Byte × Byte) (s : State) : (atomicCommand (.acquire c.1 c.2) s).firstFree = s.firstFree := by
  show (atomicAcquire (cellIndex c) s).1.firstFree = _
  unfold atomicAcquire
  split <;> rfl

/-- An allocation for a further cell comes before those for the list, where the slots up to 255 last for all of them. -/
theorem HandsOut.cons {cells : List (Byte × Byte)} {t : State} (hm : s.MemOk) (hcur : s.cur = none)
    (hempty : s.memTP.read (cellIndex c) = 0) (hnew : cellIndex c ∉ cells.map cellIndex)
    (hlen : (c :: cells).length ≤ 256 - s.nextFree.toNat)
    (h : HandsOut cells (atomicCommand (.acquire c.1 c.2) s) t) : HandsOut (c :: cells) s t := by
  obtain ⟨n, hrun⟩ := acquire_runsIn c.1 c.2 hcur
  obtain ⟨hruns, hslots, hothers, hnext⟩ := h
  have hread := acquire_read_of_empty hm.tp hempty
  have hnf := acquire_nextFree_of_empty hempty
  rw [acquire_firstFree] at hnext
  rw [List.length_cons] at hlen
  refine ⟨.cons hrun hruns, fun k d hk => ?_, fun a ha => ?_, ?_⟩
  · rcases k with _ | k
    · obtain rfl : c = d := by simpa using hk
      rw [hothers _ hnew, hread, if_pos rfl, Nat.add_zero]
    · rw [List.getElem?_cons_succ] at hk
      have hpos := List.length_pos_of_mem (List.mem_of_getElem? hk)
      rw [hslots k d hk, hnf, if_neg (by omega)]
      omega
  · rw [List.map_cons, List.mem_cons, not_or] at ha
    rw [hothers a ha.2, hread, if_neg (Ne.symm ha.1)]
  · have hlt := s.nextFree.isLt
    rw [hnext, hnf, List.length_cons]
    split_ifs <;> omega

end

/-- ACQUIRE hands out the slots from NEXTFREE on to different empty cells, as far as the slots up to 255 last (42 R191(c)). -/
theorem exists_handsOut (cells : List (Byte × Byte)) {s : State} (hm : s.MemOk) (hcur : s.cur = none)
    (hnodup : (cells.map cellIndex).Nodup) (hempty : ∀ c ∈ cells, s.memTP.read (cellIndex c) = 0)
    (hlen : cells.length ≤ 256 - s.nextFree.toNat) : ∃ t, HandsOut cells s t := by
  induction cells generalizing s with
  | nil => exact ⟨s, .nil s⟩
  | cons c cells ih =>
    obtain ⟨hnew, hnodup⟩ := List.nodup_cons.1 hnodup
    have hc := hempty c List.mem_cons_self
    obtain ⟨n, hrun⟩ := acquire_runsIn c.1 c.2 hcur
    have hm' := hrun.keeps State.MemOk (fun _ _ => exec_MemOk) hm
    have hempty' : ∀ d ∈ cells, (atomicCommand (.acquire c.1 c.2) s).memTP.read (cellIndex d) = 0 := fun d hd => by
      have hne : cellIndex c ≠ cellIndex d := fun he => hnew (he ▸ List.mem_map_of_mem hd)
      rw [acquire_read_of_empty hm.tp hc, if_neg hne]
      exact hempty d (List.mem_cons_of_mem c hd)
    have hlen' : cells.length ≤ 256 - (atomicCommand (.acquire c.1 c.2) s).nextFree.toNat := by
      have hlt := s.firstFree.isLt
      rw [List.length_cons] at hlen
      rw [acquire_nextFree_of_empty hc]
      split <;> omega
    obtain ⟨t, ht⟩ := ih hm' hrun.retired.1 hnodup hempty' hlen'
    exact ⟨t, .cons hm hcur hc hnew hlen ht⟩

/-- Settles O39: the slots that `exists_handsOut` hands out, from NEXTFREE = FIRSTFREE on. -/
theorem acquireHandsOutEachSlotOnce : Obligations.AcquireHandsOutEachSlotOnce := by
  intro cells s hm hcur hff _ hnodup hempty hlen
  obtain ⟨t, hruns, hslots, -, hnext⟩ := exists_handsOut cells hm hcur hnodup hempty (hff ▸ hlen)
  rw [hff] at hslots hnext
  exact ⟨t, hruns, hslots, hnext⟩

/-! ### What a step of an allocating command does to TP -/

/-- From `s` to `t` TP stays, or a cell that held 0 takes NEXTFREE: access 2 of Acquire (42 R190, R191(a)). -/
def AllocatesAtMost (s t : State) : Prop :=
  t.memTP = s.memTP ∨ ∃ c, s.memTP.read c = 0 ∧ t.memTP = s.memTP.write c s.nextFree

/-- The cell that changes held 0 and now holds NEXTFREE. -/
theorem AllocatesAtMost.of_changed {s t : State} (h : AllocatesAtMost s t) (hm : Memory.WF Config.cells s.memTP) {a : Nat}
    (ha : t.memTP.read a ≠ s.memTP.read a) : s.memTP.read a = 0 ∧ t.memTP.read a = s.nextFree := by
  obtain htp | ⟨c, hempty, htp⟩ := h
  · exact absurd (by rw [htp]) ha
  · rw [htp, read_write hm] at ha ⊢
    by_cases hca : c = a
    · rw [if_pos hca, ← hca]
      exact ⟨hempty, rfl⟩
    · exact absurd (if_neg hca) ha

section
variable (i : Instr) (d : Sprite) (k q : Nat) (tiles : Tiles) (s : State)

@[simp] theorem goOn_memTP (next : Option Pos) : (goOn i next s).memTP = s.memTP := by cases next <;> rfl

@[simp] theorem paintFrom_memTP : (paintFrom i d k s).memTP = s.memTP := by
  unfold paintFrom
  split <;> rfl

@[simp] theorem rowsFrom_memTP : (rowsFrom i d q tiles s).memTP = s.memTP := by
  unfold rowsFrom
  split
  · rfl
  · exact paintFrom_memTP i d 0 s

@[simp] theorem cellsFrom_memTP : (cellsFrom i d q tiles s).memTP = s.memTP := by
  unfold cellsFrom
  split
  · split <;> rfl
  · exact rowsFrom_memTP i d 0 tiles s

@[simp] theorem drawPixelStep_memTP (p : PixPos) :
    (drawPixelStep i d q p s).memTP = (setPixelStep (d.x + q % d.w) (d.y + q / d.w) d.on p s).1.memTP := rfl

end

/-- An access of SetPixel writes TP only where it gives an empty cell its slot (44 R230). -/
theorem setPixelStep_allocates {x y : Nat} {p : PixPos} {s : State} (hp : p.Ok x y s) (on : Bool) :
    AllocatesAtMost s (setPixelStep x y on p s).1 := by
  cases p with
  | acquire =>
    rw [setPixelStep]
    split <;> exact .inl rfl
  | tpWrite => exact .inr ⟨pixelCell x y, hp, rfl⟩
  | rmwRead t fresh => exact .inl (settle_memTP fresh s)
  | rmwWrite t b => exact .inl rfl

/-- DRAWBMP from a pixel number on begins with a read or with Paint, and neither writes TP (44 R236). -/
@[simp] theorem drawFrom_memTP (i : Instr) (d : Sprite) (q : Nat) (s : State) : (drawFrom i d q s).memTP = s.memTP := by
  unfold drawFrom
  split
  · rw [drawPixelStep_memTP, setPixelStep]
    split <;> rfl
  · exact paintFrom_memTP i d 0 s

/-- A step of an allocating command writes TP only where it gives an empty cell its slot (42 R191(a)). -/
theorem exec_allocates {i : Instr} {s t : State} (hi : allocates i = true)
    (hpos : ∀ c, s.cur = some c → c.instr = i ∧ c.PosOk s) (h : exec i s = .next t) : AllocatesAtMost s t := by
  cases i <;> cases hi <;> simp only [exec] at h
  case acquire cx cy =>
    unfold execAcquire at h
    split at h <;> cases h
    · rename_i hcur
      obtain ⟨rfl, hempty⟩ := hpos _ hcur
      exact .inr ⟨cell cx.toNat cy.toNat, hempty, rfl⟩
    · split <;> exact .inl rfl
  case setpixel x y on =>
    cases h
    unfold AllocatesAtMost
    rw [goOn_memTP]
    refine setPixelStep_allocates ?_ on
    unfold pixelPos
    split
    · rename_i hcur
      obtain ⟨rfl, -, -, hok⟩ := hpos _ hcur
      exact hok
    · trivial
  case drawbmp x y w h' base frame on paint color =>
    cases h
    split
    · exact .inl rfl
    · unfold drawStep
      split
      · rename_i hcur
        obtain ⟨rfl, -, -, -, -, hok⟩ := hpos _ hcur
        exact setPixelStep_allocates hok on
      · exact .inl (drawFrom_memTP _ _ _ _)
      · exact .inl (paintFrom_memTP _ _ _ _)
      · exact .inl (drawFrom_memTP _ _ _ _)
  case drawbmp8 x y w h' base frame on paint color =>
    cases h
    split
    · exact .inl rfl
    · unfold draw8Step
      split
      · exact .inl (by rw [cellsFrom_memTP, settle_memTP])
      · rename_i hcur
        obtain ⟨rfl, -, -, -, -, hempty⟩ := hpos _ hcur
        exact .inr ⟨_, hempty, rfl⟩
      · exact .inl (rowsFrom_memTP _ _ _ _ _)
      · exact .inl rfl
      · exact .inl (paintFrom_memTP _ _ _ _)
      · exact .inl (cellsFrom_memTP _ _ _ _ _)

/-- Settles O37: a change of TP is an allocation of NEXTFREE, which is not 0, and ACQUIRE returns what its cell holds. -/
theorem allocatingNeverStoresTileZero : Obligations.AllocatingNeverStoresTileZero := by
  refine ⟨fun i s s' a hs hi hcur h ha => ?_, fun cx cy s t n hs hcur hrun => ?_⟩
  · have hpos : ∀ c, s.cur = some c → c.instr = i ∧ c.PosOk s := by
      rintro c hc
      refine ⟨?_, (hs.inFlight c hc).2⟩
      obtain hnone | ⟨p, hp⟩ := hcur
      · cases hnone.symm.trans hc
      · cases hp.symm.trans hc
        rfl
    obtain ⟨hempty, hslot⟩ := (exec_allocates hi hpos h).of_changed hs.mem.tp ha
    exact ⟨hempty, hslot, nextFree_ne_zero hs.alloc⟩
  · obtain ⟨hresult, htile⟩ := hrun.acquire_result hs hcur
    refine ⟨?_, hresult⟩
    rw [hresult]
    exact fun h0 => htile (by simpa using congrArg (BitVec.setWidth 8) h0)

end Sys2Proof.Machine
end

section
/-! The framebuffer access commands (43 R210 to R220): the cell stores and the cell queries as equations, FILLCOLOR as a loop of
writes over its rectangle of cells, and FILLSCR as a loop over TP and then one over CP. -/

namespace Sys2Proof.Machine

/-! ### SETTILE, SETCOLOR, GETTILE, GETCOLOR -/

theorem exec_settile (cx cy val : Byte) (s : State) :
    exec (.settile cx cy val) s = .next (retire (.settile cx cy val) (writeTP (cell cx.toNat cy.toNat) val s)) := rfl

theorem exec_setcolor (cx cy val : Byte) (s : State) :
    exec (.setcolor cx cy val) s = .next (retire (.setcolor cx cy val) (writeCP (cell cx.toNat cy.toNat) val s)) := rfl

/-- Settles O42: the words are the encodings, and each store is one write to the cell. -/
theorem cellStoresWriteOneByte : Obligations.CellStoresWriteOneByte := by
  refine ⟨fun cx cy val rest => ⟨?_, ?_⟩, fun cx cy val s hm => ⟨?_, ?_⟩⟩
  · exact decodeOfEncodeIsTheCommand (.settile cx cy val) rest
  · exact decodeOfEncodeIsTheCommand (.setcolor cx cy val) rest
  · exact ⟨_, exec_settile cx cy val s, read_write_same hm.tp _ _, fun a ha => read_write_other hm.tp _ ha.symm, rfl⟩
  · exact ⟨_, exec_setcolor cx cy val s, read_write_same hm.cpl _ _, fun a ha => read_write_other hm.cpl _ ha.symm, rfl⟩

/-- Settles O43: the words are the encodings, and each query is one read of the cell into RESULT. -/
theorem queriesReturnTheCell : Obligations.QueriesReturnTheCell :=
  ⟨fun cx cy rest =>
      ⟨decodeOfEncodeIsTheCommand (.gettile cx cy) rest, decodeOfEncodeIsTheCommand (.getcolor cx cy) rest⟩,
    fun _ _ _ => ⟨rfl, rfl⟩⟩

/-! ### Commands of a fixed number of accesses -/

/-- A command without an access retires in its first step (60 R275). -/
theorem accessLoop_zero (i : Instr) (access : Nat → State → State) (finish : State → State) (s : State) :
    accessLoop i 0 access finish s = retire i (finish s) := by
  rw [accessLoop, if_neg (Nat.not_lt_zero _)]

/-- A command of at least one access, each of which leaves CUR alone and does not look at it, runs one step an access
(60 R275). -/
theorem accessLoop_runsIn_of_pos {i : Instr} {total : Nat} {access : Nat → State → State} (hpos : 0 < total)
    (hexec : ∀ u, exec i u = .next (accessLoop i total access id u))
    (ha : ∀ k p u, access k (hold i p u) = hold i p (access k u)) {s : State} (hcur : s.cur = none) :
    RunsIn i total s (retire i (loop total access s)) := by
  have hrun := accessLoop_runsIn (fun _ => True) (fun u _ => hexec u) (fun _ _ _ => trivial) ha (fun _ _ => rfl) trivial hcur
  rwa [Nat.max_eq_left hpos] at hrun

/-! ### Fills of a rectangle of CP cells (FILLCOLOR, and the paint of DRAWBMP and DRAWBMP8) -/

/-- A fill of CP cells writes nothing but CP (43 R218, 44 R237). -/
theorem loop_fillRect_frame (n cx cy w : Nat) (color : Byte) (s : State) :
    loop n (fillRect cx cy w color) s = { s with memCP := (loop n (fillRect cx cy w color) s).memCP } :=
  loop_writeCP_frame n (fun k => cell (cx + k % w) (cy + k / w)) (fun _ => color) s

/-- Column i and row j of a rectangle w wide and h high are those of number w * j + i, one of its w * h numbers. -/
theorem rect_number {w h i j : Nat} (hi : i < w) (hj : j < h) :
    w * j + i < w * h ∧ (w * j + i) % w = i ∧ (w * j + i) / w = j := by
  refine ⟨?_, ?_, ?_⟩
  · calc w * j + i < w * j + w := Nat.add_lt_add_left hi _
      _ = w * (j + 1) := (Nat.mul_succ w j).symm
      _ ≤ w * h := Nat.mul_le_mul_left w hj
  · rw [Nat.mul_add_mod, Nat.mod_eq_of_lt hi]
  · rw [Nat.mul_add_div (Nat.zero_lt_of_lt hi), Nat.div_eq_of_lt hi, Nat.add_zero]

/-- A fill paints each cell of its rectangle, and no other cell (43 R218, 44 R237). -/
theorem loop_fillRect_read {s : State} (hm : Memory.WF Config.cells s.memCP) (cx cy w h : Nat) (color : Byte) :
    (∀ i j, i < w → j < h → (loop (w * h) (fillRect cx cy w color) s).memCP.read (cell (cx + i) (cy + j)) = color) ∧
    (∀ a, (∀ i j, i < w → j < h → a ≠ cell (cx + i) (cy + j)) →
      (loop (w * h) (fillRect cx cy w color) s).memCP.read a = s.memCP.read a) := by
  obtain ⟨-, hin, hout⟩ := loop_write_read (n := w * h) (f := fun k => cell (cx + k % w) (cy + k / w)) (g := fun _ => color)
    hm (fun _ _ => cell_lt _ _) (fun _ _ _ _ _ => rfl)
  rw [← loop_writeCP_mem] at hin hout
  refine ⟨fun i j hi hj => ?_, fun a ha => hout a fun k hk => (ha _ _ ?_ ?_).symm⟩
  · obtain ⟨hlt, hmod, hdiv⟩ := rect_number hi hj
    have hq := hin (w * j + i) hlt
    rwa [hmod, hdiv] at hq
  · exact Nat.mod_lt _ (Nat.pos_of_mul_pos_right (Nat.zero_lt_of_lt hk))
  · exact Nat.div_lt_of_lt_mul hk

/-! ### FILLCOLOR -/

theorem exec_fillcolor (cx cy w h color : Byte) (s : State) :
    exec (.fillcolor cx cy w h color) s = .next (accessLoop (.fillcolor cx cy w h color) (w.toNat * h.toNat)
      (fillRect cx.toNat cy.toNat w.toNat color) id s) := rfl

/-- Settles O44: without a cell FILLCOLOR only retires, and otherwise its run is the fill of its rectangle. -/
theorem fillcolorPaintsTheRegion : Obligations.FillcolorPaintsTheRegion := by
  intro cx cy w h color s hm hcur
  refine ⟨fun h0 => ?_, fun hw hh => ?_⟩
  · have hnone : w.toNat * h.toNat = 0 := by obtain rfl | rfl := h0 <;> simp
    rw [exec_fillcolor, hnone, accessLoop_zero]
    rfl
  · have hpos : 0 < w.toNat * h.toNat :=
      Nat.mul_pos (BitVec.toNat_pos_of_ne_zero hw) (BitVec.toNat_pos_of_ne_zero hh)
    obtain ⟨hin, hout⟩ := loop_fillRect_read hm.cpl cx.toNat cy.toNat w.toNat h.toNat color
    refine ⟨_, accessLoop_runsIn_of_pos hpos (exec_fillcolor cx cy w h color) (fun _ _ _ => rfl) hcur, hin, hout, ?_⟩
    rw [loop_fillRect_frame]
    rfl

/-! ### Fills of both planes (FILLSCR, and CLEARGRAPH after its pool) -/

/-- A loop runs through its first m numbers and then through the other n. -/
theorem loop_add {σ : Type} (m n : Nat) (body : Nat → σ → σ) (s : σ) :
    loop (m + n) body s = loop n (fun k => body (m + k)) (loop m body s) := by
  induction n with
  | zero => rfl
  | succ n ih => rw [← Nat.add_assoc, loop_succ, ih, loop_succ]

/-- The accesses of a screen fill come to its pseudocode: all of TP, then all of CP (43 R220). -/
theorem loop_fillScreen (tile color : Byte) (s : State) :
    loop (2 * Config.cells) (fillScreen tile color) s = atomicFill tile color s := by
  have hTP : loop Config.cells (fillScreen tile color) s = loop Config.cells (fun k => writeTP k tile) s :=
    loop_congr (fun k u hk => if_pos hk) s
  have hCP (u : State) : loop Config.cells (fun k => fillScreen tile color (Config.cells + k)) u =
      loop Config.cells (fun k => writeCP k color) u :=
    loop_congr (fun k u _ => by simp [fillScreen]) u
  rw [Nat.two_mul, loop_add, hTP, hCP]
  rfl

/-- A screen fill writes nothing but the two planes (43 R220). -/
theorem atomicFill_frame (tile color : Byte) (s : State) :
    atomicFill tile color s =
      { s with memTP := (atomicFill tile color s).memTP, memCP := (atomicFill tile color s).memCP } := by
  rw [atomicFill, loop_writeCP_frame _ (fun k => k) (fun _ => color), loop_writeTP_frame _ (fun k => k) (fun _ => tile)]

/-- A screen fill leaves the tile in every cell of TP and the colour in every cell of CP (43 R220). -/
theorem atomicFill_read (tile color : Byte) {s : State} (hm : s.MemOk) {a : Nat} (ha : a < Config.cells) :
    (atomicFill tile color s).memTP.read a = tile ∧ (atomicFill tile color s).memCP.read a = color := by
  obtain ⟨-, hTP, -⟩ := loop_write_read (f := fun k => k) (g := fun _ => tile) hm.tp (fun _ hk => hk) (fun _ _ _ _ _ => rfl)
  obtain ⟨-, hCP, -⟩ := loop_write_read (f := fun k => k) (g := fun _ => color) hm.cpl (fun _ hk => hk) (fun _ _ _ _ _ => rfl)
  refine ⟨?_, ?_⟩
  · rw [atomicFill, loop_writeCP_frame _ (fun k => k) (fun _ => color), loop_writeTP_mem]
    exact hTP a ha
  · rw [atomicFill, loop_writeCP_mem, loop_writeTP_frame _ (fun k => k) (fun _ => tile)]
    exact hCP a ha

theorem exec_fillscr (tile color : Byte) (s : State) :
    exec (.fillscr tile color) s =
      .next (accessLoop (.fillscr tile color) (2 * Config.cells) (fillScreen tile color) id s) := rfl

/-- Where a screen fill finds the position in CUR makes no difference to it. -/
theorem fillScreen_hold (tile color : Byte) (k : Nat) (i : Instr) (p : Pos) (s : State) :
    fillScreen tile color k (hold i p s) = hold i p (fillScreen tile color k s) := by
  unfold fillScreen
  split <;> rfl

/-- Settles O45: the run of FILLSCR comes to the pseudocode of the screen fill. -/
theorem fillscrFillsBothPlanes : Obligations.FillscrFillsBothPlanes := by
  intro tile color s hm hcur
  have hrun := accessLoop_runsIn_of_pos (by decide) (exec_fillscr tile color) (fun k => fillScreen_hold tile color k _) hcur
  rw [loop_fillScreen] at hrun
  refine ⟨_, hrun, ?_⟩
  rw [retire_memTP, retire_memCP]
  refine ⟨fun a ha => atomicFill_read tile color hm ha, ?_⟩
  conv_lhs => rw [atomicFill_frame]
  -- `rfl` is not to run the 840 writes to compare the planes.
  generalize atomicFill tile color s = u
  rfl

end Sys2Proof.Machine
end

section
/-! The pixel and bitmap commands (44 R230 to R258) but for the agreement of the two bitmap paths: SETPIXEL in its three or four
accesses, DRAWBMP as its pixels and its paint, and CLEARGRAPH and COPYFONT as loops of accesses. -/

namespace Sys2Proof.Machine

/-! ### Loops of accesses whose bodies look at the state -/

/-- Two loops agree where their bodies agree on the states that the second loop reaches. -/
theorem loop_congr_of {σ : Type} (P : σ → Prop) {n : Nat} {f g : Nat → σ → σ}
    (hkeep : ∀ k s, k < n → P s → P (g k s))
    (h : ∀ k s, k < n → P s → f k s = g k s) {s : σ} (hs : P s) : loop n f s = loop n g s := by
  induction n with
  | zero => rfl
  | succ n ih =>
    have hlast := loop_keeps P (fun k s hk => hkeep k s (Nat.lt_succ_of_lt hk)) hs
    rw [loop_succ, loop_succ, ih (fun k s hk => hkeep k s (Nat.lt_succ_of_lt hk)) fun k s hk => h k s (Nat.lt_succ_of_lt hk),
      h n _ (Nat.lt_succ_self n) hlast]

/-- A command of a number of accesses that stays the same while it runs, at least one of them, runs one step an access (60 R275):
`accessLoop_runsIn_of_pos` for a number that the state holds. -/
theorem accessLoop_runsIn_of_kept {i : Instr} {total : Nat} {access : Nat → State → State} (P : State → Prop)
    (hpos : 0 < total)
    (hexec : ∀ u, P u → exec i u = .next (accessLoop i total access id u))
    (hP : ∀ k u, P u → P (hold i (.index (k + 1)) (access k u)))
    (ha : ∀ k p u, access k (hold i p u) = hold i p (access k u)) {s : State} (hs : P s) (hcur : s.cur = none) :
    RunsIn i total s (retire i (loop total access s)) := by
  have hrun := accessLoop_runsIn P hexec hP ha (fun _ _ => rfl) hs hcur
  rwa [Nat.max_eq_left hpos] at hrun

/-! ### SETPIXEL -/

section
variable {x y : BitVec 16} {on : Bool} {s : State}

/-- The first access of SETPIXEL (44 R230). -/
theorem exec_setpixel_idle (hcur : s.cur = none) :
    exec (.setpixel x y on) s =
      .next (goOn (.setpixel x y on) ((setPixelStep x.toNat y.toNat on .acquire s).2.map (.pixel 0))
        (setPixelStep x.toNat y.toNat on .acquire s).1) := by
  simp only [exec, execSetpixel, pixelPos, hcur]

/-- A later access of SETPIXEL, which does not look at CUR but for the position (44 R230). -/
theorem exec_setpixel_held (i : Instr) (p : PixPos) :
    exec (.setpixel x y on) (hold i (.pixel 0 p) s) =
      .next (goOn (.setpixel x y on) ((setPixelStep x.toNat y.toNat on p s).2.map (.pixel 0))
        (setPixelStep x.toNat y.toNat on p s).1) := by
  have hpos : pixelPos (hold i (.pixel 0 p) s) = p := rfl
  simp only [exec, execSetpixel, hpos, setPixelStep_hold]
  generalize setPixelStep x.toNat y.toNat on p s = r
  obtain ⟨u, _ | p'⟩ := r <;> rfl

/-- The last two accesses of SETPIXEL: the read and the write of the bitmap byte (44 R230). -/
theorem setpixel_runsIn_rmw (t : Byte) (fresh : Bool) :
    RunsIn (.setpixel x y on) 2 (hold (.setpixel x y on) (.pixel 0 (.rmwRead t fresh)) s)
      (retire (.setpixel x y on) (writeRAMF (pixelRow t y.toNat)
        (maskByte on (s.memRAMF.read (pixelRow t y.toNat)) (pixelMask x.toNat)) (settle fresh s))) :=
  RunsIn.step (exec_setpixel_held _ _) (.last (exec_setpixel_held _ _) rfl)

/-- SETPIXEL runs to its pseudocode in four accesses where its cell holds 0, and in three where it holds a tile (44 R230). -/
theorem setpixel_runsIn_count (x y : BitVec 16) (on : Bool) (hcur : s.cur = none) :
    RunsIn (.setpixel x y on) (if s.memTP.read (pixelCell x.toNat y.toNat) = 0 then 4 else 3) s
      (retire (.setpixel x y on) (atomicSetPixel x.toNat y.toNat on s)) := by
  have hfirst := exec_setpixel_idle (x := x) (y := y) (on := on) hcur
  by_cases h0 : s.memTP.read (pixelCell x.toNat y.toNat) = 0
  · rw [if_pos h0, atomicSetPixel, atomicAcquire_of_empty h0]
    rw [setPixelStep, if_pos h0] at hfirst
    exact RunsIn.step hfirst (RunsIn.step (exec_setpixel_held _ _) (setpixel_runsIn_rmw s.nextFree true))
  · rw [if_neg h0, atomicSetPixel, atomicAcquire_of_tile h0]
    rw [setPixelStep, if_neg h0] at hfirst
    exact RunsIn.step hfirst (setpixel_runsIn_rmw (s.memTP.read (pixelCell x.toNat y.toNat)) false)

/-- A run of SETPIXEL is the one of `setpixel_runsIn_count`. -/
theorem setpixel_runsIn_iff (x y : BitVec 16) (on : Bool) (hcur : s.cur = none) {n : Nat} {t : State} :
    RunsIn (.setpixel x y on) n s t ↔ n = (if s.memTP.read (pixelCell x.toNat y.toNat) = 0 then 4 else 3) ∧
      t = retire (.setpixel x y on) (atomicSetPixel x.toNat y.toNat on s) := by
  have hrun := setpixel_runsIn_count x y on hcur
  refine ⟨fun h => h.unique hrun, ?_⟩
  rintro ⟨rfl, rfl⟩
  exact hrun

end

/-- Pixels whose coordinates agree modulo the screen lie in one cell (20 R62). -/
theorem pixelCell_congr {x y x' y' : Nat} (hx : x' % 224 = x % 224) (hy : y' % 240 = y % 240) :
    pixelCell x' y' = pixelCell x y := by
  simp only [pixelCell_eq, hx, hy]

/-- SetPixel sees its coordinates modulo the screen (44 R231(a)). -/
theorem atomicSetPixel_congr {x y x' y' : Nat} (hx : x' % 224 = x % 224) (hy : y' % 240 = y % 240) (on : Bool) (s : State) :
    atomicSetPixel x' y' on s = atomicSetPixel x y on s := by
  simp only [atomicSetPixel, pixelCell_congr hx hy, pixelRow, pixelMask, wrapX, wrapY, Config.pixW, Config.pixH, hx, hy]

/-- Settles O47: both runs have the length and the end that `setpixel_runsIn_iff` gives, and those see the coordinates modulo the
screen. -/
theorem setpixelWrapsCoordinates : Obligations.SetpixelWrapsCoordinates := by
  intro x y x' y' on s t n hcur hx hy
  rw [setpixel_runsIn_iff x y on hcur, setpixel_runsIn_iff x' y' on hcur, pixelCell_congr hx hy, atomicSetPixel_congr hx hy]
  rfl

/-- Acquire writes at most its cell (42 R190). -/
theorem atomicAcquire_read_other {s : State} (hm : Memory.WF Config.cells s.memTP) {c a : Nat} (ha : a ≠ c) :
    (atomicAcquire c s).1.memTP.read a = s.memTP.read a := by
  by_cases h0 : s.memTP.read c = 0
  · rw [atomicAcquire_of_empty h0]
    exact read_write_other hm _ ha.symm
  · rw [atomicAcquire_of_tile h0]

/-- Acquire returns NEXTFREE for a cell that holds 0, and the cell's tile otherwise (42 R190). -/
theorem atomicAcquire_tile (c : Nat) (s : State) :
    (atomicAcquire c s).2 = if s.memTP.read c = 0 then s.nextFree else s.memTP.read c := by
  unfold atomicAcquire
  split <;> rfl

/-- Acquire writes TP, and NEXTFREE where the cell held 0, and nothing else (42 R190). -/
theorem atomicAcquire_frame (c : Nat) (s : State) :
    (atomicAcquire c s).1 = { s with
      memTP := (atomicAcquire c s).1.memTP
      nextFree := if s.memTP.read c = 0 then (if s.nextFree = 255 then s.firstFree else s.nextFree + 1) else s.nextFree } := by
  by_cases h0 : s.memTP.read c = 0
  · rw [atomicAcquire_of_empty h0, if_pos h0]
    rfl
  · rw [atomicAcquire_of_tile h0, if_neg h0]

/-- Settles O46: the run of `setpixel_runsIn_count` is one Acquire, then one write of the byte with the pixel's bit set or
cleared. -/
theorem setpixelSetsOneBit : Obligations.SetpixelSetsOneBit := by
  intro x y on s hm hcur c fresh tile a
  have hc : pixelCell x.toNat y.toNat = c := pixelCell_eq _ _
  have hframe := atomicAcquire_frame c s
  have htile : (atomicAcquire c s).2 = tile := atomicAcquire_tile c s
  have hrun := setpixel_runsIn_count x y on hcur
  have hramf : (atomicAcquire c s).1.memRAMF = s.memRAMF := by rw [hframe]
  rw [atomicSetPixel, hc, htile, hramf] at hrun
  refine ⟨_, hrun, ?_, fun b hb => ?_, fun p hp => ?_, fun b hb => ?_, ?_⟩
  · exact (atomicAcquire_read hm.tp c).trans htile
  · exact atomicAcquire_read_other hm.tp hb
  · rw [retire_memRAMF, writeRAMF_memRAMF, hramf, pixelMask]
    rw [show a = pixelRow tile y.toNat from rfl, read_write_same hm.ramf]
    exact maskByte_rowBit on _ (Nat.mod_lt _ (by decide)) hp
  · rw [retire_memRAMF, writeRAMF_memRAMF, hramf]
    exact read_write_other hm.ramf _ hb.symm
  · rw [retire_memRAMF, writeRAMF_memRAMF, hramf]
    conv_lhs => rw [hframe]
    rfl

/-! ### The no-op cases -/

theorem nullSprite_iff {w h : BitVec 16} {base : Word} : nullSprite w h base = true ↔ w = 0 ∨ h = 0 ∨ base = 0 := by
  simp only [nullSprite, Bool.or_eq_true, decide_eq_true_eq, or_assoc]

/-- Settles O48: each no-op case meets the command's own test, after which it only retires. -/
theorem blitNoOpsDoNothing : Obligations.BlitNoOpsDoNothing := by
  intro x y w h base frame on paint color fi ri s
  refine ⟨fun hnull => ?_, fun hnull => ?_, rfl⟩
  · rw [exec, execDrawbmp, if_pos (nullSprite_iff.2 hnull)]
    rfl
  · have htest : (nullSprite w h base || decide (h ≠ 8) || decide (16 < w.toNat)) = true := by
      rw [Bool.or_eq_true, Bool.or_eq_true, nullSprite_iff, decide_eq_true_eq, decide_eq_true_eq]
      tauto
    rw [exec, execDrawbmp8, if_pos htest]
    rfl

/-! ### DRAWBMP -/

/-- DRAWBMP of a valid geometry, started where no command is in flight, runs to its pseudocode (44 R236). -/
theorem drawbmp_runsIn {x y w h : BitVec 16} {base : Word} {frame : Byte} {on paint : Bool} {color : Byte}
    (hn : nullSprite w h base = false) {s : State} (hcur : s.cur = none) :
    ∃ n, RunsIn (.drawbmp x y w h base frame on paint color) n s (retire (.drawbmp x y w h base frame on paint color)
      (atomicDraw (spriteOf x y w h base frame on paint color) s)) := by
  refine RunsOn.start (drawbmp_eq hn s) ?_
  have hrun : RunsOn _ _ _ := drawFrom_runsOn (x := x) (y := y) (frame := frame) (on := on) (paint := paint) (color := color) hn
    (w.toNat * h.toNat) 0 (Nat.zero_add _) s
  rw [loopFrom_zero, Nat.mul_comm] at hrun
  rw [atomicDraw_eq, drawStep, hcur]
  exact hrun

/-- DRAWBMP of a frame without a 1 bit comes to its paint alone (44 R238(d)). -/
theorem atomicDraw_of_empty {d : Sprite} {s : State} (hempty : ∀ q < d.h * d.w, d.bitAt s.memROM q = false) :
    atomicDraw d s = atomicPaintIf d s := by
  have hloop : loop (d.h * d.w) (drawPixel d) s = s := by
    refine loop_keeps (· = s) (fun q u hq hu => ?_) rfl
    rw [hu, drawPixel, hempty q hq, if_neg Bool.false_ne_true]
  rw [atomicDraw_eq, hloop]

/-- Paint writes nothing but CP (44 R237). -/
theorem atomicPaintIf_frame (d : Sprite) (s : State) :
    atomicPaintIf d s = { s with memCP := (atomicPaintIf d s).memCP } := by
  unfold atomicPaintIf
  split
  · rw [atomicPaint_eq]
    exact loop_fillRect_frame _ _ _ _ _ _
  · rfl

/-- With paint = 1 the cells under the bounding box have the colour; every other cell keeps its own (44 R237). -/
theorem atomicPaintIf_read (d : Sprite) {s : State} (hm : Memory.WF Config.cells s.memCP) :
    (∀ r k, r < d.nr → k < d.nc → d.paint = true →
      (atomicPaintIf d s).memCP.read (cell (d.cx0 + k) (d.cy0 + r)) = d.color) ∧
    (∀ a, (d.paint = true → ∀ r k, r < d.nr → k < d.nc → a ≠ cell (d.cx0 + k) (d.cy0 + r)) →
      (atomicPaintIf d s).memCP.read a = s.memCP.read a) := by
  obtain ⟨hin, hout⟩ := loop_fillRect_read hm d.cx0 d.cy0 d.nc d.nr d.color
  rw [← atomicPaint_eq] at hin hout
  by_cases hp : d.paint = true
  · rw [atomicPaintIf, if_pos hp]
    exact ⟨fun r k hr hk _ => hin k r hk hr, fun a ha => hout a fun k r hk hr => ha hp r k hr hk⟩
  · rw [atomicPaintIf, if_neg hp]
    exact ⟨fun _ _ _ _ hp' => absurd hp' hp, fun _ _ => rfl⟩

/-- Settles O49: the run of DRAWBMP comes to its paint, which writes the cells under the bounding box and nothing else. -/
theorem emptyFrameOnlyPaints : Obligations.EmptyFrameOnlyPaints := by
  intro x y w h base frame on paint color s hm hcur hw hh hbase hempty x0 y0 nc nr
  have hn : nullSprite w h base = false := by
    rw [← Bool.not_eq_true, nullSprite_iff]
    tauto
  obtain ⟨n, hrun⟩ := drawbmp_runsIn (x := x) (y := y) (frame := frame) (on := on) (paint := paint) (color := color) hn hcur
  have hbits (q : Nat) (hq : q < h.toNat * w.toNat) :
      (spriteOf x y w h base frame on paint color).bitAt s.memROM q = false :=
    hempty _ _ (Nat.mod_lt _ (BitVec.toNat_pos_of_ne_zero hw)) (Nat.div_lt_of_lt_mul (Nat.mul_comm _ _ ▸ hq))
  rw [atomicDraw_of_empty hbits] at hrun
  obtain ⟨hin, hout⟩ := atomicPaintIf_read (spriteOf x y w h base frame on paint color) hm.cpl
  refine ⟨n, _, hrun, hin, hout, ?_⟩
  conv_lhs => rw [atomicPaintIf_frame]
  rfl

/-! ### CLEARGRAPH -/

theorem exec_cleargraph (color : Byte) (s : State) :
    exec (.cleargraph color) s =
      .next (accessLoop (.cleargraph color) (poolBytes s + 2 * Config.cells) (clearScreen color) id s) := rfl

@[simp] theorem fillScreen_firstFree (tile color : Byte) (k : Nat) (s : State) :
    (fillScreen tile color k s).firstFree = s.firstFree := by
  unfold fillScreen
  split <;> rfl

section
variable (color : Byte) {k : Nat} {s : State}

theorem clearScreen_of_pool (hk : k < poolBytes s) : clearScreen color k s = clearPool k s := if_pos hk

theorem clearScreen_of_first : clearScreen color (poolBytes s) s = fillScreen 0 color 0 (rewindPool s) := by
  rw [clearScreen, if_neg (lt_irrefl _), if_pos rfl]

theorem clearScreen_of_later : clearScreen color (poolBytes s + (k + 1)) s = fillScreen 0 color (k + 1) s := by
  rw [clearScreen, if_neg (by omega), if_neg (by omega), Nat.add_sub_cancel_left]

/-- No access of CLEARGRAPH moves FIRSTFREE, so that the pool has the same bytes throughout (44 R250). -/
theorem clearScreen_poolBytes (k : Nat) (s : State) : poolBytes (clearScreen color k s) = poolBytes s := by
  unfold clearScreen
  split
  · rfl
  · split <;> simp only [poolBytes, fillScreen_firstFree, rewindPool_firstFree]

/-- Where an access of CLEARGRAPH finds the position in CUR makes no difference to it. -/
theorem clearScreen_hold (k : Nat) (i : Instr) (p : Pos) (s : State) :
    clearScreen color k (hold i p s) = hold i p (clearScreen color k s) := by
  have hrewind : rewindPool (hold i p s) = hold i p (rewindPool s) := rfl
  have hbytes : poolBytes (hold i p s) = poolBytes s := rfl
  simp only [clearScreen, hbytes, hrewind, fillScreen_hold]
  split
  · rfl
  · split <;> rfl

end

/-- The pool reset does not move FIRSTFREE (42 R194). -/
theorem loop_clearPool_firstFree (n : Nat) (s : State) : (loop n clearPool s).firstFree = s.firstFree := by
  rw [loop_clearPool, loop_writeRAMF_frame n (s.firstFree.toNat * 8 + ·) (fun _ => 0)]

/-- The accesses of CLEARGRAPH come to its pseudocode: the pool reset, then the screen fill with tile 0 (44 R250). -/
theorem loop_clearScreen (color : Byte) (s : State) :
    loop (poolBytes s + 2 * Config.cells) (clearScreen color) s = atomicFill 0 color (atomicResetPool s) := by
  have hpool : loop (poolBytes s) (clearScreen color) s = loop (poolBytes s) clearPool s :=
    loop_congr_of (f := clearScreen color) (g := clearPool) (fun u => poolBytes u = poolBytes s) (fun _ _ _ hu => hu)
      (fun k u hk hu => clearScreen_of_pool color (hk.trans_eq hu.symm)) rfl
  have hbytes : poolBytes (loop (poolBytes s) clearPool s) = poolBytes s := by
    rw [poolBytes, loop_clearPool_firstFree]
    rfl
  have hscreen (u : State) (hu : poolBytes u = poolBytes s) :
      loop (2 * Config.cells) (fun k => clearScreen color (poolBytes s + k)) u =
        loop (2 * Config.cells) (fillScreen 0 color) (rewindPool u) := by
    have hrest : ∀ v, poolBytes v = poolBytes s →
        loop (2 * Config.cells - 1) (fun k => clearScreen color (poolBytes s + (1 + k))) v =
          loop (2 * Config.cells - 1) (fun k => fillScreen 0 color (1 + k)) v := fun v hv =>
      loop_congr_of (fun v => poolBytes v = poolBytes s)
        (fun k v _ hv => by rw [poolBytes, fillScreen_firstFree]; exact hv)
        (fun k v _ hv => by rw [← hv, Nat.add_comm 1 k, clearScreen_of_later]) hv
    rw [show 2 * Config.cells = 1 + (2 * Config.cells - 1) from rfl, loop_add, loop_add, hrest]
    · rw [loop_succ, loop_succ, loop_zero, loop_zero, Nat.add_zero, ← hu, clearScreen_of_first]
    · rw [loop_succ, loop_zero, clearScreen_poolBytes, hu]
  rw [loop_add, hpool, hscreen _ hbytes, loop_fillScreen]
  rfl

/-- CLEARGRAPH, started where no command is in flight, runs one access a byte to its pseudocode (44 R250, 60 R275). -/
theorem cleargraph_runsIn (color : Byte) {s : State} (hcur : s.cur = none) :
    RunsIn (.cleargraph color) (poolBytes s + 2 * Config.cells) s
      (retire (.cleargraph color) (atomicFill 0 color (atomicResetPool s))) := by
  have hrun := accessLoop_runsIn_of_kept (i := .cleargraph color) (access := clearScreen color)
    (fun u => poolBytes u = poolBytes s) (Nat.add_pos_right (poolBytes s) (b := 2 * Config.cells) (by decide))
    (fun u hu => by rw [exec_cleargraph, hu]) (fun k u hu => (clearScreen_poolBytes color k u).trans hu)
    (fun k p u => clearScreen_hold color k _ p u) rfl hcur
  rwa [loop_clearScreen] at hrun

/-- The pool reset writes RAMF and NEXTFREE and nothing else (42 R194). -/
theorem atomicResetPool_frame (s : State) :
    atomicResetPool s = { s with memRAMF := (atomicResetPool s).memRAMF, nextFree := s.firstFree } := by
  rw [atomicResetPool, loop_clearPool, loop_writeRAMF_frame _ (s.firstFree.toNat * 8 + ·) (fun _ => 0)]
  rfl

/-- The pool reset zeroes the dynamic range and no other byte of RAMF: RESETPOOL's run comes to it (42 R194). -/
theorem atomicResetPool_read {s : State} (hm : s.MemOk) (hcur : s.cur = none) :
    (∀ a, s.firstFree.toNat * 8 ≤ a → a < 2048 → (atomicResetPool s).memRAMF.read a = 0) ∧
    (∀ a, a < s.firstFree.toNat * 8 ∨ 2048 ≤ a → (atomicResetPool s).memRAMF.read a = s.memRAMF.read a) := by
  obtain ⟨t, hrun, hzero, hkeep, -⟩ := resetpoolZeroesTheDynamicRange s hm hcur
  obtain ⟨-, rfl⟩ := hrun.unique (resetpool_runsIn hcur)
  exact ⟨hzero, hkeep⟩

theorem atomicResetPool_MemOk {s : State} (hm : s.MemOk) (hcur : s.cur = none) : (atomicResetPool s).MemOk := by
  have hkept := (resetpool_runsIn hcur).keeps State.MemOk (fun _ _ => exec_MemOk) hm
  exact ⟨hkept.tp, hkept.cpl, hkept.ramf, hkept.rom⟩

/-- Settles O51: the run of CLEARGRAPH comes to the pool reset and then the screen fill. -/
theorem cleargraphClearsTheScreen : Obligations.CleargraphClearsTheScreen := by
  intro color s hm hcur
  have hrun := cleargraph_runsIn color hcur
  rw [poolBytes_eq, show 2 * Config.cells = 1680 from rfl] at hrun
  obtain ⟨hzero, hkeep⟩ := atomicResetPool_read hm hcur
  have hfill (a : Nat) (ha : a < 840) := atomicFill_read 0 color (atomicResetPool_MemOk hm hcur) ha
  have hframe := atomicFill_frame 0 color (atomicResetPool s)
  have hramf : (atomicFill 0 color (atomicResetPool s)).memRAMF = (atomicResetPool s).memRAMF := by rw [hframe]
  rw [← hramf] at hzero hkeep
  refine ⟨_, hrun, ?_⟩
  rw [retire_memTP, retire_memCP, retire_memRAMF]
  refine ⟨hfill, hzero, fun a ha => hkeep a (.inl ha), ?_⟩
  rw [hramf]
  conv_lhs => rw [hframe]
  -- `rfl` is not to run the writes to compare the memories.
  generalize atomicFill 0 color (atomicResetPool s) = u
  rw [atomicResetPool_frame]
  rfl

/-! ### COPYFONT -/

theorem exec_copyfont {fi ri : Byte} {src : Word} (hsrc : src ≠ 0) (s : State) :
    exec (.copyfont fi src ri) s = .next (accessLoop (.copyfont fi src ri) 8 (copyGlyph fi src ri) id s) := by
  rw [exec, execCopyfont, if_neg hsrc]

/-- COPYFONT writes bytes that its own writes do not change: it is a loop of writes of fixed bytes (44 R256). -/
theorem loop_copyGlyph (fi : Byte) (src : Word) (ri : Byte) (s : State) :
    loop 8 (copyGlyph fi src ri) s =
      loop 8 (fun k => writeRAMF (slotRow ri k) (romRead s.memROM (src.toNat + fi.toNat * 8 + k))) s :=
  loop_congr_of (f := copyGlyph fi src ri)
    (g := fun k => writeRAMF (slotRow ri k) (romRead s.memROM (src.toNat + fi.toNat * 8 + k)))
    (fun u => u.memROM = s.memROM) (fun _ _ _ hu => hu) (fun _ _ _ hu => by rw [copyGlyph, hu]) rfl

/-- Settles O52: the run of COPYFONT is the loop of writes to the eight bytes of its slot. -/
theorem copyfontCopiesOneSlot : Obligations.CopyfontCopiesOneSlot := by
  intro fi src ri s hm hcur hsrc
  have hrun := accessLoop_runsIn_of_pos (by decide) (exec_copyfont (fi := fi) (ri := ri) hsrc) (fun _ _ _ => rfl) hcur
  rw [loop_copyGlyph] at hrun
  obtain ⟨-, hin, hout⟩ := loop_write_read (n := 8) (f := slotRow ri)
    (g := fun k => romRead s.memROM (src.toNat + fi.toNat * 8 + k)) hm.ramf (fun k hk => slotRow_lt ri hk) fun j hj k hk heq => by
      rw [(slotRow_inj hj hk heq).2]
  rw [← loop_writeRAMF_mem] at hin hout
  refine ⟨_, hrun, hin, fun a ha => hout a fun k hk => ?_, ?_⟩
  · simp only [slotRow]
    omega
  · conv_lhs => rw [loop_writeRAMF_frame 8 (slotRow ri)]
    rfl

end Sys2Proof.Machine
end

section
/-! DRAWBMP8 and DRAWBMP leave the same state (44 R244). Both paths first give tiles to the same cells in the same order, and then
set or clear the same bits: DRAWBMP's writes to RAMF can be put after all its allocations, since a write to RAMF and an Acquire do
not see each other, and writes that only set (or only clear) bits may come in any order. -/

namespace Sys2Proof.Machine

/-! ### Loops that repeat an action -/

/-- A loop whose bodies past number K do nothing ends with body K. -/
theorem loop_eq_of_idle {σ : Type} {body : Nat → σ → σ} {K N : Nat} (hK : K < N)
    (hidle : ∀ k s, K < k → k < N → body k s = s) (s : σ) : loop N body s = body K (loop K body s) := by
  obtain ⟨m, rfl⟩ := Nat.exists_eq_add_of_lt hK
  have hrest : ∀ u, loop m (fun k => body (K + 1 + k)) u = u := fun u =>
    (loop_congr (g := fun _ u => u) (fun k v hk => hidle _ v (by omega) (by omega)) u).trans (loop_id m (fun _ _ => rfl) u)
  rw [Nat.add_right_comm, loop_add, hrest, loop_succ]

/-- One of the first n numbers at which b holds has the value k under c. -/
def Hits (b : Nat → Bool) (c : Nat → Nat) (n k : Nat) : Prop := ∃ i < n, b i = true ∧ c i = k

theorem hits_succ {b : Nat → Bool} {c : Nat → Nat} {n k : Nat} :
    Hits b c (n + 1) k ↔ Hits b c n k ∨ b n = true ∧ c n = k := by
  simp only [Hits, Nat.lt_succ_iff_lt_or_eq, or_and_right, exists_or, exists_eq_left]

/-- An action that has no effect the second time, done for numbers i in an order in which `c i` does not fall, is done once for
each value of c. -/
theorem loop_collapse {σ : Type} (P : σ → Prop) {g : Nat → σ → σ} (hkeep : ∀ k s, P s → P (g k s))
    (hidem : ∀ k s, P s → g k (g k s) = g k s) {b : Nat → Bool} {c : Nat → Nat} (hc : Monotone c) {n N : Nat}
    (hN : ∀ i < n, c i < N) {p : Nat → Prop} [DecidablePred p] (hp : ∀ k < N, p k ↔ Hits b c n k) {s : σ} (hs : P s) :
    loop n (fun i s => if b i = true then g (c i) s else s) s = loop N (fun k s => if p k then g k s else s) s := by
  classical
  induction n generalizing p with
  | zero =>
    have hidle : ∀ k u, k < N → (if p k then g k u else u) = u := fun k u hk => if_neg fun hpk => by
      obtain ⟨i, hi, -⟩ := (hp k hk).1 hpk
      omega
    exact ((loop_congr (g := fun _ u => u) hidle s).trans (loop_id N (fun _ _ => rfl) s)).symm
  | succ n ih =>
    have ih := ih (fun i hi => hN i (Nat.lt_succ_of_lt hi)) (p := Hits b c n) fun _ _ => Iff.rfl
    have hlast := hN n (Nat.lt_succ_self n)
    have hle : ∀ k, Hits b c n k → k ≤ c n := by
      rintro _ ⟨i, hi, -, rfl⟩
      exact hc hi.le
    rw [loop_succ, ih]
    by_cases hb : b n = true
    · have hp' : ∀ k < N, p k ↔ Hits b c n k ∨ c n = k := fun k hk => by
        rw [hp k hk, hits_succ, and_iff_right hb]
      have hbefore : loop (c n) (fun k s => if p k then g k s else s) s =
          loop (c n) (fun k s => if Hits b c n k then g k s else s) s :=
        loop_congr (fun k u hk => if_congr ((hp' k (hk.trans hlast)).trans (or_iff_left hk.ne')) rfl rfl) s
      have hkept : P (loop (c n) (fun k s => if Hits b c n k then g k s else s) s) :=
        loop_keeps P (fun k u _ hu => by split; exacts [hkeep k u hu, hu]) hs
      rw [if_pos hb, loop_eq_of_idle hlast fun k u hk _ => if_neg fun h => (hle k h).not_gt hk,
        loop_eq_of_idle hlast fun k u hk hkN => if_neg fun h => ((hp' k hkN).1 h).elim (fun h => (hle k h).not_gt hk) hk.ne,
        if_pos ((hp' _ hlast).2 (.inr rfl)), hbefore]
      split
      · exact hidem _ _ hkept
      · rfl
    · rw [if_neg hb]
      refine loop_congr (fun k u hk => if_congr ?_ rfl rfl) s
      rw [hp k hk, hits_succ, or_iff_left fun h => hb h.1]

/-! ### Acquire -/

/-- What Acquire needs to give a cell a tile that is not 0: TP in form, and the allocator in its range (10 R50(a), 42 R190). -/
structure CanAcquire (s : State) : Prop where
  tp : Memory.WF Config.cells s.memTP
  alloc : AllocOk s

section
variable {s : State} {c : Nat}

theorem atomicAcquire_canAcquire (hs : CanAcquire s) (hc : c < Config.cells) : CanAcquire (atomicAcquire c s).1 := by
  by_cases h0 : s.memTP.read c = 0
  · rw [atomicAcquire_of_empty h0]
    exact ⟨write_WF _ hs.tp hc, takeSlot_AllocOk hs.alloc⟩
  · rwa [atomicAcquire_of_tile h0]

/-- Acquire leaves every cell that holds a tile (42 R190). -/
theorem atomicAcquire_read_of_tile (hs : CanAcquire s) {a : Nat} (ha : s.memTP.read a ≠ 0) :
    (atomicAcquire c s).1.memTP.read a = s.memTP.read a := by
  by_cases hac : a = c
  · rw [atomicAcquire_of_tile (hac ▸ ha)]
  · exact atomicAcquire_read_other hs.tp hac

/-- After Acquire its cell holds a tile (42 R191(a)). -/
theorem atomicAcquire_holds_tile (hs : CanAcquire s) (c : Nat) : (atomicAcquire c s).1.memTP.read c ≠ 0 := by
  rw [atomicAcquire_read hs.tp]
  exact atomicAcquire_ne_zero hs.alloc c

/-- A second Acquire on a cell has no effect (42 R191(b)). -/
theorem atomicAcquire_idem (hs : CanAcquire s) (c : Nat) : (atomicAcquire c (atomicAcquire c s).1).1 = (atomicAcquire c s).1 := by
  rw [atomicAcquire_of_tile (atomicAcquire_holds_tile hs c)]

end

/-! ### Writes that set or clear bits -/

/-- A read-modify-write of a bitmap byte (44 R230, R242). -/
def maskWrite (on : Bool) (a : Nat) (m : Byte) (s : State) : State := writeRAMF a (maskByte on (s.memRAMF.read a) m) s

/-- Number k of a sequence of read-modify-writes: it has a byte to write where `f` holds. -/
def maskWriteIf (on : Bool) (f : Nat → Bool) (addr : Nat → Nat) (m : Nat → Byte) (k : Nat) (s : State) : State :=
  if f k = true then maskWrite on (addr k) (m k) s else s

/-- One of the first n read-modify-writes has bit b of the byte at index a in its mask. -/
def Touches (n : Nat) (f : Nat → Bool) (addr : Nat → Nat) (m : Nat → Byte) (a b : Nat) : Prop :=
  ∃ k < n, f k = true ∧ addr k = a ∧ (m k).getLsbD b = true

theorem touches_succ {n : Nat} {f : Nat → Bool} {addr : Nat → Nat} {m : Nat → Byte} {a b : Nat} :
    Touches (n + 1) f addr m a b ↔ Touches n f addr m a b ∨ f n = true ∧ addr n = a ∧ (m n).getLsbD b = true := by
  simp only [Touches, Nat.lt_succ_iff_lt_or_eq, or_and_right, exists_or, exists_eq_left]

/-- The bits of the mask are set or cleared, and the others stay. -/
theorem maskByte_getLsbD (on : Bool) (v m : Byte) (b : Nat) :
    (maskByte on v m).getLsbD b = if m.getLsbD b = true then on else v.getLsbD b := by
  by_cases hb : b < 8
  · cases on <;> simp only [maskByte, Bool.false_eq_true, if_true, if_false, BitVec.getLsbD_or, BitVec.getLsbD_and,
      BitVec.getLsbD_not, hb] <;> cases m.getLsbD b <;> simp
  · have hlow : ∀ u : Byte, u.getLsbD b = false := fun u => BitVec.getLsbD_of_ge u b (by omega)
    rw [hlow, hlow, hlow, if_neg Bool.false_ne_true]

section
variable {on : Bool} {f : Nat → Bool} {addr : Nat → Nat} {m : Nat → Byte} {n : Nat} {s : State}

/-- Read-modify-writes write nothing but RAMF. -/
theorem loop_maskWriteIf_frame (on : Bool) (f : Nat → Bool) (addr : Nat → Nat) (m : Nat → Byte) (n : Nat) (s : State) :
    loop n (maskWriteIf on f addr m) s = { s with memRAMF := (loop n (maskWriteIf on f addr m) s).memRAMF } := by
  induction n with
  | zero => rfl
  | succ n ih =>
    rw [loop_succ, maskWriteIf]
    split
    · rw [ih]
      rfl
    · exact ih

/-- Read-modify-writes keep RAMF in form, and set or clear the bits of their masks, whatever their order. -/
theorem loop_maskWriteIf_read (hm : Memory.WF Config.ramfSize s.memRAMF) (haddr : ∀ k, addr k < Config.ramfSize) :
    Memory.WF Config.ramfSize (loop n (maskWriteIf on f addr m) s).memRAMF ∧
    ∀ a b, (Touches n f addr m a b → ((loop n (maskWriteIf on f addr m) s).memRAMF.read a).getLsbD b = on) ∧
      (¬ Touches n f addr m a b →
        ((loop n (maskWriteIf on f addr m) s).memRAMF.read a).getLsbD b = (s.memRAMF.read a).getLsbD b) := by
  induction n with
  | zero => exact ⟨hm, fun a b => ⟨fun ⟨k, hk, _⟩ => absurd hk (Nat.not_lt_zero k), fun _ => rfl⟩⟩
  | succ n ih =>
    obtain ⟨hwf, hbits⟩ := ih
    rw [loop_succ, maskWriteIf]
    generalize loop n (maskWriteIf on f addr m) s = u at hwf hbits ⊢
    by_cases hf : f n = true
    · rw [if_pos hf]
      refine ⟨write_WF _ hwf (haddr n), fun a b => ?_⟩
      obtain ⟨hon, hold⟩ := hbits a b
      have hread : ((maskWrite on (addr n) (m n) u).memRAMF.read a).getLsbD b =
          if addr n = a ∧ (m n).getLsbD b = true then on else (u.memRAMF.read a).getLsbD b := by
        rw [maskWrite, writeRAMF_memRAMF, read_write hwf]
        by_cases ha : addr n = a
        · subst ha
          simp only [if_true, true_and, maskByte_getLsbD]
        · simp only [ha, if_false, false_and]
      rw [hread, touches_succ]
      split
      · exact ⟨fun _ => rfl, fun hno => absurd (.inr ⟨hf, ‹_›⟩) hno⟩
      · refine ⟨fun hyes => hon (hyes.resolve_right fun h => ‹¬ _› h.2), fun hno => hold fun h => hno (.inl h)⟩
    · rw [if_neg hf]
      refine ⟨hwf, fun a b => ?_⟩
      rw [touches_succ, or_iff_left fun h => hf h.1]
      exact hbits a b

/-- Two sequences of read-modify-writes that touch the same bits leave the same state. -/
theorem loop_maskWriteIf_eq {f' : Nat → Bool} {addr' : Nat → Nat} {m' : Nat → Byte} {n' : Nat}
    (hm : Memory.WF Config.ramfSize s.memRAMF) (haddr : ∀ k, addr k < Config.ramfSize)
    (haddr' : ∀ k, addr' k < Config.ramfSize) (hsame : ∀ a b, Touches n f addr m a b ↔ Touches n' f' addr' m' a b) :
    loop n (maskWriteIf on f addr m) s = loop n' (maskWriteIf on f' addr' m') s := by
  obtain ⟨hwf, hbits⟩ := loop_maskWriteIf_read (on := on) (f := f) (m := m) (n := n) hm haddr
  obtain ⟨hwf', hbits'⟩ := loop_maskWriteIf_read (on := on) (f := f') (m := m') (n := n') hm haddr'
  rw [loop_maskWriteIf_frame, loop_maskWriteIf_frame on f' addr' m']
  congr 1
  refine memory_ext hwf hwf' fun a => BitVec.eq_of_getLsbD_eq fun b _ => ?_
  by_cases ht : Touches n f addr m a b
  · rw [(hbits a b).1 ht, (hbits' a b).1 ((hsame a b).1 ht)]
  · rw [(hbits a b).2 ht, (hbits' a b).2 (mt (hsame a b).2 ht)]

/-- Acquire and read-modify-writes do not see each other (42 R190, 44 R230). -/
theorem atomicAcquire_loop_maskWriteIf (c : Nat) :
    atomicAcquire c (loop n (maskWriteIf on f addr m) s) =
      (loop n (maskWriteIf on f addr m) (atomicAcquire c s).1, (atomicAcquire c s).2) := by
  have hone (k : Nat) (u : State) : atomicAcquire c (maskWriteIf on f addr m k u) =
      (maskWriteIf on f addr m k (atomicAcquire c u).1, (atomicAcquire c u).2) := by
    unfold maskWriteIf
    split
    · by_cases h0 : u.memTP.read c = 0
      · have h0' : (maskWrite on (addr k) (m k) u).memTP.read c = 0 := h0
        rw [atomicAcquire_of_empty h0, atomicAcquire_of_empty h0']
        rfl
      · have h0' : (maskWrite on (addr k) (m k) u).memTP.read c ≠ 0 := h0
        rw [atomicAcquire_of_tile h0, atomicAcquire_of_tile h0']
        rfl
    · rfl
  induction n with
  | zero => rfl
  | succ n ih => rw [loop_succ, hone, ih, loop_succ]

end

/-! ### Where the 1 bits of a sprite fall -/

theorem widthMask_getLsbD {w b : Nat} (hw : w ≤ 16) : (widthMask w).getLsbD b = true ↔ b < 16 ∧ 16 ≤ b + w := by
  rw [widthMask, show (0xFFFF#16) = BitVec.allOnes 16 from rfl]
  simp only [BitVec.getLsbD_shiftLeft, BitVec.getLsbD_allOnes, Bool.and_eq_true, Bool.not_eq_true', decide_eq_true_eq,
    decide_eq_false_iff_not]
  omega

/-- The one or two bytes of a sprite row, cut to the sprite's width: pixel i is bit 15 - i (44 R234, R242). -/
theorem spriteRow_getLsbD (rom : Memory) (fb : Nat) {w : Nat} (hw : w ≤ 16) (j : Nat) {i : Nat} (hi : i < 16) :
    ((romRead rom (fb + j * stride w) ++ if stride w = 2 then romRead rom (fb + j * stride w + 1) else 0 : BitVec 16) &&&
      widthMask w).getLsbD (15 - i) = true ↔ i < w ∧ spriteBit rom fb w i j = true := by
  rw [BitVec.getLsbD_and, Bool.and_eq_true, widthMask_getLsbD hw, BitVec.getLsbD_append, spriteBit, rowBit]
  have hwidth : 15 - i < 16 ∧ 16 ≤ 15 - i + w ↔ i < w := by omega
  rw [hwidth, and_comm]
  refine and_congr_right fun hiw => ?_
  rcases Nat.lt_or_ge i 8 with hlow | hhigh
  · rw [if_neg (by omega), show 15 - i - 8 = 7 - i % 8 by omega, Nat.div_eq_of_lt hlow, Nat.add_zero]
  · have hstride : stride w = 2 := by
      simp only [stride]
      omega
    rw [if_pos (by omega), if_pos hstride, show 15 - i = 7 - i % 8 by omega, show i / 8 = 1 by omega]

/-- Pixel i of a shifted row of 24 bits is bit 23 - (sx + i); every other bit is 0 (44 R242). -/
theorem shiftedRow_getLsbD (rom : Memory) (fb : Nat) {w : Nat} (hw : w ≤ 16) (sx j n : Nat) :
    (shiftedRow rom fb w sx j).getLsbD n = true ↔ ∃ i < w, spriteBit rom fb w i j = true ∧ n + sx + i = 23 := by
  simp only [shiftedRow, BitVec.getLsbD_ushiftRight, BitVec.getLsbD_shiftLeft, BitVec.getLsbD_setWidth, Bool.and_eq_true,
    Bool.not_eq_true', decide_eq_true_eq, decide_eq_false_iff_not]
  constructor
  · rintro ⟨⟨hlt, hge⟩, -, hbit⟩
    have hi : 23 - (sx + n) < 16 := by omega
    rw [show sx + n - 8 = 15 - (23 - (sx + n)) by omega, spriteRow_getLsbD rom fb hw j hi] at hbit
    exact ⟨_, hbit.1, hbit.2, by omega⟩
  · rintro ⟨i, hi, hbit, hn⟩
    refine ⟨⟨by omega, by omega⟩, by omega, ?_⟩
    rw [show sx + n - 8 = 15 - i by omega, spriteRow_getLsbD rom fb hw j (by omega)]
    exact ⟨hi, hbit⟩

/-- The mask byte of a cell column has the 1 bits of the sprite row that fall into the column (44 R242). -/
theorem mask_getLsbD (d : Sprite) (rom : Memory) (hw : d.w ≤ 16) {k j b : Nat} (hk : k < 3) :
    (d.mask rom k j).getLsbD b = true ↔
      ∃ i < d.w, spriteBit rom d.fb d.w i j = true ∧ (d.sx + i) / 8 = k ∧ b + (d.sx + i) % 8 = 7 := by
  rw [Sprite.mask, columnMask, BitVec.getLsbD_extractLsb', Bool.and_eq_true, decide_eq_true_eq, shiftedRow_getLsbD _ _ hw]
  constructor
  · rintro ⟨hb, i, hi, hbit, hn⟩
    exact ⟨i, hi, hbit, by omega, by omega⟩
  · rintro ⟨i, hi, hbit, hcol, hn⟩
    exact ⟨by omega, i, hi, hbit, by omega⟩

/-- A mask byte is not 0 where a 1 bit of the sprite row falls into the cell column (44 R242). -/
theorem mask_ne_zero_iff (d : Sprite) (rom : Memory) (hw : d.w ≤ 16) {k j : Nat} (hk : k < 3) :
    d.mask rom k j ≠ 0 ↔ ∃ i < d.w, spriteBit rom d.fb d.w i j = true ∧ (d.sx + i) / 8 = k := by
  constructor
  · intro hne
    by_contra hno
    refine hne (BitVec.eq_of_getLsbD_eq fun b _ => ?_)
    rw [show (0 : Byte).getLsbD b = false from BitVec.getLsbD_zero, ← Bool.not_eq_true, mask_getLsbD d rom hw hk]
    rintro ⟨i, hi, hbit, hcol, -⟩
    exact hno ⟨i, hi, hbit, hcol⟩
  · rintro ⟨i, hi, hbit, hcol⟩ h0
    have hset := (mask_getLsbD d rom hw (j := j) (b := 7 - (d.sx + i) % 8) hk).2 ⟨i, hi, hbit, hcol, by omega⟩
    rw [h0] at hset
    exact Bool.false_ne_true (BitVec.getLsbD_zero.symm.trans hset)

section
variable (d : Sprite)

/-- The cell of pixel i, j of a sprite (20 R62, 44 R242). -/
theorem pixelCell_eq_cellAt (i j : Nat) : pixelCell (d.x + i) (d.y + j) = d.cellAt ((d.sx + i) / 8, d.cellRow j) := by
  refine cell_congr ?_ ?_ <;>
    simp only [Sprite.cx0, Sprite.cy0, Sprite.sx, Sprite.sy, Sprite.cellRow, wrapX, wrapY, Config.pixW, Config.pixH] <;> omega

/-- The byte of pixel i, j of a sprite in the slot of its cell (44 R230, R242). -/
theorem pixelRow_eq_slotRow (t : Byte) (j : Nat) : pixelRow t (d.y + j) = slotRow t ((d.sy + j) % 8) := by
  simp only [pixelRow, Sprite.sy, wrapY, Config.pixH]
  congr 1
  omega

/-- The bit of pixel i, j of a sprite in its byte (44 R230, R242). -/
theorem pixelMask_getLsbD (i b : Nat) : (pixelMask (d.x + i)).getLsbD b = true ↔ b + (d.sx + i) % 8 = 7 := by
  have hbit : ∀ q < 8, ∀ b < 8, (0x80#8 >>> q).getLsbD b = decide (b + q = 7) := by decide
  have hcol : wrapX (d.x + i) % 8 = (d.sx + i) % 8 := by
    simp only [Sprite.sx, wrapX, Config.pixW]
    omega
  rw [pixelMask, hcol]
  by_cases hb : b < 8
  · rw [hbit _ (Nat.mod_lt _ (by decide)) b hb, decide_eq_true_eq]
  · rw [BitVec.getLsbD_of_ge _ _ (by omega)]
    constructor
    · intro h
      cases h
    · omega

/-- Every column of a sprite falls into one of its cell columns (44 R242). -/
theorem column_lt_nc {i : Nat} (hi : i < d.w) : (d.sx + i) / 8 < d.nc := by
  simp only [Sprite.nc, cellsOver]
  omega

end

/-! ### Both paths allocate alike -/

/-- The allocation of DRAWBMP for pixel number q (44 R236). -/
def acquirePixel (d : Sprite) (rom : Memory) (q : Nat) (s : State) : State :=
  if d.bitAt rom q = true then (atomicAcquire (pixelCell (d.x + q % d.w) (d.y + q / d.w)) s).1 else s

/-- The allocation of DRAWBMP8 for number q of phase A, where the cell may have a tile already (44 R242). -/
def acquireCell (d : Sprite) (rom : Memory) (q : Nat) (s : State) : State :=
  if d.mask rom (q % d.nc) (q / d.nc) ≠ 0 then (atomicAcquire (d.cellAt (d.cellKey q)) s).1 else s

section
variable {d : Sprite} {rom : Memory} {s : State}

theorem acquirePixel_canAcquire (q : Nat) (hs : CanAcquire s) : CanAcquire (acquirePixel d rom q s) := by
  unfold acquirePixel
  split
  · exact atomicAcquire_canAcquire hs (pixelCell_lt _ _)
  · exact hs

/-- An allocation leaves every cell that holds a tile (42 R190). -/
theorem acquirePixel_read_of_tile (q : Nat) (hs : CanAcquire s) {a : Nat} (ha : s.memTP.read a ≠ 0) :
    (acquirePixel d rom q s).memTP.read a = s.memTP.read a := by
  unfold acquirePixel
  split
  · exact atomicAcquire_read_of_tile hs ha
  · rfl

theorem acquireCell_canAcquire (q : Nat) (hs : CanAcquire s) : CanAcquire (acquireCell d rom q s) := by
  unfold acquireCell
  split
  · exact atomicAcquire_canAcquire hs (cellAt_lt _ _)
  · exact hs

/-- The allocations for one sprite row, pixel by pixel and cell column by cell column (44 R236, R242). -/
theorem loop_acquire_row (hw : d.w ≤ 16) (j : Nat) (hs : CanAcquire s) :
    loop d.w (fun i s => if spriteBit rom d.fb d.w i j = true then (atomicAcquire (pixelCell (d.x + i) (d.y + j)) s).1 else s) s =
      loop d.nc (fun k s => if d.mask rom k j ≠ 0 then (atomicAcquire (d.cellAt (k, d.cellRow j)) s).1 else s) s := by
  simp only [pixelCell_eq_cellAt]
  exact loop_collapse CanAcquire (g := fun k s => (atomicAcquire (d.cellAt (k, d.cellRow j)) s).1)
    (b := fun i => spriteBit rom d.fb d.w i j) (c := fun i => (d.sx + i) / 8)
    (fun k u hu => atomicAcquire_canAcquire hu (cellAt_lt _ _)) (fun k u hu => atomicAcquire_idem hu _)
    (fun a b hab => Nat.div_le_div_right (Nat.add_le_add_left hab _)) (fun i hi => column_lt_nc d hi)
    (fun k hk => mask_ne_zero_iff d rom hw (lt_of_lt_of_le hk (d.nc_le hw))) hs

/-- DRAWBMP and DRAWBMP8 allocate alike on a sprite of eight rows and at most 16 columns (44 R244). -/
theorem loop_acquirePixel_eq (hw : d.w ≤ 16) (hs : CanAcquire s) :
    loop (8 * d.w) (acquirePixel d rom) s = loop (8 * d.nc) (acquireCell d rom) s := by
  have hpixels := nest_eq_loop 8 d.w
    (fun j i s => if spriteBit rom d.fb d.w i j = true then (atomicAcquire (pixelCell (d.x + i) (d.y + j)) s).1 else s) s
  have hcells := nest_eq_loop 8 d.nc
    (fun j k s => if d.mask rom k j ≠ 0 then (atomicAcquire (d.cellAt (k, d.cellRow j)) s).1 else s) s
  refine hpixels.symm.trans (Eq.trans ?_ hcells)
  refine loop_congr_of (n := 8)
    (f := fun j => loop d.w fun i s =>
      if spriteBit rom d.fb d.w i j = true then (atomicAcquire (pixelCell (d.x + i) (d.y + j)) s).1 else s)
    (g := fun j => loop d.nc fun k s => if d.mask rom k j ≠ 0 then (atomicAcquire (d.cellAt (k, d.cellRow j)) s).1 else s)
    CanAcquire (fun j u _ hu => ?_) (fun j u _ hu => loop_acquire_row hw j hu) hs
  refine loop_keeps CanAcquire (fun k v _ hv => ?_) hu
  split
  · exact atomicAcquire_canAcquire hv (cellAt_lt _ _)
  · exact hv

theorem loop_acquirePixel_canAcquire (n : Nat) (hs : CanAcquire s) : CanAcquire (loop n (acquirePixel d rom) s) :=
  loop_keeps CanAcquire (fun q _ _ hu => acquirePixel_canAcquire q hu) hs

theorem loop_acquirePixel_memROM (n : Nat) (s : State) : (loop n (acquirePixel d rom) s).memROM = s.memROM := by
  refine loop_keeps (fun u : State => u.memROM = s.memROM) (fun q u _ hu => ?_) rfl
  unfold acquirePixel
  split
  · rw [atomicAcquire_memROM]
    exact hu
  · exact hu

/-- The allocations write no memory but TP. -/
theorem loop_acquireCell_frame (n : Nat) (s : State) :
    loop n (acquireCell d rom) s =
      { s with
        memTP := (loop n (acquireCell d rom) s).memTP
        nextFree := (loop n (acquireCell d rom) s).nextFree } := by
  induction n with
  | zero => rfl
  | succ n ih =>
    rw [loop_succ, acquireCell]
    split
    · rw [atomicAcquire_frame, ih]
    · exact ih

/-! ### DRAWBMP: the allocations, then the writes -/

/-- The write of DRAWBMP for pixel number q, in the slot that the plane `tp` gives its cell (44 R230, R236). -/
def drawMask (d : Sprite) (rom tp : Memory) : Nat → State → State :=
  maskWriteIf d.on (d.bitAt rom)
    (fun q => pixelRow (tp.read (pixelCell (d.x + q % d.w) (d.y + q / d.w))) (d.y + q / d.w))
    (fun q => pixelMask (d.x + q % d.w))

/-- The cells of the pixels drawn hold tiles, and a further allocation leaves them (42 R191). -/
theorem loop_acquirePixel_tile (hs : CanAcquire s) {n q : Nat} (hq : q < n) (hb : d.bitAt rom q = true) :
    (loop n (acquirePixel d rom) s).memTP.read (pixelCell (d.x + q % d.w) (d.y + q / d.w)) ≠ 0 := by
  induction n with
  | zero => omega
  | succ n ih =>
    have hn := loop_acquirePixel_canAcquire (d := d) (rom := rom) n hs
    rw [loop_succ]
    rcases Nat.lt_succ_iff_lt_or_eq.1 hq with hq | rfl
    · rw [acquirePixel_read_of_tile n hn (ih hq)]
      exact ih hq
    · rw [acquirePixel, if_pos hb]
      exact atomicAcquire_holds_tile hn _

/-- The pixels of DRAWBMP come to their allocations followed by their writes, in the slots that the cells hold at the end. -/
theorem loop_drawPixel (hs : CanAcquire s) (n : Nat) (tp : Memory)
    (htp : ∀ q < n, d.bitAt s.memROM q = true → tp.read (pixelCell (d.x + q % d.w) (d.y + q / d.w)) =
      (loop n (acquirePixel d s.memROM) s).memTP.read (pixelCell (d.x + q % d.w) (d.y + q / d.w))) :
    loop n (drawPixel d) s = loop n (drawMask d s.memROM tp) (loop n (acquirePixel d s.memROM) s) := by
  induction n with
  | zero => rfl
  | succ n ih =>
    have hn := loop_acquirePixel_canAcquire (d := d) (rom := s.memROM) n hs
    have hread : ∀ q < n, d.bitAt s.memROM q = true → tp.read (pixelCell (d.x + q % d.w) (d.y + q / d.w)) =
        (loop n (acquirePixel d s.memROM) s).memTP.read (pixelCell (d.x + q % d.w) (d.y + q / d.w)) := fun q hq hb => by
      rw [htp q (by omega) hb, loop_succ, acquirePixel_read_of_tile n hn (loop_acquirePixel_tile hs hq hb)]
    have hlast := htp n (Nat.lt_succ_self n)
    have hrom := loop_acquirePixel_memROM (d := d) (rom := s.memROM) n s
    rw [loop_succ] at hlast
    rw [loop_succ, ih hread, loop_succ n (acquirePixel d s.memROM), loop_succ]
    generalize loop n (acquirePixel d s.memROM) s = u at hn hlast hrom ⊢
    have hrom' : (loop n (drawMask d s.memROM tp) u).memROM = s.memROM := by
      rw [drawMask, loop_maskWriteIf_frame]
      exact hrom
    rw [drawPixel, hrom']
    by_cases hb : d.bitAt s.memROM n = true
    · have hlast := hlast hb
      rw [acquirePixel, if_pos hb, atomicAcquire_read hn.tp] at hlast
      rw [if_pos hb, acquirePixel, if_pos hb, atomicSetPixel, drawMask, atomicAcquire_loop_maskWriteIf, ← hlast,
        maskWriteIf, if_pos hb]
      rfl
    · rw [if_neg hb, acquirePixel, if_neg hb, drawMask, maskWriteIf, if_neg hb]

end

/-! ### DRAWBMP8: the tiles of phase A -/

/-- The tiles that DRAWBMP8 has acquired after the first n numbers of phase A, in the state `u`: every cell column and row with
a mask byte that is not 0 has one (44 R242). -/
structure TilesFor (d : Sprite) (rom : Memory) (n : Nat) (u : State) (tiles : Tiles) : Prop where
  ok : TilesOk d tiles u
  covers : ∀ q < n, d.mask rom (q % d.nc) (q / d.nc) ≠ 0 → (tileAt tiles (d.cellKey q)).isSome = true

section
variable {d : Sprite} {s : State}

/-- One more tile in T (44 R242). -/
theorem tileAt_snoc (tiles : Tiles) (key key' : Nat × Nat) (t : Byte) :
    tileAt (tiles ++ [(key, t)]) key' = (tileAt tiles key').or (if key' = key then some t else none) := by
  rw [tileAt, List.lookup_append, List.lookup_cons, List.lookup_nil]
  rcases eq_or_ne key' key with h | h
  · simp [h, tileAt]
  · simp [h, tileAt, beq_eq_false_iff_ne.2 h]

/-- A number of phase A does the allocation of its cell, and gives the cell a tile in T where its mask byte is not 0. -/
theorem phaseABody_tilesFor {rom : Memory} {q : Nat} {u : State} {tiles : Tiles} (hq : q < 8 * d.nc) (hu : CanAcquire u)
    (hrom : u.memROM = rom) (h : TilesFor d rom q u tiles) :
    (phaseABody d q (u, tiles)).1 = acquireCell d rom q u ∧
      TilesFor d rom (q + 1) (phaseABody d q (u, tiles)).1 (phaseABody d q (u, tiles)).2 := by
  obtain ⟨hok, hcovers⟩ := h
  by_cases hneed : d.needsTile rom tiles q = true
  · obtain ⟨hmask, hnone⟩ := needsTile_iff.1 hneed
    have hbody : phaseABody d q (u, tiles) = ((atomicAcquire (d.cellAt (d.cellKey q)) u).1,
        tiles ++ [(d.cellKey q, (atomicAcquire (d.cellAt (d.cellKey q)) u).2)]) := if_pos (hrom ▸ hneed)
    rw [hbody, acquireCell, if_pos hmask]
    refine ⟨rfl, TilesOk_snoc hok hnone (cellKey_lt d hq) (atomicAcquire_ne_zero hu.alloc _) (atomicAcquire_read hu.tp _)
      (fun e he => ?_), fun p hp hpm => ?_⟩
    · obtain ⟨hne, hread⟩ := hok.held e he
      exact atomicAcquire_read_of_tile hu (hread ▸ hne)
    · rw [tileAt_snoc, Option.isSome_or, Bool.or_eq_true]
      rcases Nat.lt_succ_iff_lt_or_eq.1 hp with hp | rfl
      · exact .inl (hcovers p hp hpm)
      · exact .inr (by rw [if_pos rfl]; rfl)
  · have hbody : phaseABody d q (u, tiles) = (u, tiles) := if_neg (hrom ▸ hneed)
    have hhas : d.mask rom (q % d.nc) (q / d.nc) ≠ 0 → (tileAt tiles (d.cellKey q)).isSome = true := fun hmask => by
      rw [Option.isSome_iff_ne_none]
      exact fun hnone => hneed (needsTile_iff.2 ⟨hmask, hnone⟩)
    rw [hbody]
    refine ⟨?_, hok, fun p hp hpm => ?_⟩
    · unfold acquireCell
      split
      · rename_i hmask
        obtain ⟨t, ht⟩ := Option.isSome_iff_exists.1 (hhas hmask)
        obtain ⟨hne, hread⟩ := hok.held _ (tileAt_mem ht)
        rw [atomicAcquire_of_tile (hread ▸ hne)]
      · rfl
    · rcases Nat.lt_succ_iff_lt_or_eq.1 hp with hp | rfl
      · exact hcovers p hp hpm
      · exact hhas hpm

/-- Phase A does the allocations of its numbers, and T has a tile for every cell that a 1 bit falls into (44 R242). -/
theorem loop_phaseABody (hs : CanAcquire s) (n : Nat) (hn : n ≤ 8 * d.nc) :
    (loop n (phaseABody d) (s, [])).1 = loop n (acquireCell d s.memROM) s ∧
      TilesFor d s.memROM n (loop n (acquireCell d s.memROM) s) (loop n (phaseABody d) (s, [])).2 := by
  induction n with
  | zero => exact ⟨rfl, TilesOk_nil d s, fun q hq => absurd hq (Nat.not_lt_zero q)⟩
  | succ n ih =>
    obtain ⟨hstate, htiles⟩ := ih (by omega)
    have hcan : CanAcquire (loop n (acquireCell d s.memROM) s) :=
      loop_keeps CanAcquire (fun q _ _ hu => acquireCell_canAcquire q hu) hs
    have hrom : (loop n (acquireCell d s.memROM) s).memROM = s.memROM := by rw [loop_acquireCell_frame]
    rw [loop_succ, loop_succ]
    generalize loop n (phaseABody d) (s, []) = st at hstate htiles ⊢
    obtain ⟨u, tiles⟩ := st
    subst hstate
    obtain ⟨hbody, hnext⟩ := phaseABody_tilesFor (by omega) hcan hrom htiles
    exact ⟨hbody, hbody ▸ hnext⟩

end

/-! ### Both paths touch the same bits -/

/-- Bit b of the byte at index a is that of a 1 pixel of the sprite, in the slots that the plane `tp` gives its cells. -/
def SpriteTouches (d : Sprite) (rom tp : Memory) (a b : Nat) : Prop :=
  ∃ j < 8, ∃ i < d.w, spriteBit rom d.fb d.w i j = true ∧
    slotRow (tp.read (d.cellAt ((d.sx + i) / 8, d.cellRow j))) ((d.sy + j) % 8) = a ∧ b + (d.sx + i) % 8 = 7

section
variable {d : Sprite} {rom tp : Memory} {a b : Nat}

/-- The writes of DRAWBMP touch the sprite's bits (44 R236). -/
theorem touches_drawMask_iff : Touches (8 * d.w) (d.bitAt rom)
    (fun q => pixelRow (tp.read (pixelCell (d.x + q % d.w) (d.y + q / d.w))) (d.y + q / d.w))
    (fun q => pixelMask (d.x + q % d.w)) a b ↔ SpriteTouches d rom tp a b := by
  simp only [Touches, SpriteTouches, pixelCell_eq_cellAt, pixelRow_eq_slotRow, pixelMask_getLsbD, Sprite.bitAt]
  constructor
  · rintro ⟨q, hq, hbit, haddr, hb⟩
    have hw : 0 < d.w := Nat.pos_of_mul_pos_left (Nat.zero_lt_of_lt hq)
    exact ⟨q / d.w, Nat.div_lt_of_lt_mul (Nat.mul_comm _ _ ▸ hq), q % d.w, Nat.mod_lt _ hw, hbit, haddr, hb⟩
  · rintro ⟨j, hj, i, hi, hbit, haddr, hb⟩
    obtain ⟨hlt, hmod, hdiv⟩ := rect_number hi hj
    refine ⟨d.w * j + i, hlt.trans_eq (Nat.mul_comm _ _), ?_⟩
    rw [hmod, hdiv]
    exact ⟨hbit, haddr, hb⟩

/-- The writes of phase B touch the sprite's bits (44 R242). -/
theorem touches_phaseB_iff (hw : d.w ≤ 16) {u : State} {tiles : Tiles} (h : TilesFor d rom (8 * d.nc) u tiles) :
    Touches (2 * d.nc * 8) (d.hasRow tiles) (d.rowAddr tiles) (fun q => d.mask rom (q / 8 % d.nc) (q % 8)) a b ↔
      SpriteTouches d rom u.memTP a b := by
  obtain ⟨hok, hcovers⟩ := h
  have hcol : ∀ q, q / 8 % d.nc < 3 := fun q => lt_of_lt_of_le (Nat.mod_lt _ d.nc_pos) (d.nc_le hw)
  constructor
  · rintro ⟨q, -, hrow, haddr, hb⟩
    obtain ⟨⟨t, ht⟩, hr⟩ := hasRow_iff.1 hrow
    obtain ⟨i, hi, hbit, hk, hb⟩ := (mask_getLsbD d rom hw (hcol q)).1 hb
    refine ⟨q % 8, Nat.mod_lt _ (by decide), i, hi, hbit, ?_, hb⟩
    rw [← haddr, hk, hr, Sprite.rowAddr, ht, (hok.held _ (tileAt_mem ht)).2]
    rfl
  · rintro ⟨j, hj, i, hi, hbit, haddr, hb⟩
    have hk := column_lt_nc d hi
    obtain ⟨hlt, hmod, hdiv⟩ := rect_number hk hj
    obtain ⟨hlt', hmod', hdiv'⟩ := rect_number hk (d.cellRow_lt hj)
    have hk3 := lt_of_lt_of_le hk (d.nc_le hw)
    have hmask := (mask_ne_zero_iff d rom hw (j := j) hk3).2 ⟨i, hi, hbit, rfl⟩
    have hsome := hcovers (d.nc * j + (d.sx + i) / 8) (hlt.trans_eq (Nat.mul_comm _ _)) (by rw [hmod, hdiv]; exact hmask)
    rw [Sprite.cellKey, hmod, hdiv] at hsome
    obtain ⟨t, ht⟩ := Option.isSome_iff_exists.1 hsome
    have hdiv8 : ((d.nc * d.cellRow j + (d.sx + i) / 8) * 8 + j) / 8 = d.nc * d.cellRow j + (d.sx + i) / 8 := by omega
    have hmod8 : ((d.nc * d.cellRow j + (d.sx + i) / 8) * 8 + j) % 8 = j := by omega
    refine ⟨(d.nc * d.cellRow j + (d.sx + i) / 8) * 8 + j, by omega, hasRow_iff.2 ?_, ?_, ?_⟩
    · rw [hdiv8, hmod8, hmod', hdiv']
      exact ⟨⟨t, ht⟩, rfl⟩
    · rw [← haddr, Sprite.rowAddr, hdiv8, hmod8, hmod', hdiv', ht, (hok.held _ (tileAt_mem ht)).2]
      rfl
    · simp only [hdiv8, hmod8, hmod']
      exact (mask_getLsbD d rom hw hk3).2 ⟨i, hi, hbit, rfl, hb⟩

end

/-- DRAWBMP's pseudocode and DRAWBMP8's leave the same state on a sprite of eight rows and at most 16 columns (44 R244). -/
theorem atomicDraw_eq_atomicDraw8 {d : Sprite} (hh : d.h = 8) (hw : d.w ≤ 16) {s : State} (hm : s.MemOk) (ha : AllocOk s) :
    atomicDraw d s = atomicDraw8 d s := by
  have hs : CanAcquire s := ⟨hm.tp, ha⟩
  obtain ⟨hstate, htiles⟩ := loop_phaseABody (d := d) hs (8 * d.nc) le_rfl
  have halloc := loop_acquirePixel_eq (rom := s.memROM) hw hs
  have hframe := loop_acquireCell_frame (d := d) (rom := s.memROM) (8 * d.nc) s
  rw [atomicDraw_eq, atomicDraw8, atomicPhaseA_eq, hh]
  rw [hstate, atomicPhaseB_eq, loop_drawPixel hs (8 * d.w) _ fun _ _ _ => rfl, halloc]
  generalize loop (8 * d.nc) (acquireCell d s.memROM) s = u at htiles hframe ⊢
  generalize (loop (8 * d.nc) (phaseABody d) (s, [])).2 = tiles at htiles ⊢
  have hphaseB : loop (2 * d.nc * 8) (phaseBBody d tiles) u = loop (2 * d.nc * 8) (maskWriteIf d.on (d.hasRow tiles)
      (d.rowAddr tiles) fun q => d.mask s.memROM (q / 8 % d.nc) (q % 8)) u :=
    loop_congr_of (f := phaseBBody d tiles) (g := maskWriteIf d.on (d.hasRow tiles) (d.rowAddr tiles) fun q =>
        d.mask s.memROM (q / 8 % d.nc) (q % 8))
      (fun v => v.memROM = s.memROM)
      (fun k v _ hv => by unfold maskWriteIf; split; exacts [hv, hv])
      (fun k v _ hv => by rw [phaseBBody, hv]; rfl) (by rw [hframe])
  rw [hphaseB, drawMask]
  congr 1
  exact loop_maskWriteIf_eq (by rw [hframe]; exact hm.ramf) (fun _ => pixelRow_lt _ _) (fun _ => rowAddr_lt _ _ _) fun a b =>
    touches_drawMask_iff.trans (touches_phaseB_iff hw htiles).symm

/-- DRAWBMP8 inside its restriction, started where no command is in flight, runs to its pseudocode (44 R242). -/
theorem drawbmp8_runsIn {x y w h : BitVec 16} {base : Word} {frame : Byte} {on paint : Bool} {color : Byte}
    (hr : inRestriction w h base) {s : State} (hcur : s.cur = none) :
    ∃ n, RunsIn (.drawbmp8 x y w h base frame on paint color) n s (retire (.drawbmp8 x y w h base frame on paint color)
      (atomicDraw8 (spriteOf x y w h base frame on paint color) s)) := by
  refine RunsOn.start (drawbmp8_eq hr s) ?_
  have hrun : RunsOn _ _ _ := cellsFrom_runsOn (x := x) (y := y) (frame := frame) (on := on) (paint := paint)
    (color := color) hr (8 * (spriteOf x y w h base frame on paint color).nc) 0 (Nat.zero_add _) [] s
  rw [loopFrom_zero, ← atomicPhaseA_eq] at hrun
  rw [draw8Step, hcur]
  exact hrun

/-- Settles O50: both commands run to their pseudocode, and by `atomicDraw_eq_atomicDraw8` that is one state. -/
theorem fastAndGenericBlitAgree : Obligations.FastAndGenericBlitAgree := by
  intro x y w h base frame on paint color s hs hcur hh hw1 hw hbase
  have hw0 : w ≠ 0 := by
    rintro rfl
    exact Nat.not_succ_le_zero 0 hw1
  have hn : nullSprite w h base = false := by
    rw [← Bool.not_eq_true, nullSprite_iff, hh]
    rintro (h0 | h0 | h0)
    exacts [hw0 h0, absurd h0 (by decide), hbase h0]
  obtain ⟨n, hdraw⟩ := drawbmp_runsIn (x := x) (y := y) (frame := frame) (on := on) (paint := paint) (color := color) hn hcur
  obtain ⟨m, hdraw8⟩ := drawbmp8_runsIn (x := x) (y := y) (frame := frame) (on := on) (paint := paint) (color := color)
    ⟨hw0, hbase, hh, hw⟩ hcur
  have hd : (spriteOf x y w h base frame on paint color).h = 8 := congrArg BitVec.toNat hh
  rw [← atomicDraw_eq_atomicDraw8 hd hw hs.mem hs.alloc] at hdraw8
  exact ⟨n, m, _, hdraw, hdraw8⟩

end Sys2Proof.Machine
end

section
/-! The step of the engine, agent by agent (60 R271 to R276): which agent's step it is, what that step runs, and where there is
none. -/

namespace Sys2Proof.Machine

/-! ### The agent that moves -/

section
variable {s : State}

/-- Where CMD has no step and the timers run, the step is a tick (60 R271). -/
theorem step_of_idle (hi : s.irqPend = false) (hr : s.run = true) (hc : cmdEnabled s = false) : step s = .next (tick s) := by
  simp [step, nextStep, mover, afterChoice, choiceOpen, tickEnabled, hi, hr, hc]

/-- Where CMD has no step and the timers are held, no agent moves (60 R276). -/
theorem step_of_stuck (hi : s.irqPend = false) (hr : s.run = false) (hc : cmdEnabled s = false) :
    step s = .fault (stuckReason s) := by
  simp [step, nextStep, mover, choiceOpen, tickEnabled, hi, hr, hc]

/-- Where CMD has a step and the timers are held, the step is CMD's (60 R272). -/
theorem step_of_held (hr : s.run = false) (hc : cmdEnabled s = true) : step s = cmdStep s := by
  simp [step, nextStep, mover, afterChoice, choiceOpen, tickEnabled, (cmdEnabled_iff.1 hc).1, hr, hc]

/-- The choice between the two agents is open where the timers run and CMD has a step (60 R274). -/
theorem choiceOpen_iff : choiceOpen s = true ↔ s.run = true ∧ cmdEnabled s = true := by
  simp only [choiceOpen, tickEnabled, Bool.and_eq_true, Bool.not_eq_true']
  exact ⟨fun ⟨⟨hr, _⟩, hc⟩ => ⟨hr, hc⟩, fun ⟨hr, hc⟩ => ⟨⟨hr, (cmdEnabled_iff.1 hc).1⟩, hc⟩⟩

/-- The step that the schedule gives to TMR (60 R274). -/
theorem step_of_turn_tmr (hr : s.run = true) (hc : cmdEnabled s = true) (hn : nextTurn s = .tmr) :
    step s = .next (tick (popTurn s)) := by
  simp [step, nextStep, mover, afterChoice, choiceOpen_iff.2 ⟨hr, hc⟩, (cmdEnabled_iff.1 hc).1, hn]

/-- The step that the schedule gives to CMD (60 R274). -/
theorem step_of_turn_cmd (hr : s.run = true) (hc : cmdEnabled s = true) (hn : nextTurn s = .cmd) :
    step s = cmdStep (popTurn s) := by
  simp [step, nextStep, mover, afterChoice, choiceOpen_iff.2 ⟨hr, hc⟩, (cmdEnabled_iff.1 hc).1, hn]

/-- Where CMD has a step, it is the next one with the timers held, and with the timers running where the next choice is CMD's,
which that step takes (60 R272, R274; log 5). -/
theorem step_of_cmdEnabled (hc : cmdEnabled s = true) :
    (s.run = false → step s = cmdStep s) ∧
    (∀ rest, s.run = true → s.sched = .cmd :: rest → step s = cmdStep { s with sched := rest }) := by
  refine ⟨fun hr => step_of_held hr hc, fun rest hr hs => ?_⟩
  rw [step_of_turn_cmd hr hc (nextTurn_cons hs), popTurn_cons hs]

/-! ### What the step of CMD runs -/

theorem cmdStep_of_inFlight {c : InFlight} (hcur : s.cur = some c) : cmdStep s = exec c.instr s := by
  simp only [cmdStep, hcur]

theorem cmdStep_of_fetched {i : Instr} (hcur : s.cur = none) (hfetch : fetch s = .ok i) : cmdStep s = exec i s := by
  simp only [cmdStep, hcur, hfetch]

/-- A word with no meaning is a command fault (60 R282). -/
theorem cmdStep_of_meaningless {e : DecodeError} (hcur : s.cur = none) (hfetch : fetch s = .error e) :
    cmdStep s = .next (raiseCmdFault e.cause s) := by
  simp only [cmdStep, hcur, hfetch]

/-- CMD has a step where a word is left to fetch (60 R272). -/
theorem cmdEnabled_of_fetch (hi : s.irqPend = false) (hf : s.cmdFault = false) (hcur : s.cur = none)
    (hcp : s.cp < s.prog.length) : cmdEnabled s = true := cmdEnabled_iff.2 ⟨hi, hf, .inr ⟨hcur, hcp⟩⟩

end

/-- Settles O9: REN moves before the others. -/
theorem pendingInterruptRunsTheLineService : Obligations.PendingInterruptRunsTheLineService := fun _ => step_of_irqPend

/-- Settles O10: the step is CMD's, and with no command in flight that is the start of the command fetched. -/
theorem stepRunsTheDecodedCommand : Obligations.StepRunsTheDecodedCommand := by
  intro s i hi hf hcur hcp hfetch
  obtain ⟨held, running⟩ := step_of_cmdEnabled (cmdEnabled_of_fetch hi hf hcur hcp)
  refine ⟨fun hr => ?_, fun rest hr hs => ?_⟩
  · rw [held hr, cmdStep_of_fetched hcur hfetch]
  · rw [running rest hr hs]
    exact cmdStep_of_fetched hcur hfetch

/-- Settles O11: the step is CMD's, and with a command in flight it goes on with that. -/
theorem stepGoesOnWithTheCommandInFlight : Obligations.StepGoesOnWithTheCommandInFlight := by
  intro s c hi hf hcur hready
  obtain ⟨held, running⟩ := step_of_cmdEnabled (cmdEnabled_iff.2 ⟨hi, hf, .inl ⟨c, hcur, inFlightReady_iff.2 hready⟩⟩)
  refine ⟨fun hr => ?_, fun rest hr hs => ?_⟩
  · rw [held hr, cmdStep_of_inFlight hcur]
  · rw [running rest hr hs]
    exact cmdStep_of_inFlight hcur

/-- Settles O12: TMR moves alone where CMD has no step, and by the schedule's choice where it has one. -/
theorem tickMayAlwaysComeNext : Obligations.TickMayAlwaysComeNext := by
  intro s hr hi
  refine ⟨fun hc => step_of_idle hi hr hc, fun rest hc hs => ?_⟩
  rw [step_of_turn_tmr hr hc (nextTurn_cons hs), popTurn_cons hs]

/-- Settles O28: the step is CMD's, and it is a command fault, the first one, with the cause of the word. -/
theorem meaninglessWordRaisesCmdFault : Obligations.MeaninglessWordRaisesCmdFault := by
  intro s e hi hf hcur hcp hfetch code
  have hcode : code = e.cause := by cases e <;> rfl
  obtain ⟨held, running⟩ := step_of_cmdEnabled (cmdEnabled_of_fetch hi hf hcur hcp)
  refine ⟨fun hr => ?_, fun rest hr hs => ?_⟩
  · rw [held hr, cmdStep_of_meaningless hcur hfetch, raiseCmdFault, hf, hcode]
    rfl
  · have hstep : cmdStep { s with sched := rest } = _ := cmdStep_of_meaningless hcur hfetch
    rw [running rest hr hs, hstep, raiseCmdFault, hf, hcode]
    rfl

/-- Settles O29: after a command fault CMD has no step, and a step of another agent leaves the foreground. -/
theorem faultedSequencerStaysHalted : Obligations.FaultedSequencerStaysHalted := by
  intro s s' hf h
  have hidle : cmdEnabled s = false := by simp [cmdEnabled, hf]
  obtain ⟨hi, rfl⟩ | ⟨hi, hr, ⟨-, rfl⟩ | ⟨hc, -⟩⟩ | ⟨-, hc, -⟩ := step_cases h
  · exact ⟨lineService_foreground s, .inl ⟨rfl, hi⟩⟩
  · exact ⟨rfl, .inr ⟨rfl, hi, hr⟩⟩
  · simp [hidle] at hc
  · simp [hidle] at hc

/-- Settles O31: START looks at RUN before its operands. -/
theorem startWhileRunningIsRefused : Obligations.StartWhileRunningIsRefused := fun _ _ _ hr => if_pos hr

/-! ### Where the engine stops -/

/-- A command that has a position of its pseudocode in CUR is not START, which has none (40 R130). -/
theorem InFlight.PosOk.ne_start {c : InFlight} {s : State} (h : c.PosOk s) (alt : Bool) (base : Word) :
    c.instr ≠ .start alt base := by
  obtain ⟨i, p⟩ := c
  rintro rfl
  exact h

/-- A command in flight whose step is enabled answers a next state (60 R272). -/
theorem exec_next_of_inFlight {s : State} {c : InFlight} (hs : s.Inv) (hcur : s.cur = some c) (hc : cmdEnabled s = true) :
    ∃ t, exec c.instr s = .next t := by
  obtain ⟨-, -, ⟨c', hcur', hready⟩ | ⟨hidle, -⟩⟩ := cmdEnabled_iff.1 hc
  · obtain rfl : c' = c := Option.some.inj (hcur'.symm.trans hcur)
    refine exec_next _ s (fun alt base he => absurd he ((hs.inFlight _ hcur).2.ne_start alt base)) fun n hn d ws hd hpos => ?_
    obtain rfl : c' = d := Option.some.inj (hcur'.symm.trans hd)
    exact inFlightReady_iff.1 hready n ws hn hpos
  · simp [hidle] at hcur

/-- A step of CMD that is enabled answers a next state, or is the refusal of a START fetched with RUN = 1 (60 R272, R288). -/
theorem cmdStep_next_or_refused {s : State} (hs : s.Inv) (hc : cmdEnabled s = true) :
    (∃ t, cmdStep s = .next t) ∨
    cmdStep s = .refused .startWhileRunning ∧ s.cur = none ∧ ∃ alt base, fetch s = .ok (.start alt base) := by
  rcases hcur : s.cur with _ | c
  · rcases hfetch : fetch s with e | i
    · exact .inl ⟨_, cmdStep_of_meaningless hcur hfetch⟩
    · rw [cmdStep_of_fetched hcur hfetch]
      by_cases hstart : ∃ alt base, i = .start alt base ∧ s.run = true
      · obtain ⟨alt, base, rfl, hr⟩ := hstart
        exact .inr ⟨startWhileRunningIsRefused alt base s hr, rfl, alt, base, rfl⟩
      · refine .inl (exec_next i s (fun alt base he => ?_) (by simp [hcur]))
        exact Bool.eq_false_iff.2 fun hr => hstart ⟨alt, base, he, hr⟩
  · rw [cmdStep_of_inFlight hcur]
    exact .inl (exec_next_of_inFlight hs hcur hc)

/-- Settles O14: with RUN = 1 a service or a tick is a next state, and CMD's step is one or the refusal of a START. -/
theorem engineStopsWhileRunningOnlyAtStart : Obligations.EngineStopsWhileRunningOnlyAtStart := by
  intro s hs hr
  rcases hi : s.irqPend with _ | _
  · rcases hc : cmdEnabled s with _ | _
    · exact .inl ⟨_, step_of_idle hi hr hc⟩
    · rcases hn : nextTurn s with _ | _
      · exact .inl ⟨_, step_of_turn_tmr hr hc hn⟩
      · have hcmd := cmdStep_next_or_refused (popTurn_inv hs) hc
        rw [fetch_popTurn] at hcmd
        rw [step_of_turn_cmd hr hc hn]
        exact hcmd
  · exact .inl ⟨_, step_of_irqPend hi⟩

/-- CMD has no step with a command in flight and no interrupt pending exactly where that is a WAITF that still waits (60 R286). -/
theorem cmdEnabled_eq_false_iff {s : State} {c : InFlight} (hi : s.irqPend = false) (hf : s.cmdFault = false)
    (hcur : s.cur = some c) : cmdEnabled s = false ↔
      ∃ n ws, c = { instr := .waitf n, pos := .waiting ws } ∧ (s.frameCount - ws).toNat < n.toNat := by
  have hready : cmdEnabled s = inFlightReady c s := by simp [cmdEnabled, hi, hf, hcur]
  rw [hready, ← Bool.not_eq_true, inFlightReady_iff]
  push Not
  constructor
  · rintro ⟨n, ws, hn, hws, hlt⟩
    exact ⟨n, ws, by cases c; simp_all, hlt⟩
  · rintro ⟨n, ws, rfl, hlt⟩
    exact ⟨n, ws, rfl, rfl, hlt⟩

/-- The engine stops in a fault only with RUN = 0 and no step of CMD enabled (60 R276). -/
theorem stopped_of_step_fault {s : State} {f : Fault} (hs : s.Inv) (h : step s = .fault f) :
    s.run = false ∧ cmdEnabled s = false ∧ f = stuckReason s := by
  rcases hr : s.run with _ | _
  · rcases hc : cmdEnabled s with _ | _
    · rw [step_of_stuck (hs.atZero hr).irqPend hr hc] at h
      cases h
      exact ⟨rfl, rfl, rfl⟩
    · rw [step_of_held hr hc] at h
      obtain ⟨t, hnext⟩ | ⟨hrefused, -⟩ := cmdStep_next_or_refused hs hc
      · cases h.symm.trans hnext
      · cases h.symm.trans hrefused
  · obtain ⟨t, hnext⟩ | ⟨hrefused, -⟩ := engineStopsWhileRunningOnlyAtStart s hs hr
    · cases h.symm.trans hnext
    · cases h.symm.trans hrefused

/-- The reason is a wait where no command has faulted and one is in flight (log 7). -/
theorem stuckReason_eq_waitStuck_iff {s : State} : stuckReason s = .waitStuck ↔ s.cmdFault = false ∧ ∃ c, s.cur = some c := by
  unfold stuckReason
  rcases s.cmdFault with _ | _ <;> rcases s.cur with _ | c <;> simp

/-- Settles O16: the engine stops in a wait with RUN = 0 and a command in flight that has no step, which is a WAITF. -/
theorem stuckInAWaitOnlyInWaitf : Obligations.StuckInAWaitOnlyInWaitf := by
  intro s hs
  constructor
  · intro h
    obtain ⟨hr, hc, hreason⟩ := stopped_of_step_fault hs h
    obtain ⟨hf, c, hcur⟩ := stuckReason_eq_waitStuck_iff.1 hreason.symm
    obtain ⟨n, ws, rfl, hlt⟩ := (cmdEnabled_eq_false_iff (hs.atZero hr).irqPend hf hcur).1 hc
    exact ⟨hr, n, ws, hcur, hlt⟩
  · rintro ⟨hr, n, ws, hcur, hlt⟩
    have hi := (hs.atZero hr).irqPend
    have hf : s.cmdFault = false := Bool.eq_false_iff.2 fun hf => by simp [hs.fault.2 hf] at hcur
    rw [step_of_stuck hi hr ((cmdEnabled_eq_false_iff hi hf hcur).2 ⟨n, ws, rfl, hlt⟩),
      stuckReason_eq_waitStuck_iff.2 ⟨hf, _, hcur⟩]

/-! ### The command put where the next step fetches -/

/-- What follows the words of a command does not matter to the decoder (30 R92). -/
theorem decode_append {ws : List Word} {i : Instr} (h : decode ws = .ok i) (rest : List Word) : decode (ws ++ rest) = .ok i := by
  rw [← List.take_append_drop i.len ws, encodeOfDecodeIsTheWords ws i h, List.append_assoc]
  exact decodeOfEncodeIsTheCommand i _

theorem decodeTableWord_iff {nbits w : Nat} {i : Instr} :
    decodeTableWord nbits w = some i ↔ decode (tableWords nbits w) = .ok i := by
  unfold decodeTableWord
  split <;> simp_all

/-- At cp the program with a command's bits put there holds their words (log 11). -/
theorem progWithWords_drop (s : State) (nbits w : Nat) :
    (progWithWords s nbits w).drop s.cp = tableWords nbits w ++ s.prog.drop (s.cp + maxWords) := by
  have hlen : (s.prog.take s.cp ++ List.replicate (s.cp - s.prog.length) 0).length = s.cp := by
    rw [List.length_append, List.length_take, List.length_replicate]
    omega
  rw [progWithWords, List.append_assoc (s.prog.take s.cp ++ _)]
  exact List.drop_left' hlen

/-- Settles O60: the bits are the words at cp, so they are fetched, and the step is CMD's, which takes its choice, if there was
one, off the schedule again. -/
theorem fetchWordIsWhatRunsNext : Obligations.FetchWordIsWhatRunsNext := by
  intro s nbits w i h
  let u := s.withFetchWord nbits w
  have hdrop : u.prog.drop u.cp = _ := progWithWords_drop s nbits w
  have hfetch : fetch u = .ok i := by
    rw [fetch, hdrop]
    exact decode_append (decodeTableWord_iff.1 h) _
  have hcp : u.cp < u.prog.length := by
    have hlen := congrArg List.length hdrop
    simp only [List.length_drop, List.length_append, tableWords, List.length_cons] at hlen
    omega
  obtain ⟨held, running⟩ := stepRunsTheDecodedCommand u i rfl rfl rfl hcp hfetch
  refine ⟨hfetch, ?_⟩
  rcases hr : s.run with _ | _
  · have hsched : u.sched = s.sched := if_neg (by simp [hr])
    rw [held hr, ← hsched]
  · exact running s.sched hr (if_pos hr)

end Sys2Proof.Machine
end

section
/-! Every run of the engine is fair (60 R274). Seen from any state, either turn comes after some number of choices, because a block
of choices past the end of the schedule ends in one turn for each agent (log 5); and each step at which an agent could move and does
not is one choice nearer to its turn. -/

namespace Sys2Proof.Machine

/-! ### The coming choices -/

/-- Each agent has a turn among the choices past the end of the schedule (log 5). -/
theorem mem_comingTurns_of_ended {s : State} (h : s.sched = []) (t : Turn) : t ∈ comingTurns s := by
  cases t <;> simp [comingTurns, h]

theorem comingTurns_of_cons {s : State} {t : Turn} {rest : List Turn} (h : s.sched = t :: rest) :
    comingTurns s = t :: rest := by
  simp only [comingTurns, h]

theorem comingTurns_popTurn {s : State} {t t' : Turn} {rest : List Turn} (h : comingTurns s = t :: t' :: rest) :
    comingTurns (popTurn s) = t' :: rest :=
  comingTurns_of_cons (by rw [popTurn_sched, h, List.tail_cons])

/-- A turn among the coming choices comes. -/
theorem exists_turn_of_mem {s : State} {t : Turn} (h : t ∈ comingTurns s) : ∃ k, nextTurn (popTurn^[k] s) = t := by
  generalize hl : comingTurns s = l at h
  induction l generalizing s with
  | nil => simp at h
  | cons t' rest ih =>
    by_cases ht : t' = t
    · exact ⟨0, by simp [nextTurn, hl, ht]⟩
    · have hmem : t ∈ rest := (List.mem_cons.1 h).resolve_left (Ne.symm ht)
      obtain ⟨t'', rest', rfl⟩ := List.exists_cons_of_ne_nil (List.ne_nil_of_mem hmem)
      obtain ⟨k, hk⟩ := ih (comingTurns_popTurn hl) hmem
      exact ⟨k + 1, hk⟩

/-- The listed schedule runs out. -/
theorem exists_sched_ended (s : State) : ∃ k, (popTurn^[k] s).sched = [] := by
  generalize hl : s.sched = l
  induction l generalizing s with
  | nil => exact ⟨0, hl⟩
  | cons t rest ih =>
    obtain ⟨k, hk⟩ := ih (popTurn s) (by rw [popTurn_cons hl])
    exact ⟨k + 1, hk⟩

/-- Whatever the schedule, either turn comes after some number of choices (60 R274; log 5). -/
theorem exists_turn (s : State) (t : Turn) : ∃ k, nextTurn (popTurn^[k] s) = t := by
  obtain ⟨j, hj⟩ := exists_sched_ended s
  obtain ⟨k, hk⟩ := exists_turn_of_mem (mem_comingTurns_of_ended hj t)
  exact ⟨k + j, by rwa [Function.iterate_add_apply]⟩

/-- The same choices are to come in `t` as in `s`. -/
structure SameSchedule (s t : State) : Prop where
  sched : t.sched = s.sched
  turnCount : t.turnCount = s.turnCount

theorem SameSchedule.comingTurns {s t : State} (h : SameSchedule s t) : comingTurns t = comingTurns s := by
  simp only [Machine.comingTurns, h.sched, h.turnCount]

theorem SameSchedule.popTurn {s t : State} (h : SameSchedule s t) : SameSchedule (popTurn s) (popTurn t) where
  sched := by rw [popTurn_sched, popTurn_sched, h.comingTurns]
  turnCount := by rw [popTurn_turnCount, popTurn_turnCount, h.sched, h.turnCount]

/-- The turn that comes after `k` choices is a matter of the schedule alone. -/
theorem SameSchedule.nextTurn_iterate {s t : State} (h : SameSchedule s t) (k : Nat) :
    nextTurn (Machine.popTurn^[k] t) = nextTurn (Machine.popTurn^[k] s) := by
  induction k generalizing s t with
  | zero => exact congrArg (List.headD · .tmr) h.comingTurns
  | succ k ih => exact ih h.popTurn

theorem cmdStep_sameSchedule {s t : State} (h : cmdStep s = .next t) : SameSchedule s t := by
  obtain ⟨c, -, hexec⟩ | ⟨-, i, -, hexec⟩ | ⟨-, e, -, rfl⟩ := cmdStep_cases h
  · exact ⟨(exec_sameOutside hexec).sched, (exec_sameOutside hexec).turnCount⟩
  · exact ⟨(exec_sameOutside hexec).sched, (exec_sameOutside hexec).turnCount⟩
  · exact ⟨rfl, rfl⟩

/-- Where the choice is open the step takes it, and nothing else of the schedule (60 R274). -/
theorem step_takes_choice {s t : State} (ho : choiceOpen s = true) (h : step s = .next t) : SameSchedule (popTurn s) t := by
  obtain ⟨hr, hc⟩ := choiceOpen_iff.1 ho
  rcases hn : nextTurn s with _ | _
  · rw [step_of_turn_tmr hr hc hn] at h
    cases h
    exact ⟨rfl, rfl⟩
  · rw [step_of_turn_cmd hr hc hn] at h
    exact cmdStep_sameSchedule h

/-! ### The agent whose turn it is -/

/-- The agent that a turn is for. -/
def agentOf : Turn → Agent
  | .tmr => .tmr
  | .cmd => .cmd

/-- With no interrupt pending, an agent that has a step moves, or the choice is open and the turn is not its own (60 R274). -/
theorem mover_or_other_turn {s : State} {t : Turn} (hi : s.irqPend = false) (he : enabled (agentOf t) s = true) :
    mover s = some (agentOf t) ∨ choiceOpen s = true ∧ nextTurn s ≠ t := by
  obtain ⟨hi', -⟩ | ⟨-, ⟨hr, hc, ho, ⟨hn, hm⟩ | ⟨hn, hm⟩⟩ | ⟨hr, hc, ho, hm⟩ | ⟨hr, hc, ho, hm⟩ | ⟨hr, hc, ho, hm⟩⟩ :=
    mover_cases s
  · simp [hi] at hi'
  all_goals cases t <;> simp_all [agentOf, enabled, tickEnabled]

/-- An agent moves at some step from `n` on, or has no enabled step at one at which no interrupt is pending (60 R274). -/
def FairFrom (r : Nat → State) (a : Agent) (n : Nat) : Prop :=
  ∃ m, n ≤ m ∧ (mover (r m) = some a ∨ (r m).irqPend = false ∧ enabled a (r m) = false)

theorem FairFrom.of_later {r : Nat → State} {a : Agent} {n n' : Nat} (hn : n ≤ n') (h : FairFrom r a n') : FairFrom r a n :=
  h.imp fun _ hm => ⟨hn.trans hm.1, hm.2⟩

section
variable {r : Nat → State} (hr : IsRun r)
include hr

/-- After at most one line service no interrupt is pending, and the same choices are to come (60 R273). -/
theorem exists_not_pending (n : Nat) : ∃ m, n ≤ m ∧ (r m).irqPend = false ∧ SameSchedule (r n) (r m) := by
  rcases hi : (r n).irqPend with _ | _
  · exact ⟨n, le_rfl, hi, rfl, rfl⟩
  · have hstep := hr n
    rw [step_of_irqPend hi, Host.Outcome.next.injEq] at hstep
    refine ⟨n + 1, Nat.le_succ n, ?_, ?_⟩ <;> rw [← hstep]
    · rfl
    · exact ⟨lineService_sched _, lineService_turnCount _⟩

/-- An agent is treated fairly from `n` on, or the next open choice is another agent's (60 R274). -/
theorem fairFrom_or_other_turn (t : Turn) (n : Nat) : FairFrom r (agentOf t) n ∨
    ∃ m, n ≤ m ∧ SameSchedule (r n) (r m) ∧ choiceOpen (r m) = true ∧ nextTurn (r m) ≠ t := by
  obtain ⟨m, hm, hi, same⟩ := exists_not_pending hr n
  rcases he : enabled (agentOf t) (r m) with _ | _
  · exact .inl ⟨m, hm, .inr ⟨hi, he⟩⟩
  · obtain hmove | hother := mover_or_other_turn hi he
    · exact .inl ⟨m, hm, .inl hmove⟩
    · exact .inr ⟨m, hm, same, hother⟩

/-- An agent whose turn comes after `k` choices is not starved: each open choice that another agent takes is one of them. -/
theorem fairFrom_of_turn {t : Turn} (k n : Nat) (hk : nextTurn (popTurn^[k] (r n)) = t) : FairFrom r (agentOf t) n := by
  induction k generalizing n with
  | zero =>
    obtain hfair | ⟨m, -, same, -, hother⟩ := fairFrom_or_other_turn hr t n
    · exact hfair
    · exact absurd ((same.nextTurn_iterate 0).trans hk) hother
  | succ k ih =>
    obtain hfair | ⟨m, hm, same, ho, -⟩ := fairFrom_or_other_turn hr t n
    · exact hfair
    · refine (ih (m + 1) ?_).of_later (Nat.le_succ_of_le hm)
      rw [(step_takes_choice ho (hr m)).nextTurn_iterate k]
      exact (same.nextTurn_iterate (k + 1)).trans hk

end

/-- Settles O15: REN moves wherever an interrupt is pending, and the turn of either of the others comes. -/
theorem everyRunIsFair : Obligations.EveryRunIsFair := by
  intro r hr a n
  have turnComes (t : Turn) : FairFrom r (agentOf t) n := (exists_turn (r n) t).elim fun k => fairFrom_of_turn hr k n
  cases a with
  | ren =>
    rcases hi : (r n).irqPend with _ | _
    · exact ⟨n, le_rfl, .inr ⟨hi, hi⟩⟩
    · exact ⟨n, le_rfl, .inl (by simp [mover, hi])⟩
  | tmr => exact turnComes .tmr
  | cmd => exact turnComes .cmd

end Sys2Proof.Machine
end

section
/-! The commands from their start to their retirement (60 R275, R286): every step answers a next state, every command but WAITF
retires from wherever it stands, and a command run without interruption does what its pseudocode says. -/

namespace Sys2Proof.Machine

/-- Settles O53: what a started command answers is `exec_next`, and where that leaves it `exec_retires_or_holds`. -/
theorem everyCommandStarts : Obligations.EveryCommandStarts := by
  intro i s hcur hstart
  obtain ⟨t, ht⟩ := exec_next i s hstart (by simp [hcur])
  exact ⟨t, ht, exec_retires_or_holds ht⟩

/-- Settles O54: what the command in flight answers is `exec_next_of_inFlight`, and where that leaves it `exec_retires_or_holds`. -/
theorem everyCommandInFlightGoesOn : Obligations.EveryCommandInFlightGoesOn := by
  intro s c hs hcur hc
  obtain ⟨t, ht⟩ := exec_next_of_inFlight hs hcur hc
  exact ⟨t, ht, exec_retires_or_holds ht⟩

/-! ### Commands that retire from where they stand -/

/-- The command has retired in `u`, or is in flight there and retires from there on. -/
def Retires (i : Instr) (u : State) : Prop := ∃ t, RunsOn i u t

theorem Retires.done (i : Instr) (s : State) : Retires i (retire i s) := ⟨_, RunsOn.done i s⟩

/-- A command in flight whose step leads to where it retires. -/
theorem Retires.held {i : Instr} {p : Pos} {v u : State} (h : exec i (hold i p v) = .next u) (rest : Retires i u) :
    Retires i (hold i p v) :=
  rest.imp fun _ => RunsOn.held h

/-- A command in flight runs from its step to its retirement. -/
theorem Retires.runsIn {i : Instr} {s u : State} (h : exec i s = .next u) (rest : Retires i u) : ∃ n t, RunsIn i n s t := by
  obtain ⟨t, ht⟩ := rest
  obtain ⟨n, hn⟩ := RunsOn.start h ht
  exact ⟨n, t, hn⟩

/-- A command of a number of accesses that stays the same while it runs retires from every number it stands at (60 R275). -/
theorem accessLoop_retires {i : Instr} {total : Nat} {access : Nat → State → State} {finish : State → State}
    (P : State → Prop) (hexec : ∀ u, P u → exec i u = .next (accessLoop i total access finish u))
    (hP : ∀ k u, P u → P (hold i (.index (k + 1)) (access k u))) {u : State} (hu : P u) :
    Retires i (accessLoop i total access finish u) := by
  generalize hleft : total - indexPos u = left
  induction left generalizing u with
  | zero =>
    rw [accessLoop, if_neg (by omega)]
    exact .done i _
  | succ left ih =>
    rw [accessLoop, if_pos (by omega)]
    split
    · refine .held (hexec _ (hP _ _ hu)) (ih (hP _ _ hu) ?_)
      show total - (indexPos u + 1) = left
      omega
    · exact .done i _

/-- A SetPixel call goes from any of its positions to what follows its last access (44 R230); `step`, `pos` and `done` are those of
`setPixel_runsOn`. -/
theorem setPixel_retires {i : Instr} {x y : Nat} {on : Bool} {pos : PixPos → Pos} {step : PixPos → State → State}
    {done : State → State} (hexec : ∀ p s, exec i (hold i (pos p) s) = .next (step p s))
    (hstep : ∀ p s, step p s =
      (setPixelStep x y on p s).2.elim (done (setPixelStep x y on p s).1) fun p' => hold i (pos p') (setPixelStep x y on p s).1)
    (rest : ∀ u, Retires i (done u)) (p : PixPos) (s : State) : Retires i (step p s) := by
  have hwrite (t b : Byte) (s : State) : Retires i (step (.rmwWrite t b) s) := by
    rw [hstep]
    exact rest _
  have hread (t : Byte) (fresh : Bool) (s : State) : Retires i (step (.rmwRead t fresh) s) := by
    rw [hstep]
    exact .held (hexec _ _) (hwrite _ _ _)
  have hcell (s : State) : Retires i (step .tpWrite s) := by
    rw [hstep]
    exact .held (hexec _ _) (hread _ _ _)
  cases p with
  | acquire =>
    rw [hstep]
    by_cases h0 : s.memTP.read (pixelCell x y) = 0
    · rw [setPixelStep, if_pos h0]
      exact .held (hexec _ _) (hcell _)
    · rw [setPixelStep, if_neg h0]
      exact .held (hexec _ _) (hread _ _ _)
  | tpWrite => exact hcell s
  | rmwRead t fresh => exact hread t fresh s
  | rmwWrite t b => exact hwrite t b s

/-- Paint goes from any of its cells to the retirement (44 R237). -/
theorem paintFrom_retires {i : Instr} {d : Sprite} (hp : d.paint = true)
    (step : ∀ k s, exec i (hold i (.paint k) s) = .next (paintFrom i d k s)) {k : Nat} (hk : k ≤ d.nc * d.nr) (s : State) :
    Retires i (paintFrom i d k s) := ⟨_, paintFrom_runsOn hp step _ k (Nat.add_sub_of_le hk) s⟩

theorem goOn_map (i : Instr) (f : PixPos → Pos) (next : Option PixPos) (s : State) :
    goOn i (next.map f) s = next.elim (retire i s) fun p => hold i (f p) s := by
  cases next <;> rfl

/-- A state with a command in flight is that of the command held at its position. -/
theorem eq_hold_of_cur {i : Instr} {p : Pos} {s : State} (hcur : s.cur = some { instr := i, pos := p }) : s = hold i p s := by
  cases s
  cases hcur
  rfl

/-! ### Each command in flight retires (60 R286) -/

/-- ACQUIRE in flight stands before its last access (42 R190). -/
theorem acquire_retires {cx cy : Byte} {p : Pos} {s : State} (hcur : s.cur = some { instr := .acquire cx cy, pos := p })
    (hpos : InFlight.PosOk { instr := .acquire cx cy, pos := p } s) : ∃ n t, RunsIn (.acquire cx cy) n s t := by
  cases p with
  | acqWrite =>
    rw [eq_hold_of_cur hcur]
    exact ⟨1, _, .last (exec_acquire_of_acqWrite _) rfl⟩
  | _ => exact hpos.elim

theorem setpixel_retires (x y : BitVec 16) (on : Bool) (s : State) : ∃ n t, RunsIn (.setpixel x y on) n s t :=
  Retires.runsIn rfl (setPixel_retires (pos := .pixel 0) (fun p _ => exec_setpixel_held _ p)
    (fun _ _ => goOn_map _ _ _ _) (Retires.done _) (pixelPos s) s)

/-- A command whose number of accesses is fixed by its operands retires from wherever it stands (60 R275). -/
theorem fixedLoop_retires {i : Instr} {total : Nat} {access : Nat → State → State}
    (hexec : ∀ u, exec i u = .next (accessLoop i total access id u)) (s : State) : ∃ n t, RunsIn i n s t :=
  Retires.runsIn (hexec s) (accessLoop_retires (fun _ => True) (fun u _ => hexec u) (fun _ _ _ => trivial) trivial)

theorem exec_resetpool (s : State) :
    exec .resetpool s = .next (accessLoop .resetpool (poolBytes s) clearPool rewindPool s) := rfl

theorem resetpool_retires (s : State) : ∃ n t, RunsIn .resetpool n s t :=
  Retires.runsIn (exec_resetpool s) (accessLoop_retires (access := clearPool) (fun u => poolBytes u = poolBytes s)
    (fun u hu => by rw [exec_resetpool, hu]) (fun _ _ hu => hu) rfl)

theorem cleargraph_retires (color : Byte) (s : State) : ∃ n t, RunsIn (.cleargraph color) n s t :=
  Retires.runsIn (exec_cleargraph color s) (accessLoop_retires (fun u => poolBytes u = poolBytes s)
    (fun u hu => by rw [exec_cleargraph, hu]) (fun k u hu => (clearScreen_poolBytes color k u).trans hu) rfl)

theorem copyfont_retires {fi ri : Byte} {src : Word} {p : Pos} {s : State}
    (hpos : InFlight.PosOk { instr := .copyfont fi src ri, pos := p } s) : ∃ n t, RunsIn (.copyfont fi src ri) n s t := by
  cases p with
  | index k =>
    obtain ⟨hsrc, -⟩ := hpos
    exact fixedLoop_retires (exec_copyfont hsrc) s
  | _ => exact hpos.elim

section
variable {x y w h : BitVec 16} {base : Word} {frame : Byte} {on paint : Bool} {color : Byte} {p : Pos} {s : State}

theorem drawFrom_retires (hn : nullSprite w h base = false) {q : Nat} (hq : q ≤ w.toNat * h.toNat) (s : State) :
    Retires (.drawbmp x y w h base frame on paint color)
      (drawFrom (.drawbmp x y w h base frame on paint color) (spriteOf x y w h base frame on paint color) q s) :=
  ⟨_, drawFrom_runsOn hn _ q (Nat.add_sub_of_le hq) s⟩

theorem drawPixelStep_retires (hn : nullSprite w h base = false) {q : Nat} (hq : q < w.toNat * h.toNat) (pp : PixPos)
    (s : State) : Retires (.drawbmp x y w h base frame on paint color)
      (drawPixelStep (.drawbmp x y w h base frame on paint color) (spriteOf x y w h base frame on paint color) q pp s) := by
  let d := spriteOf x y w h base frame on paint color
  let i : Instr := .drawbmp x y w h base frame on paint color
  refine setPixel_retires (x := d.x + q % d.w) (y := d.y + q / d.w) (on := d.on) (pos := .pixel q)
    (step := drawPixelStep i d q) (done := hold i (.scan (q + 1)))
    (fun p u => (drawbmp_eq hn _).trans (congrArg _ (drawPixelStep_hold i d q (.pixel q p) u p))) (fun p u => ?_)
    (fun u => .held (drawbmp_eq hn _) (drawFrom_retires hn hq _)) pp s
  show hold i (Option.elim _ _ _) _ = _
  generalize (setPixelStep (d.x + q % d.w) (d.y + q / d.w) d.on p u).2 = next
  cases next <;> rfl

/-- DRAWBMP retires from any position of its pseudocode (44 R236). -/
theorem drawbmp_retires (hcur : s.cur = some { instr := .drawbmp x y w h base frame on paint color, pos := p })
    (hpos : InFlight.PosOk { instr := .drawbmp x y w h base frame on paint color, pos := p } s) :
    ∃ n t, RunsIn (.drawbmp x y w h base frame on paint color) n s t := by
  cases p with
  | pixel q pp =>
    obtain ⟨hn, hq, -⟩ := hpos
    exact Retires.runsIn (by rw [drawbmp_eq hn, drawStep, hcur]) (drawPixelStep_retires hn hq pp s)
  | scan q =>
    obtain ⟨hn, -, hq⟩ := hpos
    exact Retires.runsIn (by rw [drawbmp_eq hn, drawStep, hcur]) (drawFrom_retires hn hq s)
  | paint k =>
    obtain ⟨hn, hpaint, -, hk⟩ := hpos
    exact Retires.runsIn (by rw [drawbmp_eq hn, drawStep, hcur]) (paintFrom_retires hpaint
      (fun k u => (drawbmp_eq hn _).trans (congrArg _ (paintFrom_hold _ _ k (.paint k) u))) hk s)
  | _ => exact hpos.elim

theorem cellsFrom_retires (hr : inRestriction w h base) {q : Nat} (hq : q ≤ 8 * (spriteOf x y w h base frame on paint color).nc)
    (tiles : Tiles) (s : State) : Retires (.drawbmp8 x y w h base frame on paint color)
      (cellsFrom (.drawbmp8 x y w h base frame on paint color) (spriteOf x y w h base frame on paint color) q tiles s) :=
  ⟨_, cellsFrom_runsOn hr _ q (Nat.add_sub_of_le hq) tiles s⟩

theorem rowsFrom_retires (hr : inRestriction w h base) {q : Nat}
    (hq : q ≤ 2 * (spriteOf x y w h base frame on paint color).nc * 8) (tiles : Tiles) (s : State) :
    Retires (.drawbmp8 x y w h base frame on paint color)
      (rowsFrom (.drawbmp8 x y w h base frame on paint color) (spriteOf x y w h base frame on paint color) q tiles s) :=
  ⟨_, rowsFrom_runsOn hr tiles _ q (Nat.add_sub_of_le hq) s⟩

theorem cellWriteStep_retires (hr : inRestriction w h base) {q : Nat}
    (hq : q < 8 * (spriteOf x y w h base frame on paint color).nc) (tiles : Tiles) (s : State) :
    Retires (.drawbmp8 x y w h base frame on paint color)
      (cellWriteStep (.drawbmp8 x y w h base frame on paint color) (spriteOf x y w h base frame on paint color) q tiles s) :=
  .held (drawbmp8_eq hr _) (cellsFrom_retires hr hq _ _)

theorem rowWriteStep_retires (hr : inRestriction w h base) {q : Nat}
    (hq : q < 2 * (spriteOf x y w h base frame on paint color).nc * 8) (b : Byte) (tiles : Tiles) (s : State) :
    Retires (.drawbmp8 x y w h base frame on paint color)
      (rowWriteStep (.drawbmp8 x y w h base frame on paint color) (spriteOf x y w h base frame on paint color) q b tiles s) :=
  .held (drawbmp8_eq hr _) (rowsFrom_retires hr hq tiles _)

/-- DRAWBMP8 retires from any position of its pseudocode (44 R242). -/
theorem drawbmp8_retires (hcur : s.cur = some { instr := .drawbmp8 x y w h base frame on paint color, pos := p })
    (hpos : InFlight.PosOk { instr := .drawbmp8 x y w h base frame on paint color, pos := p } s) :
    ∃ n t, RunsIn (.drawbmp8 x y w h base frame on paint color) n s t := by
  cases p with
  | cells q fresh tiles =>
    obtain ⟨hr, -, hq, -⟩ := hpos
    exact Retires.runsIn (by rw [drawbmp8_eq hr, draw8Step, hcur]) (cellsFrom_retires hr hq tiles _)
  | cellWrite q tiles =>
    obtain ⟨hr, hq, -⟩ := hpos
    exact Retires.runsIn (by rw [drawbmp8_eq hr, draw8Step, hcur]) (cellWriteStep_retires hr hq tiles s)
  | rows q tiles =>
    obtain ⟨hr, -, hq, -⟩ := hpos
    exact Retires.runsIn (by rw [drawbmp8_eq hr, draw8Step, hcur]) (rowsFrom_retires hr hq tiles s)
  | rowWrite q b tiles =>
    obtain ⟨hr, hq, -⟩ := hpos
    exact Retires.runsIn (by rw [drawbmp8_eq hr, draw8Step, hcur]) (rowWriteStep_retires hr hq b tiles s)
  | paint k =>
    obtain ⟨hr, hpaint, -, hk⟩ := hpos
    exact Retires.runsIn (by rw [drawbmp8_eq hr, draw8Step, hcur]) (paintFrom_retires hpaint
      (fun k u => (drawbmp8_eq hr _).trans (congrArg _ (paintFrom_hold _ _ k (.paint k) u))) hk s)
  | _ => exact hpos.elim

end

/-- Settles O55: the command in flight stands at a position of its pseudocode, from which it has a bounded number of accesses left;
a command of one step is never in flight. -/
theorem everyCommandButWaitfRetires : Obligations.EveryCommandButWaitfRetires := by
  rintro s ⟨i, p⟩ hs hcur hwait
  have hpos := (hs.inFlight _ hcur).2
  cases i with
  | waitf n => exact absurd rfl (hwait n)
  | acquire cx cy => exact acquire_retires hcur hpos
  | resetpool => exact resetpool_retires s
  | fillcolor cx cy w h color => exact fixedLoop_retires (exec_fillcolor cx cy w h color) s
  | fillscr tile color => exact fixedLoop_retires (exec_fillscr tile color) s
  | setpixel x y on => exact setpixel_retires x y on s
  | drawbmp => exact drawbmp_retires hcur hpos
  | drawbmp8 => exact drawbmp8_retires hcur hpos
  | cleargraph color => exact cleargraph_retires color s
  | copyfont => exact copyfont_retires hpos
  | _ => exact hpos.elim

/-! ### Each command run without interruption does what its pseudocode says (60 R275) -/

theorem start_follows (alt : Bool) (base : Word) {s : State} (hr : s.run = false) :
    RunsIn (.start alt base) 1 s (atomicCommand (.start alt base) s) := by
  refine .last ?_ rfl
  simp only [exec_start_of_held alt base hr, nullSource_iff, atomicCommand]
  rfl

theorem setsrc_follows (alt : Bool) (base : Word) (s : State) :
    RunsIn (.setsrc alt base) 1 s (atomicCommand (.setsrc alt base) s) := by
  refine .last ?_ rfl
  simp only [exec_setsrc, nullSource_iff, atomicCommand]
  rfl

/-- WAITF 0 waits for no frame (40 R142). -/
theorem waitf_zero_follows {s : State} (hcur : s.cur = none) : RunsIn (.waitf 0) 2 s (atomicCommand (.waitf 0) s) := by
  refine RunsIn.step (exec_waitf_of_idle 0 hcur) (.last ?_ rfl)
  rw [exec_waitf_of_waiting rfl, if_pos (waitOver_iff.2 (Nat.zero_le _))]
  rfl

/-- The pseudocode of FILLCOLOR is its accesses, one after the other (43 R218). -/
theorem fillcolor_follows (cx cy w h color : Byte) {s : State} (hcur : s.cur = none) :
    ∃ n, RunsIn (.fillcolor cx cy w h color) n s (atomicCommand (.fillcolor cx cy w h color) s) := by
  have hrun := accessLoop_runsIn (fun _ => True) (fun u _ => exec_fillcolor cx cy w h color u) (fun _ _ _ => trivial)
    (fun _ _ _ => rfl) (fun _ _ => rfl) trivial hcur
  simp only [atomicCommand, nest_eq_loop]
  rw [Nat.mul_comm] at hrun
  exact ⟨_, hrun⟩

theorem fillscr_follows (tile color : Byte) {s : State} (hcur : s.cur = none) :
    ∃ n, RunsIn (.fillscr tile color) n s (atomicCommand (.fillscr tile color) s) := by
  have hrun := accessLoop_runsIn_of_pos (by decide) (exec_fillscr tile color) (fun k => fillScreen_hold tile color k _) hcur
  rw [loop_fillScreen] at hrun
  exact ⟨_, hrun⟩

theorem drawbmp_follows (x y w h : BitVec 16) (base : Word) (frame : Byte) (on paint : Bool) (color : Byte) {s : State}
    (hcur : s.cur = none) : ∃ n, RunsIn (.drawbmp x y w h base frame on paint color) n s
      (atomicCommand (.drawbmp x y w h base frame on paint color) s) := by
  obtain ⟨noOp, -, -⟩ := blitNoOpsDoNothing x y w h base frame on paint color 0 0 s
  simp only [atomicCommand]
  by_cases hnull : w = 0 ∨ h = 0 ∨ base = 0
  · rw [if_pos hnull]
    exact ⟨1, .last (noOp hnull) rfl⟩
  · rw [if_neg hnull]
    exact drawbmp_runsIn (Bool.eq_false_iff.2 (mt nullSprite_iff.1 hnull)) hcur

theorem drawbmp8_follows (x y w h : BitVec 16) (base : Word) (frame : Byte) (on paint : Bool) (color : Byte) {s : State}
    (hcur : s.cur = none) : ∃ n, RunsIn (.drawbmp8 x y w h base frame on paint color) n s
      (atomicCommand (.drawbmp8 x y w h base frame on paint color) s) := by
  obtain ⟨-, noOp, -⟩ := blitNoOpsDoNothing x y w h base frame on paint color 0 0 s
  simp only [atomicCommand]
  by_cases hnull : w = 0 ∨ h = 0 ∨ base = 0
  · rw [if_pos hnull]
    exact ⟨1, .last (noOp (by tauto)) rfl⟩
  · by_cases hout : h ≠ 8 ∨ 16 < w.toNat
    · rw [if_neg hnull, if_pos hout]
      exact ⟨1, .last (noOp (by tauto)) rfl⟩
    · rw [if_neg hnull, if_neg hout]
      simp only [not_or, not_not, not_lt] at hnull hout
      obtain ⟨hw, -, hbase⟩ := hnull
      exact drawbmp8_runsIn ⟨hw, hbase, hout⟩ hcur

theorem copyfont_follows (fi : Byte) (src : Word) (ri : Byte) {s : State} (hcur : s.cur = none) :
    ∃ n, RunsIn (.copyfont fi src ri) n s (atomicCommand (.copyfont fi src ri) s) := by
  simp only [atomicCommand]
  by_cases hsrc : src = 0
  · rw [if_pos hsrc]
    exact ⟨1, .last (congrArg _ (if_pos hsrc)) rfl⟩
  · rw [if_neg hsrc]
    exact ⟨8, accessLoop_runsIn_of_pos (by decide) (exec_copyfont hsrc) (fun _ _ _ => rfl) hcur⟩

/-- Settles O56: a command of several accesses comes to its pseudocode by its run lemma, and any other in its one step. -/
theorem uninterruptedCommandsFollowTheirPseudocode : Obligations.UninterruptedCommandsFollowTheirPseudocode := by
  intro i s hcur hstart hwait
  cases i with
  | start alt base => exact ⟨1, start_follows alt base (hstart alt base rfl)⟩
  | setsrc alt base => exact ⟨1, setsrc_follows alt base s⟩
  | waitf n =>
    obtain rfl := hwait n rfl
    exact ⟨2, waitf_zero_follows hcur⟩
  | acquire cx cy => exact acquire_runsIn cx cy hcur
  | resetpool => exact ⟨_, resetpool_runsIn hcur⟩
  | fillcolor cx cy w h color => exact fillcolor_follows cx cy w h color hcur
  | fillscr tile color => exact fillscr_follows tile color hcur
  | setpixel x y on => exact setpixel_runsIn x y on hcur
  | drawbmp x y w h base frame on paint color => exact drawbmp_follows x y w h base frame on paint color hcur
  | drawbmp8 x y w h base frame on paint color => exact drawbmp8_follows x y w h base frame on paint color hcur
  | cleargraph color => exact ⟨_, cleargraph_runsIn color hcur⟩
  | copyfont fi src ri => exact copyfont_follows fi src ri hcur
  | _ => exact ⟨1, .last rfl rfl⟩

end Sys2Proof.Machine
end

section
/-! Who writes slot 0 of RAMF (70 R313). A step of a command writes at most one byte of RAMF, and for every command but COPYFONT
that byte is in the dynamic range, which begins at FIRSTFREE, or in a tile that a cell holds. Neither is slot 0. -/

namespace Sys2Proof.Machine

/-- From `s` to `t` RAMF stays, or one byte past slot 0 is written (70 R313). -/
def WritesPastSlotZero (s t : State) : Prop :=
  t.memRAMF = s.memRAMF ∨ ∃ a v, 8 ≤ a ∧ t.memRAMF = s.memRAMF.write a v

/-- Slot 0 is as it was. -/
theorem WritesPastSlotZero.read_eq {s t : State} (h : WritesPastSlotZero s t) (hm : Memory.WF Config.ramfSize s.memRAMF) {a : Nat}
    (ha : a < 8) : t.memRAMF.read a = s.memRAMF.read a := by
  obtain hramf | ⟨b, v, hb, hramf⟩ := h
  · rw [hramf]
  · rw [hramf, read_write_other hm v (by omega)]

theorem writeRAMF_pastSlotZero (s : State) {a : Nat} (v : Byte) (ha : 8 ≤ a) : WritesPastSlotZero s (writeRAMF a v s) :=
  .inr ⟨a, v, ha, rfl⟩

/-! ### The shared operations -/

section
variable (i : Instr) (d : Sprite) (k q : Nat) (tiles : Tiles) (s : State)

@[simp] theorem goOn_memRAMF (next : Option Pos) : (goOn i next s).memRAMF = s.memRAMF := by cases next <;> rfl

@[simp] theorem fillScreen_memRAMF (tile color : Byte) : (fillScreen tile color k s).memRAMF = s.memRAMF := by
  unfold fillScreen
  split <;> rfl

@[simp] theorem paintFrom_memRAMF : (paintFrom i d k s).memRAMF = s.memRAMF := by
  unfold paintFrom
  split <;> rfl

@[simp] theorem rowsFrom_memRAMF : (rowsFrom i d q tiles s).memRAMF = s.memRAMF := by
  unfold rowsFrom
  split
  · rfl
  · exact paintFrom_memRAMF i d 0 s

@[simp] theorem cellsFrom_memRAMF : (cellsFrom i d q tiles s).memRAMF = s.memRAMF := by
  unfold cellsFrom
  split
  · split <;> rfl
  · exact rowsFrom_memRAMF i d 0 tiles s

@[simp] theorem drawPixelStep_memRAMF (p : PixPos) :
    (drawPixelStep i d q p s).memRAMF = (setPixelStep (d.x + q % d.w) (d.y + q / d.w) d.on p s).1.memRAMF := rfl

/-- DRAWBMP from a pixel number on begins with a read or with Paint, and neither writes RAMF (44 R236). -/
@[simp] theorem drawFrom_memRAMF : (drawFrom i d q s).memRAMF = s.memRAMF := by
  unfold drawFrom
  split
  · rw [drawPixelStep_memRAMF, setPixelStep]
    split <;> rfl
  · exact paintFrom_memRAMF i d 0 s

end

/-- A step of an access loop writes what its access writes. -/
theorem accessLoop_pastSlotZero {i : Instr} {total : Nat} {access : Nat → State → State} {finish : State → State} {s : State}
    (ha : ∀ k, WritesPastSlotZero s (access k s)) (hf : ∀ u, (finish u).memRAMF = u.memRAMF) :
    WritesPastSlotZero s (accessLoop i total access finish s) := by
  have hlast : WritesPastSlotZero s (finish (access (indexPos s) s)) := by
    rw [WritesPastSlotZero, hf]
    exact ha _
  simp only [accessLoop]
  split
  · split
    · exact ha _
    · exact hlast
  · exact .inl (hf s)

/-- The pool reset begins at FIRSTFREE, which is at least 1 (42 R194). -/
theorem clearPool_pastSlotZero {s : State} (hs : AllocOk s) (k : Nat) : WritesPastSlotZero s (clearPool k s) := by
  obtain ⟨hfirst, -⟩ := hs
  exact writeRAMF_pastSlotZero s 0 (by omega)

theorem clearScreen_pastSlotZero {s : State} (hs : AllocOk s) (color : Byte) (k : Nat) :
    WritesPastSlotZero s (clearScreen color k s) := by
  unfold clearScreen
  split
  · exact clearPool_pastSlotZero hs k
  · split <;> exact .inl (fillScreen_memRAMF _ _ _ _)

/-- The tile that SetPixel writes in is the one of its cell, which is not 0 (44 R230). -/
theorem setPixelStep_pastSlotZero {x y : Nat} {p : PixPos} {s : State} (hp : p.Ok x y s) (on : Bool) :
    WritesPastSlotZero s (setPixelStep x y on p s).1 := by
  cases p with
  | acquire =>
    rw [setPixelStep]
    split <;> exact .inl rfl
  | tpWrite => exact .inl rfl
  | rmwRead t fresh => exact .inl (settle_memRAMF fresh s)
  | rmwWrite t b =>
    obtain ⟨ht, -⟩ := hp
    exact writeRAMF_pastSlotZero s _ (slotRow_ge ht _)

/-- The tile that DRAWBMP8 writes a row of is one it has acquired, which is not 0 (44 R242). -/
theorem rowAddr_ge {d : Sprite} {tiles : Tiles} {q : Nat} {s : State} (ht : TilesOk d tiles s) (hq : d.hasRow tiles q = true) :
    8 ≤ d.rowAddr tiles q := by
  obtain ⟨⟨t, htile⟩, -⟩ := hasRow_iff.1 hq
  rw [Sprite.rowAddr, htile]
  exact slotRow_ge (ht.held _ (tileAt_mem htile)).1 _

/-! ### The step of a command -/

/-- A step of any command but COPYFONT writes no byte of slot 0 (70 R313). -/
theorem exec_pastSlotZero {i : Instr} {s t : State} (hs : AllocOk s) (hi : ∀ fi src ri, i ≠ .copyfont fi src ri)
    (hpos : ∀ c, s.cur = some c → c.instr = i ∧ c.PosOk s) (h : exec i s = .next t) : WritesPastSlotZero s t := by
  cases i <;> simp only [exec] at h
  case start alt base =>
    simp only [execStart] at h
    (repeat' split at h) <;> cases h <;> exact .inl rfl
  case setsrc alt base =>
    cases h
    split <;> exact .inl rfl
  case waitf n =>
    simp only [execWaitf] at h
    (repeat' split at h) <;> cases h <;> exact .inl rfl
  case acquire cx cy =>
    simp only [execAcquire] at h
    (repeat' split at h) <;> cases h <;> exact .inl rfl
  case resetpool =>
    cases h
    exact accessLoop_pastSlotZero (clearPool_pastSlotZero hs) fun _ => rfl
  case setfirstfree n =>
    cases h
    split <;> exact .inl rfl
  case fillcolor cx cy w h' color =>
    cases h
    exact accessLoop_pastSlotZero (fun _ => .inl rfl) fun _ => rfl
  case fillscr tile color =>
    cases h
    exact accessLoop_pastSlotZero (fun k => .inl (fillScreen_memRAMF k s tile color)) fun _ => rfl
  case setpixel x y on =>
    cases h
    rw [WritesPastSlotZero, goOn_memRAMF]
    refine setPixelStep_pastSlotZero ?_ on
    unfold pixelPos
    split
    · rename_i hcur
      obtain ⟨rfl, -, -, hok⟩ := hpos _ hcur
      exact hok
    · trivial
  case drawbmp x y w h' base frame on paint color =>
    cases h
    split
    · exact .inl rfl
    · unfold drawStep
      split
      · rename_i hcur
        obtain ⟨rfl, -, -, -, -, hok⟩ := hpos _ hcur
        exact setPixelStep_pastSlotZero hok on
      · exact .inl (drawFrom_memRAMF _ _ _ _)
      · exact .inl (paintFrom_memRAMF _ _ _ _)
      · exact .inl (drawFrom_memRAMF _ _ _ _)
  case drawbmp8 x y w h' base frame on paint color =>
    cases h
    split
    · exact .inl rfl
    · unfold draw8Step
      split
      · exact .inl (by rw [cellsFrom_memRAMF, settle_memRAMF])
      · exact .inl rfl
      · exact .inl (rowsFrom_memRAMF _ _ _ _ _)
      · rename_i hcur
        obtain ⟨rfl, -, -, hrow, htiles, -⟩ := hpos _ hcur
        exact writeRAMF_pastSlotZero s _ (rowAddr_ge htiles hrow)
      · exact .inl (paintFrom_memRAMF _ _ _ _)
      · exact .inl (cellsFrom_memRAMF _ _ _ _ _)
  case cleargraph color =>
    cases h
    exact accessLoop_pastSlotZero (clearScreen_pastSlotZero hs color) fun _ => rfl
  case copyfont fi src ri => exact absurd rfl (hi fi src ri)
  all_goals
    cases h
    exact .inl rfl

/-- The command at cp, started or gone on with, is a COPYFONT where its step changes a byte of slot 0. -/
theorem exec_copyfont_of_slotZero_changed {i : Instr} {s t : State} (hs : s.Inv) (hcur : ∀ c, s.cur = some c → c.instr = i)
    (h : exec i s = .next t) {a : Nat} (ha : a < 8) (hne : t.memRAMF.read a ≠ s.memRAMF.read a) :
    ∃ fi src ri, i = .copyfont fi src ri := by
  by_contra hother
  have hpos : ∀ c, s.cur = some c → c.instr = i ∧ c.PosOk s := fun c hc => ⟨hcur c hc, (hs.inFlight c hc).2⟩
  have hwrites := exec_pastSlotZero hs.alloc (fun fi src ri he => hother ⟨fi, src, ri, he⟩) hpos h
  exact hne (hwrites.read_eq hs.mem.ramf ha)

/-- A step of CMD that changes a byte of slot 0 is one of a COPYFONT at cp. -/
theorem cmdStep_copyfont_of_slotZero_changed {s t : State} (hs : s.Inv) (h : cmdStep s = .next t) {a : Nat} (ha : a < 8)
    (hne : t.memRAMF.read a ≠ s.memRAMF.read a) : ∃ fi src ri, fetch s = .ok (.copyfont fi src ri) := by
  obtain ⟨c, hcur, hexec⟩ | ⟨hcur, i, hfetch, hexec⟩ | ⟨-, e, -, rfl⟩ := cmdStep_cases h
  · obtain ⟨fi, src, ri, hi⟩ := exec_copyfont_of_slotZero_changed hs (by simp [hcur]) hexec ha hne
    exact ⟨fi, src, ri, hi ▸ (hs.inFlight c hcur).1⟩
  · obtain ⟨fi, src, ri, rfl⟩ := exec_copyfont_of_slotZero_changed hs (by simp [hcur]) hexec ha hne
    exact ⟨fi, src, ri, hfetch⟩
  · exact absurd rfl hne

/-- Settles O59: a line service and a tick leave RAMF, and a step of CMD that changes slot 0 is one of a COPYFONT. -/
theorem onlyCopyfontWritesSlotZero : Obligations.OnlyCopyfontWritesSlotZero := by
  intro s s' a hs h ha hne
  obtain ⟨-, rfl⟩ | ⟨-, -, ⟨-, rfl⟩ | ⟨-, -, rfl⟩⟩ | ⟨hi, -, ⟨-, hcmd⟩ | ⟨-, -, hcmd⟩⟩ := step_cases h
  · exact absurd (by rw [lineService_memRAMF]) hne
  · exact absurd rfl hne
  · exact absurd rfl hne
  · obtain ⟨fi, src, ri, hfetch⟩ := cmdStep_copyfont_of_slotZero_changed hs hcmd ha hne
    exact ⟨fi, src, ri, hfetch, hi⟩
  · obtain ⟨fi, src, ri, hfetch⟩ := cmdStep_copyfont_of_slotZero_changed (popTurn_inv hs) hcmd ha hne
    exact ⟨fi, src, ri, hfetch, hi⟩

end Sys2Proof.Machine
end
